-- ==== Sys2Proof/Word.lean ====
section
/-! DEFINITION. The widths the spec gives its words: bytes, 32-bit command words and checksums, 64-bit operands. -/

namespace Sys2Proof

/-- One byte (spec 00_scope.md R16: bytes of a block or of a byte string). -/
abbrev Byte := BitVec 8

/-- A 32-bit value: a command word (30_encoding.md R80), a checksum accumulator (10_state.md R28). -/
abbrev Word32 := BitVec 32

/-- A 64-bit value: `ARG0`, `ARG1`, `RESULT` (10_state.md R36, R37), and a two's-complement `Int64` key or offset
(00_scope.md R12), read as an integer by `BitVec.toInt`. -/
abbrev Word64 := BitVec 64

end Sys2Proof
end

