-- ==== Sys2Proof/Config.lean ====
section
/-! DEFINITION. What an implementation fixes (spec 00_scope.md section 3) and the free values of the model: constants
without a body, of which nothing can be proved but what their types say. -/

namespace Sys2Proof.Config

/-- `BS`, the block size in bytes (00_scope.md R6: this hardware fixes 8). -/
abbrev bs : Nat := 8

/-- `ALIGN_UNIT` (00_scope.md R7). -/
abbrev alignUnit : Nat := 8

/-- `LEN_BITS`, the width of the command word's byte count (00_scope.md R11). -/
abbrev lenBits : Nat := 16

/-- `N_INST`, the number of writer and reader pairs that exist at reset (00_scope.md R14: default 1). -/
def nInst : Nat := 1

/-- The default of `CRC_POLY` (00_scope.md R8; PRESUMED: the spec has it from general knowledge; log entry 5). -/
def crcPolyDefault : Word32 := 0xEDB88320#32

/-- `CRC_POLY`, a configuration field whose default is `crcPolyDefault` (00_scope.md R8; D5; log entry 5). It is opaque:
a compiled machine runs with the default, and what is proved holds for every polynomial. -/
opaque crcPoly : Word32 := crcPolyDefault

/-- `CRC_INIT`, the sentinel start value of the checksum accumulator (00_scope.md R10). -/
def crcInit : Word32 := 0xFFFFFFFF#32

/-- The largest legal logical offset, 2^63 - 1 (00_scope.md R12). -/
abbrev maxOfs : Nat := 9223372036854775807

/-- A block: `BS` bytes, byte 0 first on the wire (00_scope.md R16; 20_memory.md R60). -/
abbrev Block := Vector Byte bs

/-! ### The cipher (00_scope.md R9; 20_memory.md R57; log entries 3 and 4) -/

/-- `KEY_VALID`: which keys `Construct` accepts; the spec leaves it OPEN. -/
opaque keyValid : Word64 → Bool

/-- The cipher of a valid key: a permutation of the blocks. The spec fixes no more than `Dec(K, Enc(K, b)) = b`, which
on the finite set of blocks makes `Enc(K, ·)` a permutation and `Dec(K, ·)` its inverse (DEDUCED; log entry 3). -/
opaque cipher : Word64 → Equiv.Perm Block

/-- `Enc` of a key that the cipher rejects: total, and of no law (00_scope.md R9). -/
opaque rejectedEnc : Word64 → Block → Block

/-- `Dec` of a key that the cipher rejects: total, and of no law (00_scope.md R9). -/
opaque rejectedDec : Word64 → Block → Block

/-- `Enc(K, b)` (00_scope.md R9). -/
def enc (key : Word64) (b : Block) : Block := if keyValid key then cipher key b else rejectedEnc key b

/-- `Dec(K, b)` (00_scope.md R9). -/
def dec (key : Word64) (b : Block) : Block := if keyValid key then (cipher key).symm b else rejectedDec key b

/-! ### Free values

Each is applied to the draw key of the engine that draws (log entry 9), and each draw uses a key no earlier draw used. -/

/-- What a free value is applied to: the instance, the engine (`reader` or not) and how many draws the engine made. -/
structure DrawKey where
  inst   : Nat
  reader : Bool
  count  : Nat
deriving DecidableEq, Repr

/-- The key of the engine's next draw. -/
def DrawKey.next (k : DrawKey) : DrawKey := { k with count := k.count + 1 }

/-- `RESULT` of a `W.WRITE` of `n` bytes that finishes IO_ERROR: `draw([0 .. n])` (41_writer.md R123; D30; I9). -/
opaque freeCount : DrawKey → (n : Nat) → Fin (n + 1)

/-- `RESULT` of an `R.READ_xx` that finishes with an error: `draw(all 64-bit values)` (42_reader.md R175; I10). -/
opaque freeResult : DrawKey → Word64

/-- A key register while its engine is unbound, after a bind that failed (10_state.md R22, R33; I14). -/
opaque freeKey : DrawKey → Word64

/-- `W.BUF` or `R.BUF` where the spec leaves it unspecified (60_exceptions.md R231; 42_reader.md R171). -/
opaque freeBuf : DrawKey → Block

/-- `W.FILL` after a faulting command (60_exceptions.md R231), within its range 0 to `BS` (10_state.md R27). -/
opaque freeFill : DrawKey → Fin (bs + 1)

/-- `W.OFS` after a faulting command (60_exceptions.md R231). -/
opaque freeOfs : DrawKey → Word64

/-- `W.CRC` after a faulting command (60_exceptions.md R231). -/
opaque freeCrc : DrawKey → Word32

/-- `W.RESV` after a faulting command (60_exceptions.md R231). -/
opaque freeResv : DrawKey → List Nat

/-- `R.CUR` plus one after a faulting command that no other rule fixes it after (60_exceptions.md R231), within its
range -1 to `BS` (10_state.md R34). -/
opaque freeCur : DrawKey → Fin (bs + 2)

/-- The sink's bytes where a failed write leaves them unspecified (20_memory.md R52, R53; I12). -/
opaque freeCells : DrawKey → List (Nat × Byte)

/-- A sink's or source's position where a failed port operation leaves it unspecified (20_memory.md R52, R55, R56). -/
opaque freePos : DrawKey → Nat

/-- `RESULT` of a seek whose target lies past 2^63 - 1, a function of the target (log entry 20). -/
opaque freeSeekResult : Nat → Word64

end Sys2Proof.Config
end

