-- ==== Sys2Proof/Syntax.lean ====
section
/-! DEFINITION. The commands of the codec: one constructor per row of spec/opcode_table.json (30_encoding.md R91, R92). -/

namespace Sys2Proof

/-- The engine a command word's `UNIT` field selects (30_encoding.md R89). -/
inductive Engine where
  | writer
  | reader
deriving DecidableEq, Repr

/-- The widths of the integers the block serialises, the code `WC` (00_scope.md R15). -/
inductive Width where
  | w8
  | w16
  | w32
  | w64
deriving DecidableEq, Repr

/-- The seek origin, the field `WH` (30_encoding.md R85). -/
inductive Origin where
  | start
  | current
  | fromEnd
deriving DecidableEq, Repr

/-- The commands. Only `C` of `W.BIND` and `LEN` of `W.WRITE` and `R.READ` are free in the command word
(30_encoding.md R81); every other operand travels in `ARG0`, `ARG1` and `DIN`. -/
inductive Instr where
  /-- `W.BIND`, the compatibility flag `C` (41_writer.md R122). -/
  | wBind (compat : Bool)
  /-- `W.WRITE`, the byte count `LEN` (R123). -/
  | wWrite (len : Nat)
  /-- `W.WRITE_U8` (R125). -/
  | wWriteU8
  /-- `W.WRITE_I8` (R126). -/
  | wWriteI8
  /-- `W.WRITE_U16` (R127). -/
  | wWriteU16
  /-- `W.WRITE_I16` (R128). -/
  | wWriteI16
  /-- `W.WRITE_U32` (R129). -/
  | wWriteU32
  /-- `W.WRITE_I32` (R130). -/
  | wWriteI32
  /-- `W.WRITE_U64` (R131). -/
  | wWriteU64
  /-- `W.WRITE_I64` (R132). -/
  | wWriteI64
  /-- `W.FLUSH` (R134). -/
  | wFlush
  /-- `W.CLOSE` (R135). -/
  | wClose
  /-- `W.RESERVE` (R136). -/
  | wReserve
  /-- `W.PATCH_BLOCK` (R137). -/
  | wPatchBlock
  /-- `W.PATCH_U8` (R139). -/
  | wPatchU8
  /-- `W.PATCH_U16` (R140). -/
  | wPatchU16
  /-- `W.PATCH_U32` (R141). -/
  | wPatchU32
  /-- `W.PATCH_U64` (R142). -/
  | wPatchU64
  /-- `W.CHECKSUM` (R143). -/
  | wChecksum
  /-- `W.RESET_CHECKSUM` (R144). -/
  | wResetChecksum
  /-- `W.BYTES_WRITTEN` (R145). -/
  | wBytesWritten
  /-- `R.BIND` (42_reader.md R173). -/
  | rBind
  /-- `R.READ`, the byte count `LEN` (R174). -/
  | rRead (len : Nat)
  /-- `R.READ_U8` (R176). -/
  | rReadU8
  /-- `R.READ_I8` (R177). -/
  | rReadI8
  /-- `R.READ_U16` (R178). -/
  | rReadU16
  /-- `R.READ_I16` (R179). -/
  | rReadI16
  /-- `R.READ_U32` (R180). -/
  | rReadU32
  /-- `R.READ_I32` (R181). -/
  | rReadI32
  /-- `R.READ_U64` (R182). -/
  | rReadU64
  /-- `R.READ_I64` (R183). -/
  | rReadI64
  /-- `R.BUFFERED` (R184). -/
  | rBuffered
  /-- `R.ALIGN` (R185). -/
  | rAlign
  /-- `R.READ_ALIGNED` (R186). -/
  | rReadAligned
  /-- `R.SEEK_SET` (R188). -/
  | rSeekSet
  /-- `R.SEEK_CUR` (R189). -/
  | rSeekCur
  /-- `R.SEEK_END` (R190). -/
  | rSeekEnd
deriving DecidableEq, Repr

end Sys2Proof
end

