-- ==== Sys2Proof/Machine/State.lean ====
section
/-! DEFINITION. The state of the codec (10_state.md), of the agents at its ports (20_memory.md) and of the host that
drives it, as plain data; the reasons a step can stop; and the state right after reset (R41, R250). -/

namespace Sys2Proof.Machine

open Sys2Proof.Config

/-- A byte space over offsets: the bytes of a sink or of a source (20_memory.md R51, R54), as (offset, byte) pairs with
strictly rising offsets. An offset that is not listed holds no byte. -/
abbrev Memory := List Host.Cell

/-- The status codes (60_exceptions.md R220). The codes 0xA to 0xF are reserved and never produced. -/
inductive Code where
  /-- 0x0: the command completed. -/
  | ok
  /-- 0x1: the cipher rejected the key (R221). -/
  | keyError
  /-- 0x2: a port operation failed (R222). -/
  | ioError
  /-- 0x3: a fetch found no byte left (R223). -/
  | endOfData
  /-- 0x4: a fetch found less than a block (R223). -/
  | shortRead
  /-- 0x5: the sink or source lacks the capability (R225). -/
  | unsupported
  /-- 0x6: the engine is not bound (R226). -/
  | notBound
  /-- 0x7: the word matches no opcode row (R227). -/
  | illegal
  /-- 0x8: the engine has faulted (R228). -/
  | faulted
  /-- 0x9: the case is one of R224's list. -/
  | undefined
deriving DecidableEq, Repr

/-- What a port does with a call: what its contract says of a call that succeeds (20_memory.md R72, R73), or fail.
Log entry 2. -/
inductive PortAnswer where
  | obey
  | fail
deriving DecidableEq, Repr

/-- The sink agent (20_memory.md R51): its bytes, its sequential position `p`, the input `SINK_RA` (00_scope.md R13)
and its answers to the coming calls; a call past the end of the list is obeyed. -/
structure Sink where
  mem  : Memory
  pos  : Nat
  ra   : Bool
  plan : List PortAnswer
deriving DecidableEq, Repr

/-- The source agent (20_memory.md R54): its bytes, its position `q`, the input `SRC_SEEK` (00_scope.md R13), whether it
is the reference source of R73, and its answers to the coming calls; a call past the end of the list is obeyed. -/
structure Source where
  mem       : Memory
  pos       : Nat
  seek      : Bool
  reference : Bool
  plan      : List PortAnswer
deriving DecidableEq, Repr

/-- The registers an engine presents to its host (10_state.md R35 to R40) and its data ports (20_memory.md R58).
`STATUS` is held as its `CODE` field: its other fields are copies (R38), and so is all of `CONFIG` (R39). -/
structure HostRegs where
  cmd    : Word32
  arg0   : Word64
  arg1   : Word64
  result : Word64
  code   : Code
  din    : List Byte
  dout   : List Byte
deriving DecidableEq, Repr

/-- The writer engine (10_state.md R21 to R32), with the sink at its port and the model's draw key. -/
structure Writer where
  regs    : HostRegs
  bound   : Bool
  key     : Word64
  ra      : Bool
  compat  : Bool
  buf     : Block
  ofs     : Word64
  fill    : Nat
  crc     : Word32
  closed  : Bool
  fault   : Bool
  resv    : List Nat
  sinkLen : Nat
  sink    : Sink
  draw    : DrawKey
deriving DecidableEq, Repr

/-- The reader engine (10_state.md R33, R34), with the source at its port, the model's draw key and the concatenated
`DOUT` of its commands (70_reset_and_hazards.md R266). -/
structure Reader where
  regs   : HostRegs
  bound  : Bool
  key    : Word64
  seek   : Bool
  fault  : Bool
  buf    : Block
  cur    : Int
  source : Source
  stream : List Byte
  draw   : DrawKey
deriving DecidableEq, Repr

/-- One instance: a writer and a reader (00_scope.md R14; 60_exceptions.md R239). -/
structure Instance where
  w : Writer
  r : Reader
deriving DecidableEq, Repr

/-- What the host does (60_exceptions.md R241; 70_reset_and_hazards.md R250, R252). Log entry 1. -/
inductive HostOp where
  /-- Write a command word to `CMD` of an engine, with the command's `DIN` (10_state.md R35; 20_memory.md R58). -/
  | command (inst : Nat) (engine : Engine) (word : Word32) (din : List Byte)
  /-- The next piece of a long transfer: the command word is written only if the engine's last command finished OK
  (30_encoding.md R94). -/
  | resume (inst : Nat) (engine : Engine) (word : Word32) (din : List Byte)
  /-- Write a register by its number (10_state.md R40). -/
  | write (inst : Nat) (engine : Engine) (reg : BitVec 4) (value : Word64)
  /-- Read a register by its number (10_state.md R40). -/
  | read (inst : Nat) (engine : Engine) (reg : BitVec 4)
  /-- Assert hardware reset (70_reset_and_hazards.md R250). -/
  | reset
  /-- Attach a sink to a writer's port (70_reset_and_hazards.md R252). -/
  | attachSink (inst : Nat) (sink : Sink)
  /-- Attach a source to a reader's port (70_reset_and_hazards.md R252). -/
  | attachSource (inst : Nat) (source : Source)
deriving DecidableEq, Repr

/-- The whole machine: the instances, the one the host addresses, the host's pending actions and the value its last
register read returned. -/
structure State where
  insts    : List Instance
  sel      : Nat
  host     : List HostOp
  hostData : Word64
deriving DecidableEq, Repr

/-- Why the machine stops with a fault. -/
inductive Fault where
  /-- Raised by any host action that addresses an instance outside 0 to `N_INST` - 1 (60_exceptions.md R239: the
  instance does not exist). Safe: the spec gives such an access no meaning. -/
  | noSuchInstance
deriving DecidableEq, Repr

/-- Why a command has no step. -/
inductive Refusal where
  /-- Raised by the arm of a command that has no meaning yet; no arm raises it. Safe. -/
  | notModelled (mnemonic : String)
  /-- Raised by an admitted command whose host gave it another number of `DIN` bytes than it consumes: "The model
  gives such a command no step" (20_memory.md R58; 93_implementation_defined.md I23; log entry 18). Safe. -/
  | dinLength
deriving DecidableEq, Repr

/-! ### Reset -/

/-- The registers after reset (10_state.md R35 to R38, R41). -/
def HostRegs.reset : HostRegs :=
  { cmd := 0, arg0 := 0, arg1 := 0, result := 0, code := .ok, din := [], dout := [] }

/-- The sink attached when the machine starts: the reference sink, empty (20_memory.md R72; log entry 2). -/
def Sink.initial : Sink := { mem := [], pos := 0, ra := true, plan := [] }

/-- The source attached when the machine starts: the reference source, empty (20_memory.md R73; log entry 2). -/
def Source.initial : Source := { mem := [], pos := 0, seek := true, reference := true, plan := [] }

/-- The writer's reset values (10_state.md R41), with the sink and the draw key, which a reset does not touch
(70_reset_and_hazards.md R250). `W.KEY` is log entry 8. -/
def Writer.resetWith (sink : Sink) (draw : DrawKey) : Writer :=
  { regs := HostRegs.reset, bound := false, key := 0, ra := false, compat := false, buf := Vector.replicate bs 0
    ofs := 0, fill := 0, crc := crcInit, closed := false, fault := false, resv := [], sinkLen := 0
    sink := sink, draw := draw }

/-- The reader's reset values (10_state.md R41), with the source, the concatenated `DOUT` of the run and the draw key,
which a reset does not touch. `R.KEY` is log entry 8. -/
def Reader.resetWith (source : Source) (stream : List Byte) (draw : DrawKey) : Reader :=
  { regs := HostRegs.reset, bound := false, key := 0, seek := false, fault := false, buf := Vector.replicate bs 0
    cur := -1, source := source, stream := stream, draw := draw }

/-- Instance `k` when the machine starts (60_exceptions.md R239). -/
def Instance.initial (k : Nat) : Instance :=
  { w := Writer.resetWith Sink.initial { inst := k, reader := false, count := 0 }
    r := Reader.resetWith Source.initial [] { inst := k, reader := true, count := 0 } }

/-- The machine right after reset: `N_INST` instances, each unbound (10_state.md R41; 70_reset_and_hazards.md R250,
R251), the host not having acted yet. -/
def State.reset : State :=
  { insts := (List.range nInst).map Instance.initial, sel := 0, host := [], hostData := 0 }

end Sys2Proof.Machine
end

