-- ==== Sys2Proof/Machine/Flags.lean ====
section
/-! DEFINITION. The status codes as bits and what they do to the fault bit (60_exceptions.md R220, R230), the registers
`STATUS` and `CONFIG` (10_state.md R38, R39), and the observable states of the engines (10_state.md R34, R43). -/

namespace Sys2Proof.Machine

open Sys2Proof.Config

/-- The code in `STATUS.CODE` (60_exceptions.md R220). -/
def Code.bits : Code → BitVec 4
  | .ok => 0x0#4
  | .keyError => 0x1#4
  | .ioError => 0x2#4
  | .endOfData => 0x3#4
  | .shortRead => 0x4#4
  | .unsupported => 0x5#4
  | .notBound => 0x6#4
  | .illegal => 0x7#4
  | .faulted => 0x8#4
  | .undefined => 0x9#4

/-- The codes that set the engine's `FAULT` bit (60_exceptions.md R220, R230). -/
def Code.setsFault : Code → Bool
  | .ioError | .shortRead | .undefined => true
  | .ok | .keyError | .endOfData | .unsupported | .notBound | .illegal | .faulted => false

/-- `STATUS` from its fields (10_state.md R38): reserved bits 31 to 7, `CLOSED`, `BOUND`, `FAULT`, `CODE`. -/
def statusBits (closed bound fault : Bool) (code : Code) : Word32 :=
  (0#25 ++ BitVec.ofBool closed ++ BitVec.ofBool bound ++ BitVec.ofBool fault ++ Code.bits code).setWidth 32

/-- The writer's `STATUS` (10_state.md R38). -/
def Writer.status (w : Writer) : Word32 := statusBits w.closed w.bound w.fault w.regs.code

/-- The reader's `STATUS`; `CLOSED` reads 0 (10_state.md R38). -/
def Reader.status (r : Reader) : Word32 := statusBits false r.bound r.fault r.regs.code

/-- `CONFIG` from its fields (10_state.md R39): reserved bits 31 to 2, `COMPAT`, `CAP`. -/
def configBits (compat cap : Bool) : Word32 := (0#30 ++ BitVec.ofBool compat ++ BitVec.ofBool cap).setWidth 32

/-- The writer's `CONFIG` (10_state.md R39). -/
def Writer.config (w : Writer) : Word32 := configBits w.compat w.ra

/-- The reader's `CONFIG`; `COMPAT` reads 0 (10_state.md R39). -/
def Reader.config (r : Reader) : Word32 := configBits false r.seek

/-- The writer's observable states (10_state.md R43). -/
inductive WriterMode where
  | unbound
  | opened
  | closed
  | faulted
deriving DecidableEq, Repr

/-- The writer's observable state (10_state.md R43). -/
def Writer.mode (w : Writer) : WriterMode :=
  if w.bound = false then .unbound else if w.fault then .faulted else if w.closed then .closed else .opened

/-- The reader's observable states (10_state.md R43). -/
inductive ReaderMode where
  | unbound
  | faulted
  | empty
  | loaded
  | exhausted
deriving DecidableEq, Repr

/-- The reader's observable state (10_state.md R34, R43; 90_conflicts.md C1: `R.CUR = BS` is exhausted). -/
def Reader.mode (r : Reader) : ReaderMode :=
  if r.bound = false then .unbound
  else if r.fault then .faulted
  else if r.cur < 0 then .empty
  else if r.cur < bs then .loaded
  else .exhausted

/-- `buffered()`: the bytes left in the loaded block, 0 if none is loaded or it is exhausted (42_reader.md R172). -/
def Reader.buffered (r : Reader) : Nat := if 0 ≤ r.cur ∧ r.cur < bs then bs - r.cur.toNat else 0

end Sys2Proof.Machine
end

