-- ==== Sys2Proof/Machine/Memory.lean ====
section
/-! DEFINITION. The byte spaces of the sink and the source (20_memory.md R51 to R54, R72, R73). An offset that is not
listed holds no byte: the space ends after its last listed offset. The canonical form is strictly rising offsets. -/

namespace Sys2Proof.Machine

/-- The offsets rise strictly: the one canonical form, so that equal byte spaces are equal data. -/
def Memory.wf : Memory → Bool
  | [] => true
  | [_] => true
  | (a, _) :: (b, y) :: rest => decide (a < b) && Memory.wf ((b, y) :: rest)

/-- The byte at an offset, none where the space holds no byte. -/
def Memory.read : Memory → Nat → Option Byte
  | [], _ => none
  | (c, x) :: rest, a => if a = c then some x else Memory.read rest a

/-- The byte `b` stands at offset `a`; any byte there before is overwritten, or the space grows (20_memory.md R52). -/
def Memory.set : Memory → Nat → Byte → Memory
  | [], a, b => [(a, b)]
  | (c, x) :: rest, a, b =>
    if a < c then (a, b) :: (c, x) :: rest
    else if a = c then (a, b) :: rest
    else (c, x) :: Memory.set rest a b

/-- The bytes stand at offsets `a`, `a + 1`, … in order (20_memory.md R52, R53). -/
def Memory.write (m : Memory) (a : Nat) : List Byte → Memory
  | [] => m
  | b :: bytes => Memory.write (Memory.set m a b) (a + 1) bytes

/-- The length of the space: one past its last listed offset (20_memory.md R54: `L`; R72: `len(S)`). -/
def Memory.length : Memory → Nat
  | [] => 0
  | [(a, _)] => a + 1
  | _ :: cell :: rest => Memory.length (cell :: rest)

/-- Up to `n` bytes from offset `a`, ending before the first offset that holds no byte (20_memory.md R55, R73). -/
def Memory.readUpTo (m : Memory) (a : Nat) : Nat → List Byte
  | 0 => []
  | n + 1 =>
    match Memory.read m a with
    | none => []
    | some b => b :: Memory.readUpTo m (a + 1) n

/-- The space with zeros from its end up to `a`; unchanged where it already reaches `a` (20_memory.md R72). -/
def Memory.padTo (m : Memory) (a : Nat) : Memory :=
  Memory.write m (Memory.length m) (List.replicate (a - Memory.length m) 0)

/-- The write of `SinkWriteAt` on the reference sink (20_memory.md R72): a write that would end past the sink's end
first pads the sink with zeros up to the offset. -/
def Memory.writeAt (m : Memory) (a : Nat) (bytes : List Byte) : Memory :=
  if a + bytes.length > Memory.length m then Memory.write (Memory.padTo m a) a bytes else Memory.write m a bytes

/-- The space with the given cells, later ones over earlier ones: any byte space, in canonical form. -/
def Memory.setAll (m : Memory) (cells : List Host.Cell) : Memory :=
  cells.foldl (fun acc c => Memory.set acc c.1 c.2) m

/-- The byte space a list of cells describes, in canonical form. -/
def Memory.ofCells (cells : List Host.Cell) : Memory := Memory.setAll [] cells

/-- The byte space that holds the bytes from offset 0 on (20_memory.md R72, R73: a byte list). -/
def Memory.ofBytes (bytes : List Byte) : Memory := Memory.write [] 0 bytes

/-- The space with the `n` offsets from `a` on holding whatever the given cells say of them, and every other offset as
it was: what a failed write leaves (20_memory.md R53; I12). -/
def Memory.scramble (m : Memory) (a n : Nat) (cells : List Host.Cell) : Memory :=
  Memory.setAll (m.filter fun c => decide (c.1 < a ∨ a + n ≤ c.1))
    (cells.filter fun c => decide (a ≤ c.1 ∧ c.1 < a + n))

end Sys2Proof.Machine
end

