-- ==== Sys2Proof/Machine/Operands.lean ====
section
/-! DEFINITION. How operands are read and results assembled: integer widths (00_scope.md R15), little-endian byte
strings (R16; 20_memory.md R59), `ARG0` and `ARG1` as keys, offsets and values (30_encoding.md R87), `RESULT` (R88),
and slices of a block. -/

namespace Sys2Proof.Machine

open Sys2Proof.Config

/-- `NB(WC) = 2^WC`, the width in bytes (00_scope.md R15). -/
def Width.bytes : Width → Nat
  | .w8 => 1
  | .w16 => 2
  | .w32 => 4
  | .w64 => 8

/-- `le_bytes(n, v)` (00_scope.md R16): byte `i` is bits `8i+7` to `8i` of `v`. -/
def leBytes (n : Nat) (v : Word64) : List Byte := (List.range n).map fun i => v.extractLsb' (8 * i) 8

/-- `le_value(s)` (00_scope.md R16). -/
def leValue : List Byte → Nat
  | [] => 0
  | b :: s => b.toNat + 256 * leValue s

/-- The bytes of the value a `W.WRITE_xx` or `W.PATCH_Uxx` serialises: the low `8*NB` bits, with no range check
(30_encoding.md R87). -/
def valueBytes (k : Width) (v : Word64) : List Byte := leBytes (Width.bytes k) v

/-- The payload of a `W.PATCH_Uxx`: the value's bytes, zero-padded to a block (41_writer.md R138). -/
def patchPayload (k : Width) (v : Word64) : List Byte := valueBytes k v ++ List.replicate (bs - Width.bytes k) 0

/-- A value read without sign, zero-extended into `RESULT` (30_encoding.md R88; 42_reader.md R175). -/
def unsignedResult (s : List Byte) : Word64 := BitVec.ofNat 64 (leValue s)

/-- A value read with sign, sign-extended from its `8*NB` bits into `RESULT` (30_encoding.md R88; 42_reader.md R175). -/
def signedResult (k : Width) (s : List Byte) : Word64 :=
  (BitVec.ofNat (8 * Width.bytes k) (leValue s)).signExtend 64

/-- An offset operand as an `Int64` (30_encoding.md R87). -/
def offsetOperand (v : Word64) : Int := v.toInt

/-- `RESULT` of a seek that reached `abs` (42_reader.md R187). Offsets end at 2^63 - 1 (00_scope.md R12; 20_memory.md
R54), and the spec states no result past them: a free value (log entry 20). -/
def seekResult (abs : Nat) : Word64 := if abs ≤ maxOfs then BitVec.ofNat 64 abs else freeSeekResult abs

/-- `b[f .. f + len(s)) <- s` (00_scope.md R16); what would fall past the block's end is dropped. -/
def blockPut (b : Block) (f : Nat) : List Byte → Block
  | [] => b
  | x :: s => blockPut (b.setIfInBounds f x) (f + 1) s

/-- The bytes of a block as a byte string, byte 0 first (20_memory.md R60). -/
def blockBytes (b : Block) : List Byte := (List.range bs).map fun i => b[i]?.getD 0

/-- `b[f .. f + k)` (00_scope.md R16). -/
def blockSlice (b : Block) (f k : Nat) : List Byte := ((blockBytes b).drop f).take k

/-- `zeros(BS)` (00_scope.md R16). -/
def zeroBlock : Block := Vector.replicate bs 0

/-- The block of a byte string of `BS` bytes, byte 0 first (20_memory.md R60). -/
def blockOfBytes (s : List Byte) : Block := blockPut zeroBlock 0 s

end Sys2Proof.Machine
end

