-- ==== Sys2Proof/Machine/Ops.lean ====
section
/-! DEFINITION. The operations every command is built from: the port operations of the sink and the source
(20_memory.md), finishing a command and raising a status code (00_scope.md R16; 60_exceptions.md R220, R230, R231),
admission (R229), and the host's access to the registers (10_state.md R40). The block has no trap (60_exceptions.md
R234): raising a code is its whole way of taking an error, and a bind its only way back (R235). -/

namespace Sys2Proof.Machine

open Sys2Proof.Config

/-- How a procedure of the pseudocode ends: it went through, or it raises a code. -/
inductive Flow (α : Type) where
  | go (x : α)
  | stop (code : Code) (x : α)
deriving DecidableEq, Repr

/-! ### Finishing and raising -/

/-- `finish(code)` with the command's `RESULT` and `DOUT` (00_scope.md R16; 10_state.md R37, R38). -/
def HostRegs.finish (code : Code) (result : Word64) (dout : List Byte) (g : HostRegs) : HostRegs :=
  { g with code := code, result := result, dout := dout }

/-- A writer command finishes; writer commands give no `DOUT` (20_memory.md R58). -/
def Writer.finish (code : Code) (result : Word64) (w : Writer) : Writer :=
  { w with regs := HostRegs.finish code result [] w.regs }

/-- A reader command finishes; its `DOUT` joins the run's (20_memory.md R58; 70_reset_and_hazards.md R266). -/
def Reader.finish (code : Code) (result : Word64) (dout : List Byte) (r : Reader) : Reader :=
  { r with regs := HostRegs.finish code result dout r.regs, stream := r.stream ++ dout }

/-- The fault bit is set and the data path becomes unspecified: free values (60_exceptions.md R230, R231). -/
def Writer.takeFault (w : Writer) : Writer :=
  { w with
    fault := true
    buf := freeBuf w.draw
    fill := (freeFill w.draw).val
    ofs := freeOfs w.draw
    crc := freeCrc w.draw
    resv := freeResv w.draw
    draw := w.draw.next }

/-- `raise code` in a writer command (00_scope.md R16). -/
def Writer.raise (code : Code) (result : Word64) (w : Writer) : Writer :=
  if Code.setsFault code then Writer.takeFault (Writer.finish code result w) else Writer.finish code result w

/-- The fault bit is set and the data path becomes unspecified (60_exceptions.md R230, R231). `R.CUR` is a free value
after UNDEFINED; after IO_ERROR and SHORT_READ it holds what the command's pseudocode last gave it: -1 after a failed
fetch (42_reader.md R171, D34), its old value after a failed seek (R187). Log entry 10. -/
def Reader.takeFault (code : Code) (r : Reader) : Reader :=
  { r with
    fault := true
    buf := freeBuf r.draw
    cur := if code = Code.undefined then ((freeCur r.draw).val : Int) - 1 else r.cur
    draw := r.draw.next }

/-- `raise code` in a reader command (00_scope.md R16). -/
def Reader.raise (code : Code) (result : Word64) (dout : List Byte) (r : Reader) : Reader :=
  if Code.setsFault code then Reader.takeFault code (Reader.finish code result dout r)
  else Reader.finish code result dout r

/-! ### The sink port -/

/-- The answer to a port's next call (20_memory.md R72; log entry 2). -/
def nextAnswer : List PortAnswer → PortAnswer
  | [] => .obey
  | a :: _ => a

/-- `SinkWrite(s)` (20_memory.md R52). On success the bytes stand at `p` on and `p` moves past them. On failure the
sink's bytes and `p` are unspecified: free values. Sink offsets are `Int64` (R51), and no rule says what a call that
carries `p` past 2^63 - 1 does: a sink that obeys takes it (DESIGN CHOICE; log entry 27). -/
def Writer.sinkWrite (w : Writer) (s : List Byte) : Flow Writer :=
  match nextAnswer w.sink.plan with
  | .obey =>
    .go { w with
      sink := { w.sink with
        mem := Memory.write w.sink.mem w.sink.pos s
        pos := w.sink.pos + s.length
        plan := w.sink.plan.tail }
      sinkLen := w.sinkLen + s.length }
  | .fail =>
    .stop .ioError { w with
      sink := { w.sink with
        mem := Memory.ofCells (freeCells w.draw)
        pos := freePos w.draw
        plan := w.sink.plan.tail }
      draw := w.draw.next }

/-- `SinkWriteAt(off, s)` (20_memory.md R53). On success the bytes stand at `off` on and `p` is unchanged, also where the
sink grows, so that the next `SinkWrite` overwrites what it grew by (DESIGN CHOICE against R72's `p = len(S)`; log entry
28). On failure the bytes at those offsets are unspecified: free values. -/
def Writer.sinkWriteAt (w : Writer) (off : Nat) (s : List Byte) : Flow Writer :=
  match nextAnswer w.sink.plan with
  | .obey =>
    .go { w with
      sink := { w.sink with mem := Memory.writeAt w.sink.mem off s, plan := w.sink.plan.tail } }
  | .fail =>
    .stop .ioError { w with
      sink := { w.sink with
        mem := Memory.scramble w.sink.mem off s.length (freeCells w.draw)
        plan := w.sink.plan.tail }
      draw := w.draw.next }

/-! ### The source port -/

/-- The outcomes of `SrcRead` (20_memory.md R55). -/
inductive ReadOutcome where
  | ok
  | eod
  | err
deriving DecidableEq, Repr

/-- The source's position after a read that got `got` bytes: `q + got` (20_memory.md R55; 70_reset_and_hazards.md
R263); the reference source's `q <- min(q+n, L)` differs from it where the read began past `L`, and puts it at `L` (R73).
On a source that is the reference source the model follows R73; a seek that ends so takes the source back to the block's
boundary (`Reader.atBoundary`, R263). DESIGN CHOICE; log entry 16. -/
def Source.posAfter (c : Source) (got : Nat) : Nat :=
  if c.reference ∧ Memory.length c.mem < c.pos then Memory.length c.mem else c.pos + got

/-- `SrcRead(n)` (20_memory.md R55): the bytes read, the outcome, and the reader with the source moved on. After `err`
the source's position is unspecified: a free value. -/
def Reader.srcRead (r : Reader) (n : Nat) : List Byte × ReadOutcome × Reader :=
  match nextAnswer r.source.plan with
  | .obey =>
    let got := Memory.readUpTo r.source.mem r.source.pos n
    let source := { r.source with
      pos := if got.length = n then r.source.pos + n else Source.posAfter r.source got.length
      plan := r.source.plan.tail }
    (got, if got.length = n then .ok else .eod, { r with source := source })
  | .fail =>
    ([], .err, { r with
      source := { r.source with pos := freePos r.draw, plan := r.source.plan.tail }
      draw := r.draw.next })

/-- The base of a seek (20_memory.md R56): 0, `q` or `L`. -/
def Source.base (c : Source) : Origin → Nat
  | .start => 0
  | .current => c.pos
  | .fromEnd => Memory.length c.mem

/-- `SrcSeek(off, wh)` (20_memory.md R56): the new position, or none where it fails. A result below 0 fails. After a
failure the source's position is unspecified: a free value. -/
def Reader.srcSeek (r : Reader) (off : Int) (wh : Origin) : Option Nat × Reader :=
  let target := (Source.base r.source wh : Int) + off
  if nextAnswer r.source.plan = PortAnswer.obey ∧ 0 ≤ target then
    (some target.toNat,
      { r with source := { r.source with pos := target.toNat, plan := r.source.plan.tail } })
  else
    (none, { r with
      source := { r.source with pos := freePos r.draw, plan := r.source.plan.tail }
      draw := r.draw.next })

/-! ### The addressed instance -/

/-- The instance the host addresses (60_exceptions.md R239). -/
def State.cur? (s : State) : Option Instance := s.insts[s.sel]?

/-- The machine with the addressed instance replaced. -/
def State.setCur (s : State) (n : Instance) : State := { s with insts := s.insts.set s.sel n }

/-- The machine with the addressed instance's writer replaced. -/
def State.setW (s : State) (n : Instance) (w : Writer) : State := State.setCur s { n with w := w }

/-- The machine with the addressed instance's reader replaced. -/
def State.setR (s : State) (n : Instance) (r : Reader) : State := State.setCur s { n with r := r }

/-! ### Admission (60_exceptions.md R229, steps 2 to 4) -/

/-- A bind is admitted in every state (60_exceptions.md R229 step 2). It consumes no `DIN`. -/
def bindWriter (f : Writer → Writer) (s : State) : Host.Outcome State Fault Refusal :=
  match State.cur? s with
  | none => .fault .noSuchInstance
  | some n => if n.w.regs.din.length = 0 then .next (State.setW s n (f n.w)) else .refused .dinLength

/-- Every other writer command: NOT_BOUND, then FAULTED, then the command's own rule (60_exceptions.md R226, R228,
R229), which consumes exactly `need` bytes of `DIN` (20_memory.md R58). -/
def runWriter (need : Nat) (f : Writer → Writer) (s : State) : Host.Outcome State Fault Refusal :=
  match State.cur? s with
  | none => .fault .noSuchInstance
  | some n =>
    if n.w.bound = false then .next (State.setW s n (Writer.raise .notBound 0 n.w))
    else if n.w.fault = true then .next (State.setW s n (Writer.raise .faulted 0 n.w))
    else if n.w.regs.din.length = need then .next (State.setW s n (f n.w))
    else .refused .dinLength

/-- A bind is admitted in every state (60_exceptions.md R229 step 2). It consumes no `DIN`. -/
def bindReader (f : Reader → Reader) (s : State) : Host.Outcome State Fault Refusal :=
  match State.cur? s with
  | none => .fault .noSuchInstance
  | some n => if n.r.regs.din.length = 0 then .next (State.setR s n (f n.r)) else .refused .dinLength

/-- Every other reader command: NOT_BOUND, then FAULTED, then the command's own rule (60_exceptions.md R226, R228,
R229). No reader command consumes `DIN` (20_memory.md R58). -/
def runReader (f : Reader → Reader) (s : State) : Host.Outcome State Fault Refusal :=
  match State.cur? s with
  | none => .fault .noSuchInstance
  | some n =>
    if n.r.bound = false then .next (State.setR s n (Reader.raise .notBound 0 [] n.r))
    else if n.r.fault = true then .next (State.setR s n (Reader.raise .faulted 0 [] n.r))
    else if n.r.regs.din.length = 0 then .next (State.setR s n (f n.r))
    else .refused .dinLength

/-! ### The register map (10_state.md R40) -/

/-- What reading register `reg` returns, from the registers, `STATUS` and `CONFIG` of an engine: `CMD` and the
registers 6 to 15 read 0 (10_state.md R35, R40). -/
def HostRegs.read (g : HostRegs) (status config : Word32) (reg : BitVec 4) : Word64 :=
  if reg = 1#4 then status.setWidth 64
  else if reg = 2#4 then g.arg0
  else if reg = 3#4 then g.arg1
  else if reg = 4#4 then g.result
  else if reg = 5#4 then config.setWidth 64
  else 0

/-- Writing a register other than `CMD`: only `ARG0` and `ARG1` take the value (10_state.md R36 to R40). -/
def HostRegs.write (g : HostRegs) (reg : BitVec 4) (value : Word64) : HostRegs :=
  if reg = 2#4 then { g with arg0 := value }
  else if reg = 3#4 then { g with arg1 := value }
  else g

/-- The value the host reads from a register of an engine (10_state.md R40). -/
def Instance.readReg (n : Instance) (e : Engine) (reg : BitVec 4) : Word64 :=
  match e with
  | .writer => HostRegs.read n.w.regs (Writer.status n.w) (Writer.config n.w) reg
  | .reader => HostRegs.read n.r.regs (Reader.status n.r) (Reader.config n.r) reg

/-- The instance after a change to the registers of one engine. -/
def Instance.onRegs (n : Instance) (e : Engine) (f : HostRegs → HostRegs) : Instance :=
  match e with
  | .writer => { n with w := { n.w with regs := f n.w.regs } }
  | .reader => { n with r := { n.r with regs := f n.r.regs } }

end Sys2Proof.Machine
end

