-- ==== Sys2Proof/Machine/Reader.lean ====
section
/-! DEFINITION. The decoding reader (42_reader.md): the shared procedures `fetch`, the read loop, `align` and `seek`,
then one meaning per command. A meaning names its rule; the pseudocode of that rule is what the definition follows
line by line. -/

namespace Sys2Proof.Machine

open Sys2Proof.Config

/-! ### Shared procedures -/

/-- `fetch()` (42_reader.md R171). After any failure no block is loaded and `R.BUF` is unspecified: a free value. -/
def Reader.fetch (r : Reader) : Flow Reader :=
  match Reader.srcRead r bs with
  | (b, .ok, r') => .go { r' with buf := dec r'.key (blockOfBytes b), cur := 0 }
  | (b, .eod, r') =>
    .stop (if b.length = 0 then .endOfData else .shortRead)
      { r' with cur := -1, buf := freeBuf r'.draw, draw := r'.draw.next }
  | (_, .err, r') => .stop .ioError { r' with cur := -1, buf := freeBuf r'.draw, draw := r'.draw.next }

/-- The loop of `R.READ` (42_reader.md R174) with `n - i` bytes still owed and the bytes `out` delivered so far. Every
turn delivers at least one byte, so a count of turns equal to the bytes owed is never used up. -/
def Reader.readLoop : Nat → Nat → List Byte → Reader → Flow (List Byte × Reader)
  | 0, _, out, r => .go (out, r)
  | _ + 1, 0, out, r => .go (out, r)
  | turns + 1, owed + 1, out, r =>
    match (if r.cur < 0 ∨ r.cur ≥ bs then Reader.fetch r else .go r) with
    | .stop code r' => .stop code (out, r')
    | .go r' =>
      let k := min (bs - r'.cur.toNat) (owed + 1)
      Reader.readLoop turns (owed + 1 - k) (out ++ blockSlice r'.buf r'.cur.toNat k) { r' with cur := r'.cur + k }

/-- `R.READ n` (42_reader.md R174): on an error, `DOUT` and `RESULT` are the bytes delivered before it. -/
def Reader.read (n : Nat) (r : Reader) : Reader :=
  match Reader.readLoop n n [] r with
  | .go (out, r') => Reader.finish .ok (BitVec.ofNat 64 n) out r'
  | .stop code (out, r') => Reader.raise code (BitVec.ofNat 64 out.length) out r'

/-- `R.READ_xx` (42_reader.md R175): the bytes go into a value, not into `DOUT`; on an error `RESULT` is a free
value. -/
def Reader.readValue (k : Width) (signed : Bool) (r : Reader) : Reader :=
  match Reader.readLoop (Width.bytes k) (Width.bytes k) [] r with
  | .go (s, r') => Reader.finish .ok (if signed then signedResult k s else unsignedResult s) [] r'
  | .stop code (_, r') => Reader.raise code (freeResult r'.draw) [] { r' with draw := r'.draw.next }

/-- The body of `R.ALIGN` (42_reader.md R185). -/
def Reader.alignBody (r : Reader) : Flow Reader :=
  if Reader.buffered r % alignUnit ≠ 0 then Reader.fetch { r with cur := -1 } else .go r

/-- `R.ALIGN` (42_reader.md R185). -/
def Reader.align (r : Reader) : Reader :=
  match Reader.alignBody r with
  | .go r' => Reader.finish .ok 0 [] r'
  | .stop code r' => Reader.raise code 0 [] r'

/-- The code of a shortfall in the read step of `R.READ_ALIGNED`: SHORT_READ, even at a clean end of data
(42_reader.md R186; D33). -/
def shortfallCode : Code → Code
  | .endOfData => .shortRead
  | code => code

/-- `R.READ_ALIGNED` (42_reader.md R186). -/
def Reader.readAligned (r : Reader) : Reader :=
  match Reader.alignBody r with
  | .stop code r' => Reader.raise code 0 [] r'
  | .go r' =>
    match Reader.readLoop alignUnit alignUnit [] r' with
    | .go (out, r'') => Reader.finish .ok (BitVec.ofNat 64 alignUnit) out r''
    | .stop code (out, r'') => Reader.raise (shortfallCode code) (BitVec.ofNat 64 out.length) out r''

/-- Where a re-alignment whose fetch raised `code` leaves the source: after END_OF_DATA at the block's boundary
(70_reset_and_hazards.md R263), on the reference source too, whose read alone would put it at its end (20_memory.md R73;
DESIGN CHOICE; log entry 16). After another code the reader has faulted. -/
def Reader.atBoundary (boundary : Nat) (code : Code) (r : Reader) : Reader :=
  if code = Code.endOfData then { r with source := { r.source with pos := boundary } } else r

/-- The end of `seek` after the underlying seek reached `abs` (42_reader.md R187): the loaded block is invalidated,
and a target inside a block is re-aligned: back to the block's boundary, fetch, and the cursor at the remainder. A fetch
that finds the end of the data leaves the source at the boundary (70_reset_and_hazards.md R263). -/
def Reader.realign (target : Nat) (r : Reader) : Reader :=
  let r := { r with cur := -1 }
  let rem := target % bs
  if rem = 0 then Reader.finish .ok (seekResult target) [] r
  else
    match Reader.srcSeek r ((target : Int) - rem) .start with
    | (none, r') => Reader.raise .ioError 0 [] r'
    | (some _, r') =>
      match Reader.fetch r' with
      | .stop code r'' => Reader.raise code 0 [] (Reader.atBoundary (target - rem) code r'')
      | .go r'' => Reader.finish .ok (seekResult target) [] { r'' with cur := rem }

/-- The least `Int64`, -2^63 (00_scope.md R12). -/
def minOffset : Int := -9223372036854775808

/-- `seek(off, wh)` (42_reader.md R187). -/
def Reader.seekTo (wh : Origin) (r : Reader) : Reader :=
  let off := offsetOperand r.regs.arg0
  if r.seek = false then Reader.raise .unsupported 0 [] r
  else
    if wh = Origin.current ∧ off - Reader.buffered r < minOffset then Reader.raise .undefined 0 [] r
    else
      match Reader.srcSeek r (if wh = Origin.current then off - Reader.buffered r else off) wh with
      | (none, r') => Reader.raise .ioError 0 [] r'
      | (some target, r') => Reader.realign target r'

/-- `R.BIND` (42_reader.md R173). A bind that fails leaves the key unspecified: a free value (10_state.md R33). -/
def Reader.bind (r : Reader) : Reader :=
  let r' := { r with bound := false, fault := false, seek := false, buf := zeroBlock, cur := -1 }
  if keyValid r.regs.arg0 then
    Reader.finish .ok 0 [] { r' with key := r.regs.arg0, seek := r.source.seek, bound := true }
  else Reader.raise .keyError 0 [] { r' with key := freeKey r.draw, draw := r.draw.next }

/-! ### The meanings -/

/-- `R.BIND key` (42_reader.md R173). -/
def execRBind (s : State) : Host.Outcome State Fault Refusal := bindReader Reader.bind s

/-- `R.READ n` (42_reader.md R174). -/
def execRRead (len : Nat) (s : State) : Host.Outcome State Fault Refusal := runReader (Reader.read len) s

/-- `R.READ_U8` (42_reader.md R176). -/
def execRReadU8 (s : State) : Host.Outcome State Fault Refusal := runReader (Reader.readValue .w8 false) s

/-- `R.READ_I8` (42_reader.md R177). -/
def execRReadI8 (s : State) : Host.Outcome State Fault Refusal := runReader (Reader.readValue .w8 true) s

/-- `R.READ_U16` (42_reader.md R178). -/
def execRReadU16 (s : State) : Host.Outcome State Fault Refusal := runReader (Reader.readValue .w16 false) s

/-- `R.READ_I16` (42_reader.md R179). -/
def execRReadI16 (s : State) : Host.Outcome State Fault Refusal := runReader (Reader.readValue .w16 true) s

/-- `R.READ_U32` (42_reader.md R180). -/
def execRReadU32 (s : State) : Host.Outcome State Fault Refusal := runReader (Reader.readValue .w32 false) s

/-- `R.READ_I32` (42_reader.md R181). -/
def execRReadI32 (s : State) : Host.Outcome State Fault Refusal := runReader (Reader.readValue .w32 true) s

/-- `R.READ_U64` (42_reader.md R182). -/
def execRReadU64 (s : State) : Host.Outcome State Fault Refusal := runReader (Reader.readValue .w64 false) s

/-- `R.READ_I64` (42_reader.md R183). -/
def execRReadI64 (s : State) : Host.Outcome State Fault Refusal := runReader (Reader.readValue .w64 true) s

/-- `R.BUFFERED` (42_reader.md R184). -/
def execRBuffered (s : State) : Host.Outcome State Fault Refusal :=
  runReader (fun r => Reader.finish .ok (BitVec.ofNat 64 (Reader.buffered r)) [] r) s

/-- `R.ALIGN` (42_reader.md R185). -/
def execRAlign (s : State) : Host.Outcome State Fault Refusal := runReader Reader.align s

/-- `R.READ_ALIGNED` (42_reader.md R186). -/
def execRReadAligned (s : State) : Host.Outcome State Fault Refusal := runReader Reader.readAligned s

/-- `R.SEEK_SET offset` (42_reader.md R188). -/
def execRSeekSet (s : State) : Host.Outcome State Fault Refusal := runReader (Reader.seekTo .start) s

/-- `R.SEEK_CUR offset` (42_reader.md R189). -/
def execRSeekCur (s : State) : Host.Outcome State Fault Refusal := runReader (Reader.seekTo .current) s

/-- `R.SEEK_END offset` (42_reader.md R190). -/
def execRSeekEnd (s : State) : Host.Outcome State Fault Refusal := runReader (Reader.seekTo .fromEnd) s

end Sys2Proof.Machine
end

