-- ==== Sys2Proof/Machine/Checksum.lean ====
section
/-! DEFINITION. The checksum accumulator (40_checksum.md): the table, the legacy update the writer uses, the value the
host sees, and the standard variant, which no command runs (00_scope.md R4). Each takes the polynomial; the writer's
is `Config.crcPoly`. -/

namespace Sys2Proof.Machine

/-- One iteration of the table construction (40_checksum.md R100). -/
def crcShift (poly c : Word32) : Word32 := if c.getLsbD 0 then (c >>> 1) ^^^ poly else c >>> 1

/-- `n` iterations of the table construction. -/
def crcShifts (poly : Word32) : Nat → Word32 → Word32
  | 0, c => c
  | n + 1, c => crcShifts poly n (crcShift poly c)

/-- `CRC_TABLE[i]` (40_checksum.md R100): the ROM, as the function of the index it is computed by (R101). -/
def crcTable (poly : Word32) (i : Byte) : Word32 := crcShifts poly 8 (i.setWidth 32)

/-- The per-byte step of the legacy update (40_checksum.md R102). -/
def crcByte (poly c : Word32) (b : Byte) : Word32 := crcTable poly (c.setWidth 8 ^^^ b) ^^^ (c >>> 8)

/-- `crc_legacy(c, s)` (40_checksum.md R102): the per-byte step over the bytes in order, with no complement. -/
def crcLegacy (poly : Word32) : Word32 → List Byte → Word32
  | c, [] => c
  | c, b :: s => crcLegacy poly (crcByte poly c b) s

/-- The externally visible checksum of an accumulator (40_checksum.md R103). -/
def crcVisible (c : Word32) : Word32 := ~~~c

/-- `crc_standard(v, s)` (40_checksum.md R104). -/
def crcStandard (poly v : Word32) (s : List Byte) : Word32 := ~~~(crcLegacy poly (~~~v) s)

end Sys2Proof.Machine
end

