-- ==== Sys2Proof/Machine/Writer.lean ====
section
/-! DEFINITION. The encoding writer (41_writer.md): the shared procedures `emit`, `flush`, the write loop and the
patch, then one meaning per command. A meaning names its rule; the pseudocode of that rule is what the definition
follows line by line. -/

namespace Sys2Proof.Machine

open Sys2Proof.Config

/-! ### Shared procedures -/

/-- `emit()` (41_writer.md R121): the block is checksummed, encrypted and written to the sink. -/
def Writer.emit (w : Writer) : Flow Writer :=
  match Writer.sinkWrite { w with crc := crcLegacy crcPoly w.crc (blockBytes w.buf) } (blockBytes (enc w.key w.buf)) with
  | .go w' => .go { w' with fill := 0 }
  | .stop code w' => .stop code w'

/-- The loop of `W.WRITE` (41_writer.md R123) over the bytes still to copy. Every turn but a first one at
`W.FILL = BS`, which no command leaves behind, copies at least one byte, so a count of turns one above the number of
bytes is never used up. -/
def Writer.writeLoop : Nat → Writer → List Byte → Flow Writer
  | 0, w, _ => .go w
  | _ + 1, w, [] => .go w
  | turns + 1, w, b :: rest =>
    let k := min (bs - w.fill) (rest.length + 1)
    let w' := { w with
      buf := blockPut w.buf w.fill ((b :: rest).take k)
      fill := w.fill + k
      ofs := w.ofs + BitVec.ofNat 64 k }
    if w'.fill = bs then
      match Writer.emit w' with
      | .go w'' => Writer.writeLoop turns w'' ((b :: rest).drop k)
      | .stop code w'' => .stop code w''
    else Writer.writeLoop turns w' ((b :: rest).drop k)

/-- `W.WRITE` of a byte string (41_writer.md R123): closed, then range, then the loop. `RESULT` after IO_ERROR is a
free value in 0 to the length. -/
def Writer.write (s : List Byte) (w : Writer) : Writer :=
  if w.closed then Writer.raise .undefined 0 w
  else if w.ofs.toNat + s.length > maxOfs then Writer.raise .undefined 0 w
  else
    match Writer.writeLoop (s.length + 1) w s with
    | .go w' => Writer.finish .ok (BitVec.ofNat 64 s.length) w'
    | .stop code w' => Writer.raise code (BitVec.ofNat 64 (freeCount w'.draw s.length).val) w'

/-- `W.WRITE_xx` (41_writer.md R124): the value's little-endian bytes, written as `W.WRITE` writes them. -/
def Writer.writeValue (k : Width) (w : Writer) : Writer := Writer.write (valueBytes k w.regs.arg0) w

/-- `flush()` (41_writer.md R133). -/
def Writer.flush (w : Writer) : Flow Writer :=
  if w.fill = 0 then .go w
  else
    let pad := bs - w.fill
    if w.ofs.toNat + pad > maxOfs then .stop .undefined w
    else
      let buf := if w.compat then w.buf else blockPut w.buf w.fill (List.replicate pad 0)
      match Writer.emit { w with buf := buf, fill := bs } with
      | .go w' => .go { w' with ofs := w'.ofs + BitVec.ofNat 64 pad }
      | .stop code w' => .stop code w'

/-- `W.FLUSH` (41_writer.md R134). -/
def Writer.flushCommand (w : Writer) : Writer :=
  match Writer.flush w with
  | .go w' => Writer.finish .ok 0 w'
  | .stop code w' => Writer.raise code 0 w'

/-- `W.CLOSE` (41_writer.md R135). -/
def Writer.close (w : Writer) : Writer :=
  match Writer.flush w with
  | .go w' => Writer.finish .ok 0 { w' with closed := true }
  | .stop code w' => Writer.raise code 0 w'

/-- `W.RESV ∪ {off}` (10_state.md R31): a list without repeats. -/
def addOffset (offs : List Nat) (off : Nat) : List Nat := if off ∈ offs then offs else offs ++ [off]

/-- `W.RESERVE` (41_writer.md R136). -/
def Writer.reserve (w : Writer) : Writer :=
  let a := w.ofs.toNat + (if w.fill > 0 then bs - w.fill else 0)
  if w.closed then Writer.raise .undefined 0 w
  else if a + bs > maxOfs then Writer.raise .undefined 0 w
  else
    match Writer.flush w with
    | .stop code w' => Writer.raise code 0 w'
    | .go w' =>
      match Writer.sinkWrite w' (blockBytes zeroBlock) with
      | .stop code w'' => Writer.raise code 0 w''
      | .go w'' =>
        Writer.finish .ok w'.ofs
          { w'' with ofs := w'.ofs + BitVec.ofNat 64 bs, resv := addOffset w''.resv w'.ofs.toNat }

/-- The offset of a patch is one that a reserve returned (41_writer.md R137; 10_state.md R31). -/
def Writer.reserved (w : Writer) (off : Int) : Bool := w.resv.any fun o => decide ((o : Int) = off)

/-- `W.PATCH_BLOCK` with its offset and payload (41_writer.md R137): capability, then closed, then the offset. The offset
passes to the sink unchanged, over a sink that was not at position 0 at the bind too: the step of 70_reset_and_hazards.md
R253 is taken, where 60_exceptions.md R241 gives none (DESIGN CHOICE; log entry 30). -/
def Writer.patch (payload : List Byte) (w : Writer) : Writer :=
  let off := offsetOperand w.regs.arg0
  if w.ra = false then Writer.raise .unsupported 0 w
  else if w.closed then Writer.raise .undefined 0 w
  else if Writer.reserved w off = false then Writer.raise .undefined 0 w
  else
    match Writer.sinkWriteAt w off.toNat (blockBytes (enc w.key (blockOfBytes payload))) with
    | .go w' => Writer.finish .ok 0 w'
    | .stop code w' => Writer.raise code 0 w'

/-- `W.PATCH_Uxx` (41_writer.md R138). -/
def Writer.patchValue (k : Width) (w : Writer) : Writer := Writer.patch (patchPayload k w.regs.arg1) w

/-- The first lines of `W.BIND` (41_writer.md R122): every element but the key takes its reset value. -/
def Writer.unbind (w : Writer) : Writer :=
  { w with
    bound := false, fault := false, closed := false, ra := false, compat := false
    buf := zeroBlock, fill := 0, ofs := 0, crc := crcInit, resv := [], sinkLen := 0 }

/-- `W.BIND` (41_writer.md R122). A bind that fails leaves the key unspecified: a free value (10_state.md R22). -/
def Writer.bind (compat : Bool) (w : Writer) : Writer :=
  let w' := Writer.unbind w
  if keyValid w.regs.arg0 then
    Writer.finish .ok 0 { w' with key := w.regs.arg0, ra := w.sink.ra, compat := compat, bound := true }
  else Writer.raise .keyError 0 { w' with key := freeKey w.draw, draw := w.draw.next }

/-! ### The meanings -/

/-- `W.BIND key [, compat]` (41_writer.md R122). -/
def execWBind (compat : Bool) (s : State) : Host.Outcome State Fault Refusal := bindWriter (Writer.bind compat) s

/-- `W.WRITE [bytes]` (41_writer.md R123): `DIN` holds exactly `LEN` bytes. -/
def execWWrite (len : Nat) (s : State) : Host.Outcome State Fault Refusal :=
  runWriter len (fun w => Writer.write w.regs.din w) s

/-- `W.WRITE_U8 value` (41_writer.md R125). -/
def execWWriteU8 (s : State) : Host.Outcome State Fault Refusal := runWriter 0 (Writer.writeValue .w8) s

/-- `W.WRITE_I8 value` (41_writer.md R126): the bytes `W.WRITE_U8` writes (R124). -/
def execWWriteI8 (s : State) : Host.Outcome State Fault Refusal := runWriter 0 (Writer.writeValue .w8) s

/-- `W.WRITE_U16 value` (41_writer.md R127). -/
def execWWriteU16 (s : State) : Host.Outcome State Fault Refusal := runWriter 0 (Writer.writeValue .w16) s

/-- `W.WRITE_I16 value` (41_writer.md R128): the bytes `W.WRITE_U16` writes (R124). -/
def execWWriteI16 (s : State) : Host.Outcome State Fault Refusal := runWriter 0 (Writer.writeValue .w16) s

/-- `W.WRITE_U32 value` (41_writer.md R129). -/
def execWWriteU32 (s : State) : Host.Outcome State Fault Refusal := runWriter 0 (Writer.writeValue .w32) s

/-- `W.WRITE_I32 value` (41_writer.md R130): the bytes `W.WRITE_U32` writes (R124). -/
def execWWriteI32 (s : State) : Host.Outcome State Fault Refusal := runWriter 0 (Writer.writeValue .w32) s

/-- `W.WRITE_U64 value` (41_writer.md R131). -/
def execWWriteU64 (s : State) : Host.Outcome State Fault Refusal := runWriter 0 (Writer.writeValue .w64) s

/-- `W.WRITE_I64 value` (41_writer.md R132): the bytes `W.WRITE_U64` writes (R124). -/
def execWWriteI64 (s : State) : Host.Outcome State Fault Refusal := runWriter 0 (Writer.writeValue .w64) s

/-- `W.FLUSH` (41_writer.md R134); allowed while closed (R120). -/
def execWFlush (s : State) : Host.Outcome State Fault Refusal := runWriter 0 Writer.flushCommand s

/-- `W.CLOSE` (41_writer.md R135); allowed while closed (R120). -/
def execWClose (s : State) : Host.Outcome State Fault Refusal := runWriter 0 Writer.close s

/-- `W.RESERVE` (41_writer.md R136). -/
def execWReserve (s : State) : Host.Outcome State Fault Refusal := runWriter 0 Writer.reserve s

/-- `W.PATCH_BLOCK offset, [block]` (41_writer.md R137): `DIN` holds exactly `BS` bytes, whatever the outcome. -/
def execWPatchBlock (s : State) : Host.Outcome State Fault Refusal :=
  runWriter bs (fun w => Writer.patch w.regs.din w) s

/-- `W.PATCH_U8 offset, value` (41_writer.md R139). -/
def execWPatchU8 (s : State) : Host.Outcome State Fault Refusal := runWriter 0 (Writer.patchValue .w8) s

/-- `W.PATCH_U16 offset, value` (41_writer.md R140). -/
def execWPatchU16 (s : State) : Host.Outcome State Fault Refusal := runWriter 0 (Writer.patchValue .w16) s

/-- `W.PATCH_U32 offset, value` (41_writer.md R141). -/
def execWPatchU32 (s : State) : Host.Outcome State Fault Refusal := runWriter 0 (Writer.patchValue .w32) s

/-- `W.PATCH_U64 offset, value` (41_writer.md R142). -/
def execWPatchU64 (s : State) : Host.Outcome State Fault Refusal := runWriter 0 (Writer.patchValue .w64) s

/-- `W.CHECKSUM` (41_writer.md R143); allowed while closed (R120). -/
def execWChecksum (s : State) : Host.Outcome State Fault Refusal :=
  runWriter 0 (fun w => Writer.finish .ok ((crcVisible w.crc).setWidth 64) w) s

/-- `W.RESET_CHECKSUM` (41_writer.md R144; D32); allowed while closed (R120). -/
def execWResetChecksum (s : State) : Host.Outcome State Fault Refusal :=
  runWriter 0 (fun w => Writer.finish .ok 0 { w with crc := crcInit }) s

/-- `W.BYTES_WRITTEN` (41_writer.md R145); allowed while closed (R120). -/
def execWBytesWritten (s : State) : Host.Outcome State Fault Refusal :=
  runWriter 0 (fun w => Writer.finish .ok w.ofs w) s

end Sys2Proof.Machine
end

