-- ==== Sys2Proof/Machine/Dispatch.lean ====
section
/-! DEFINITION. One arm per command (30_encoding.md R91, R92): the meaning of each. -/

namespace Sys2Proof.Machine

/-- One command, run on the addressed instance of the state. -/
def exec (i : Instr) (s : State) : Host.Outcome State Fault Refusal :=
  match i with
  | .wBind compat => Sys2Proof.Machine.execWBind compat s
  | .wWrite len => Sys2Proof.Machine.execWWrite len s
  | .wWriteU8 => Sys2Proof.Machine.execWWriteU8 s
  | .wWriteI8 => Sys2Proof.Machine.execWWriteI8 s
  | .wWriteU16 => Sys2Proof.Machine.execWWriteU16 s
  | .wWriteI16 => Sys2Proof.Machine.execWWriteI16 s
  | .wWriteU32 => Sys2Proof.Machine.execWWriteU32 s
  | .wWriteI32 => Sys2Proof.Machine.execWWriteI32 s
  | .wWriteU64 => Sys2Proof.Machine.execWWriteU64 s
  | .wWriteI64 => Sys2Proof.Machine.execWWriteI64 s
  | .wFlush => Sys2Proof.Machine.execWFlush s
  | .wClose => Sys2Proof.Machine.execWClose s
  | .wReserve => Sys2Proof.Machine.execWReserve s
  | .wPatchBlock => Sys2Proof.Machine.execWPatchBlock s
  | .wPatchU8 => Sys2Proof.Machine.execWPatchU8 s
  | .wPatchU16 => Sys2Proof.Machine.execWPatchU16 s
  | .wPatchU32 => Sys2Proof.Machine.execWPatchU32 s
  | .wPatchU64 => Sys2Proof.Machine.execWPatchU64 s
  | .wChecksum => Sys2Proof.Machine.execWChecksum s
  | .wResetChecksum => Sys2Proof.Machine.execWResetChecksum s
  | .wBytesWritten => Sys2Proof.Machine.execWBytesWritten s
  | .rBind => Sys2Proof.Machine.execRBind s
  | .rRead len => Sys2Proof.Machine.execRRead len s
  | .rReadU8 => Sys2Proof.Machine.execRReadU8 s
  | .rReadI8 => Sys2Proof.Machine.execRReadI8 s
  | .rReadU16 => Sys2Proof.Machine.execRReadU16 s
  | .rReadI16 => Sys2Proof.Machine.execRReadI16 s
  | .rReadU32 => Sys2Proof.Machine.execRReadU32 s
  | .rReadI32 => Sys2Proof.Machine.execRReadI32 s
  | .rReadU64 => Sys2Proof.Machine.execRReadU64 s
  | .rReadI64 => Sys2Proof.Machine.execRReadI64 s
  | .rBuffered => Sys2Proof.Machine.execRBuffered s
  | .rAlign => Sys2Proof.Machine.execRAlign s
  | .rReadAligned => Sys2Proof.Machine.execRReadAligned s
  | .rSeekSet => Sys2Proof.Machine.execRSeekSet s
  | .rSeekCur => Sys2Proof.Machine.execRSeekCur s
  | .rSeekEnd => Sys2Proof.Machine.execRSeekEnd s

end Sys2Proof.Machine
end

