-- ==== Sys2Proof/WellFormed.lean ====
section
/-! DEFINITION. Which commands have a command word: the byte count must fit the field `LEN` (00_scope.md R11,
30_encoding.md R83). Every other operand's type admits only values that have an encoding. -/

namespace Sys2Proof

/-- A byte count fits `LEN`: 0 to 2^LEN_BITS - 1 = 65535 (00_scope.md R11). -/
def lenFits (n : Nat) : Bool := decide (n < 2 ^ Config.lenBits)

/-- The command has an encoding (30_encoding.md R80, R81, R83). -/
def Instr.wellFormed : Instr → Bool
  | .wWrite n => lenFits n
  | .rRead n => lenFits n
  | .wBind _ | .wWriteU8 | .wWriteI8 | .wWriteU16 | .wWriteI16 | .wWriteU32 | .wWriteI32 | .wWriteU64 | .wWriteI64
  | .wFlush | .wClose | .wReserve | .wPatchBlock | .wPatchU8 | .wPatchU16 | .wPatchU32 | .wPatchU64
  | .wChecksum | .wResetChecksum | .wBytesWritten
  | .rBind | .rReadU8 | .rReadI8 | .rReadU16 | .rReadI16 | .rReadU32 | .rReadI32 | .rReadU64 | .rReadI64
  | .rBuffered | .rAlign | .rReadAligned | .rSeekSet | .rSeekCur | .rSeekEnd => true

end Sys2Proof
end

