-- ==== Sys2Proof/Decode.lean ====
section
/-! DEFINITION. The decoder and the encoder of command words (30_encoding.md). A word selects the row whose match it
equals under the row's mask (R90); a word that selects no row is ILLEGAL and decodes to none. -/

namespace Sys2Proof

/-- The field `LEN`, bits 31 to 16, as a count (30_encoding.md R80, R83). -/
def lenField (w : Word32) : Nat := (w.extractLsb' 16 16).toNat

/-- The flag `C`, bit 13 (30_encoding.md R80, R86). -/
def compatField (w : Word32) : Bool := w.getLsbD 13

/-- The field `UNIT`, bits 7 and 6 (30_encoding.md R80, R89). -/
def unitField (w : Word32) : BitVec 2 := w.extractLsb' 6 2

/-- A row of the opcode map: the words `w` with `w & mask = pat` are the command `build w` (30_encoding.md R90). -/
structure OpRow where
  pat   : Word32
  mask  : Word32
  build : Word32 → Instr

/-- A row that fixes every bit of the word (30_encoding.md R81). -/
def fixedRow (pat : Word32) (i : Instr) : OpRow := ⟨pat, 0xFFFFFFFF#32, fun _ => i⟩

/-- The writer opcode map (30_encoding.md R91), in its order. -/
def writerRows : List OpRow :=
  [ ⟨0x00000000#32, 0xFFFFDFFF#32, fun w => .wBind (compatField w)⟩
  , ⟨0x00000001#32, 0x0000FFFF#32, fun w => .wWrite (lenField w)⟩
  , fixedRow 0x00000002#32 .wWriteU8
  , fixedRow 0x00000402#32 .wWriteI8
  , fixedRow 0x00000102#32 .wWriteU16
  , fixedRow 0x00000502#32 .wWriteI16
  , fixedRow 0x00000202#32 .wWriteU32
  , fixedRow 0x00000602#32 .wWriteI32
  , fixedRow 0x00000302#32 .wWriteU64
  , fixedRow 0x00000702#32 .wWriteI64
  , fixedRow 0x00000003#32 .wFlush
  , fixedRow 0x00000004#32 .wClose
  , fixedRow 0x00000005#32 .wReserve
  , fixedRow 0x00000006#32 .wPatchBlock
  , fixedRow 0x00000007#32 .wPatchU8
  , fixedRow 0x00000107#32 .wPatchU16
  , fixedRow 0x00000207#32 .wPatchU32
  , fixedRow 0x00000307#32 .wPatchU64
  , fixedRow 0x00000008#32 .wChecksum
  , fixedRow 0x00000009#32 .wResetChecksum
  , fixedRow 0x0000000A#32 .wBytesWritten ]

/-- The reader opcode map (30_encoding.md R92), in its order. -/
def readerRows : List OpRow :=
  [ fixedRow 0x00000040#32 .rBind
  , ⟨0x00000041#32, 0x0000FFFF#32, fun w => .rRead (lenField w)⟩
  , fixedRow 0x00000042#32 .rReadU8
  , fixedRow 0x00000442#32 .rReadI8
  , fixedRow 0x00000142#32 .rReadU16
  , fixedRow 0x00000542#32 .rReadI16
  , fixedRow 0x00000242#32 .rReadU32
  , fixedRow 0x00000642#32 .rReadI32
  , fixedRow 0x00000342#32 .rReadU64
  , fixedRow 0x00000742#32 .rReadI64
  , fixedRow 0x00000043#32 .rBuffered
  , fixedRow 0x00000044#32 .rAlign
  , fixedRow 0x00000045#32 .rReadAligned
  , fixedRow 0x00000046#32 .rSeekSet
  , fixedRow 0x00000846#32 .rSeekCur
  , fixedRow 0x00001046#32 .rSeekEnd ]

/-- The whole opcode map: the 37 rows of spec/opcode_table.json. -/
def opRows : List OpRow := writerRows ++ readerRows

/-- The word matches the row (30_encoding.md R90). -/
def OpRow.matchesWord (r : OpRow) (w : Word32) : Bool := w &&& r.mask == r.pat

/-- The command a word stands for, or none for an ILLEGAL word (30_encoding.md R90, R93). No state enters into it
(R97). -/
def decode (w : Word32) : Option Instr := (opRows.find? fun r => r.matchesWord w).map fun r => r.build w

/-- The engine a command goes to (30_encoding.md R89). -/
def Instr.engine : Instr → Engine
  | .wBind _ | .wWrite _ | .wWriteU8 | .wWriteI8 | .wWriteU16 | .wWriteI16 | .wWriteU32 | .wWriteI32 | .wWriteU64
  | .wWriteI64 | .wFlush | .wClose | .wReserve | .wPatchBlock | .wPatchU8 | .wPatchU16 | .wPatchU32 | .wPatchU64
  | .wChecksum | .wResetChecksum | .wBytesWritten => .writer
  | .rBind | .rRead _ | .rReadU8 | .rReadI8 | .rReadU16 | .rReadI16 | .rReadU32 | .rReadI32 | .rReadU64 | .rReadI64
  | .rBuffered | .rAlign | .rReadAligned | .rSeekSet | .rSeekCur | .rSeekEnd => .reader

/-- How many `DIN` bytes the command consumes (20_memory.md R58): `LEN` for `W.WRITE`, `BS` for `W.PATCH_BLOCK`,
none for every other command. -/
def Instr.dinBytes : Instr → Nat
  | .wWrite n => n
  | .wPatchBlock => Config.bs
  | .wBind _ | .wWriteU8 | .wWriteI8 | .wWriteU16 | .wWriteI16 | .wWriteU32 | .wWriteI32 | .wWriteU64
  | .wWriteI64 | .wFlush | .wClose | .wReserve | .wPatchU8 | .wPatchU16 | .wPatchU32 | .wPatchU64
  | .wChecksum | .wResetChecksum | .wBytesWritten
  | .rBind | .rRead _ | .rReadU8 | .rReadI8 | .rReadU16 | .rReadI16 | .rReadU32 | .rReadI32 | .rReadU64 | .rReadI64
  | .rBuffered | .rAlign | .rReadAligned | .rSeekSet | .rSeekCur | .rSeekEnd => 0

/-- A command word from its fields (30_encoding.md R80), most significant field first; `RSV` is 0 in every row. -/
def commandWord (len : BitVec 16) (c : Bool) (wh : BitVec 2) (s : Bool) (wc unit : BitVec 2) (op : BitVec 6) : Word32 :=
  (len ++ 0#2 ++ BitVec.ofBool c ++ wh ++ BitVec.ofBool s ++ wc ++ unit ++ op).setWidth 32

/-- A writer word whose only nonzero fields are `OP`, `WC` and `S` (30_encoding.md R91). -/
def writerWord (op : BitVec 6) (wc : BitVec 2) (s : Bool) : Word32 := commandWord 0#16 false 0#2 s wc 0#2 op

/-- A reader word whose only nonzero fields are `UNIT`, `OP`, `WC`, `S` and `WH` (30_encoding.md R92). -/
def readerWord (op : BitVec 6) (wc : BitVec 2) (s : Bool) (wh : BitVec 2) : Word32 :=
  commandWord 0#16 false wh s wc 1#2 op

/-- The command word of a command, built from the fields its row of 30_encoding.md R91 or R92 gives. -/
def encode : Instr → Word32
  | .wBind c => commandWord 0#16 c 0#2 false 0#2 0#2 0x00#6
  | .wWrite n => commandWord (BitVec.ofNat 16 n) false 0#2 false 0#2 0#2 0x01#6
  | .wWriteU8 => writerWord 0x02#6 0#2 false
  | .wWriteI8 => writerWord 0x02#6 0#2 true
  | .wWriteU16 => writerWord 0x02#6 1#2 false
  | .wWriteI16 => writerWord 0x02#6 1#2 true
  | .wWriteU32 => writerWord 0x02#6 2#2 false
  | .wWriteI32 => writerWord 0x02#6 2#2 true
  | .wWriteU64 => writerWord 0x02#6 3#2 false
  | .wWriteI64 => writerWord 0x02#6 3#2 true
  | .wFlush => writerWord 0x03#6 0#2 false
  | .wClose => writerWord 0x04#6 0#2 false
  | .wReserve => writerWord 0x05#6 0#2 false
  | .wPatchBlock => writerWord 0x06#6 0#2 false
  | .wPatchU8 => writerWord 0x07#6 0#2 false
  | .wPatchU16 => writerWord 0x07#6 1#2 false
  | .wPatchU32 => writerWord 0x07#6 2#2 false
  | .wPatchU64 => writerWord 0x07#6 3#2 false
  | .wChecksum => writerWord 0x08#6 0#2 false
  | .wResetChecksum => writerWord 0x09#6 0#2 false
  | .wBytesWritten => writerWord 0x0A#6 0#2 false
  | .rBind => readerWord 0x00#6 0#2 false 0#2
  | .rRead n => commandWord (BitVec.ofNat 16 n) false 0#2 false 0#2 1#2 0x01#6
  | .rReadU8 => readerWord 0x02#6 0#2 false 0#2
  | .rReadI8 => readerWord 0x02#6 0#2 true 0#2
  | .rReadU16 => readerWord 0x02#6 1#2 false 0#2
  | .rReadI16 => readerWord 0x02#6 1#2 true 0#2
  | .rReadU32 => readerWord 0x02#6 2#2 false 0#2
  | .rReadI32 => readerWord 0x02#6 2#2 true 0#2
  | .rReadU64 => readerWord 0x02#6 3#2 false 0#2
  | .rReadI64 => readerWord 0x02#6 3#2 true 0#2
  | .rBuffered => readerWord 0x03#6 0#2 false 0#2
  | .rAlign => readerWord 0x04#6 0#2 false 0#2
  | .rReadAligned => readerWord 0x05#6 0#2 false 0#2
  | .rSeekSet => readerWord 0x06#6 0#2 false 0#2
  | .rSeekCur => readerWord 0x06#6 0#2 false 1#2
  | .rSeekEnd => readerWord 0x06#6 0#2 false 2#2

/-- The instruction read from the low `nbits` bits of `w`, every higher bit of the 32-bit command word being 0. A
command word is one 32-bit value with no byte order of its own (30_encoding.md R82). -/
def decodeTableWord (nbits w : Nat) : Option Instr := decode (BitVec.ofNat 32 (w % 2 ^ nbits))

end Sys2Proof
end

