-- ==== Sys2Proof/Machine/HostPort.lean ====
section
/-! DEFINITION. The host's side of the machine: how the next pending action is taken, how a command word reaches its
engine, register reads and writes, hardware reset, and attaching a sink or a source (10_state.md section 4;
30_encoding.md R89; 70_reset_and_hazards.md R250, R252). Log entries 1, 17. -/

namespace Sys2Proof.Machine

open Sys2Proof.Config

/-- What taking the next host action comes to: a command for `exec`, or an outcome of its own. -/
inductive Fetched where
  | command (i : Instr) (s : State)
  | done (o : Host.Outcome State Fault Refusal)

/-- The machine with instance `k` changed; a host that addresses an instance that was not built faults (60_exceptions.md
R239). -/
def State.onInstance (s : State) (k : Nat) (f : Instance → Instance) : Host.Outcome State Fault Refusal :=
  match s.insts[k]? with
  | none => .fault .noSuchInstance
  | some n => .next { s with insts := s.insts.set k (f n) }

/-- The engine an ILLEGAL word is reported by: the one its `UNIT` selects (30_encoding.md R89); for the reserved units
the one whose `CMD` the host wrote (log entry 17). -/
def illegalEngine (written : Engine) (word : Word32) : Engine :=
  if unitField word = 0#2 then .writer
  else if unitField word = 1#2 then .reader
  else written

/-- An ILLEGAL word changes `STATUS.CODE` and `RESULT` only, and gives no `DOUT` (60_exceptions.md R227). -/
def Instance.reportIllegal (n : Instance) (e : Engine) : Instance :=
  match e with
  | .writer => { n with w := Writer.raise .illegal 0 n.w }
  | .reader => { n with r := Reader.raise .illegal 0 [] n.r }

/-- The instance once a command for engine `target` has been written to `CMD` of engine `written`: `CMD` holds the
word, and the target's `DIN` is the command's. -/
def Instance.latch (n : Instance) (written target : Engine) (word : Word32) (din : List Byte) : Instance :=
  Instance.onRegs (Instance.onRegs n written fun g => { g with cmd := word }) target fun g => { g with din := din }

/-- A command word written to `CMD` (10_state.md R35): decoded, and routed to the engine of its `UNIT` in the addressed
instance (30_encoding.md R89), or ILLEGAL (R93). -/
def takeCommand (k : Nat) (written : Engine) (word : Word32) (din : List Byte) (s : State) : Fetched :=
  match s.insts[k]? with
  | none => .done (.fault .noSuchInstance)
  | some n =>
    match decode word with
    | some i =>
      .command i { s with
        sel := k
        insts := s.insts.set k (Instance.latch n written (Instr.engine i) word din) }
    | none =>
      .done (.next { s with
        sel := k
        insts := s.insts.set k
          (Instance.reportIllegal (Instance.onRegs n written fun g => { g with cmd := word })
            (illegalEngine written word)) })

/-- Hardware reset of one instance (70_reset_and_hazards.md R250): the engines take their reset values, the sink and
the source are not touched. -/
def Instance.hardReset (n : Instance) : Instance :=
  { w := Writer.resetWith n.w.sink n.w.draw, r := Reader.resetWith n.r.source n.r.stream n.r.draw }

/-- A sink attached to a writer's port (70_reset_and_hazards.md R252), its bytes in canonical form. -/
def Instance.attachSink (n : Instance) (sink : Sink) : Instance :=
  { n with w := { n.w with sink := { sink with mem := Memory.ofCells sink.mem } } }

/-- A source attached to a reader's port (70_reset_and_hazards.md R252), its bytes in canonical form. -/
def Instance.attachSource (n : Instance) (source : Source) : Instance :=
  { n with r := { n.r with source := { source with mem := Memory.ofCells source.mem } } }

/-- The code in `STATUS.CODE` of an engine. -/
def Instance.lastCode (n : Instance) : Engine → Code
  | .writer => n.w.regs.code
  | .reader => n.r.regs.code

/-- One host action, already off the queue. A later piece of a long transfer is issued only if the last one finished OK
(30_encoding.md R94). Writing register 0 writes a command word, with no `DIN` (10_state.md R35). -/
def takeHostOp (op : HostOp) (s : State) : Fetched :=
  match op with
  | .command k e word din => takeCommand k e word din s
  | .resume k e word din =>
    match s.insts[k]? with
    | none => .done (.fault .noSuchInstance)
    | some n => if Instance.lastCode n e = Code.ok then takeCommand k e word din s else .done (.next s)
  | .write k e reg value =>
    if reg = 0#4 then takeCommand k e (value.setWidth 32) [] s
    else .done (State.onInstance s k fun n => Instance.onRegs n e fun g => HostRegs.write g reg value)
  | .read k e reg =>
    .done (match s.insts[k]? with
      | none => .fault .noSuchInstance
      | some n => .next { s with hostData := Instance.readReg n e reg })
  | .reset => .done (.next { s with insts := s.insts.map Instance.hardReset })
  | .attachSink k sink => .done (State.onInstance s k fun n => Instance.attachSink n sink)
  | .attachSource k source => .done (State.onInstance s k fun n => Instance.attachSource n source)

/-- The next host action is taken; with none pending the block keeps its state (60_exceptions.md R240). -/
def fetchHost (s : State) : Fetched :=
  match s.host with
  | [] => .done (.next s)
  | op :: rest => takeHostOp op { s with host := rest }

/-- A command placed as the host's next action, to the addressed instance, at `CMD` of the engine of its `UNIT`, with as
many zero bytes of `DIN` as it consumes. -/
def placeCommand (word : Word32) (s : State) : State :=
  { s with
    host := .command s.sel (illegalEngine .writer word) word
      (List.replicate (match decode word with | some i => Instr.dinBytes i | none => 0) 0) :: s.host }

end Sys2Proof.Machine
end

