-- ==== Sys2Proof/Machine/Step.lean ====
section
/-! DEFINITION. One step of the machine: the host's next pending action, a command being run by `exec` (00_scope.md R5;
20_memory.md R67; log entry 1). -/

namespace Sys2Proof.Machine

/-- One step: the next host action is taken, and a command runs to completion in it (10_state.md R35). -/
def step (s : State) : Host.Outcome State Fault Refusal :=
  match fetchHost s with
  | .done o => o
  | .command i s' => exec i s'

/-- `s` with the command word of the low `nbits` bits of `w` as the host's next action, so that the next step runs
exactly it (log entry 1). -/
def State.withFetchWord (s : State) (nbits w : Nat) : State := placeCommand (BitVec.ofNat 32 (w % 2 ^ nbits)) s

end Sys2Proof.Machine
end

