-- ==== Sys2Proof/Machine/Assemble.lean ====
section
/-! DEFINITION. Program lines as host actions (30_encoding.md R94 to R96): the operands a line sets, written before
`CMD` (R95), and the expansions of the pseudo-instructions (R94, R96). The text of a line (spelling, literals,
comments) is not modelled (log entry 21). -/

namespace Sys2Proof.Machine

open Sys2Proof.Config

/-- A program line (30_encoding.md R95, R96): a command with the operands its row of the table lists, or a
pseudo-instruction. -/
inductive Line where
  /-- `W.BIND key [, compat]`. -/
  | wBind (key : Word64) (compat : Bool)
  /-- `R.BIND key`. -/
  | rBind (key : Word64)
  /-- `W.WRITE [b0 b1 ...]`. -/
  | wWrite (bytes : List Byte)
  /-- `R.READ n`. -/
  | rRead (n : Nat)
  /-- `W.WRITE_xx value`, signed (`true`) or unsigned. -/
  | wWriteValue (k : Width) (signed : Bool) (value : Word64)
  /-- `W.PATCH_BLOCK offset, [b0 ... b7]`. -/
  | wPatchBlock (offset : Word64) (bytes : List Byte)
  /-- `W.PATCH_Uxx offset, value`. -/
  | wPatchValue (k : Width) (offset value : Word64)
  /-- `R.SEEK_xx offset`. -/
  | rSeek (wh : Origin) (offset : Word64)
  /-- A command without operands. -/
  | plain (i : Instr)
  /-- `W.WRITEL [bytes]` (R94). -/
  | wWriteL (bytes : List Byte)
  /-- `R.READL n` (R94). -/
  | rReadL (n : Nat)
  /-- `R.REWIND` (R96). -/
  | rRewind
  /-- `R.SKIP n` (R96). -/
  | rSkip (n : Word64)
  /-- `W.PATCH_I8/I16/I32/I64 off, v` (R96). -/
  | wPatchSigned (k : Width) (offset value : Word64)
  /-- `W.WRITE_BOOL b` (R96). -/
  | wWriteBool (b : Bool)
deriving DecidableEq, Repr

/-- The `W.WRITE_xx` of a width and a sign (30_encoding.md R91). -/
def writeValueInstr : Width → Bool → Instr
  | .w8, false => .wWriteU8
  | .w8, true => .wWriteI8
  | .w16, false => .wWriteU16
  | .w16, true => .wWriteI16
  | .w32, false => .wWriteU32
  | .w32, true => .wWriteI32
  | .w64, false => .wWriteU64
  | .w64, true => .wWriteI64

/-- The `R.READ_xx` of a width and a sign (30_encoding.md R92). -/
def readValueInstr : Width → Bool → Instr
  | .w8, false => .rReadU8
  | .w8, true => .rReadI8
  | .w16, false => .rReadU16
  | .w16, true => .rReadI16
  | .w32, false => .rReadU32
  | .w32, true => .rReadI32
  | .w64, false => .rReadU64
  | .w64, true => .rReadI64

/-- The `W.PATCH_Uxx` of a width (30_encoding.md R91). -/
def patchValueInstr : Width → Instr
  | .w8 => .wPatchU8
  | .w16 => .wPatchU16
  | .w32 => .wPatchU32
  | .w64 => .wPatchU64

/-- The `R.SEEK_xx` of an origin (30_encoding.md R85, R92). -/
def seekInstr : Origin → Instr
  | .start => .rSeekSet
  | .current => .rSeekCur
  | .fromEnd => .rSeekEnd

/-- The most bytes one command moves: 2^LEN_BITS - 1 = 65535 (00_scope.md R11). -/
def maxLen : Nat := 2 ^ lenBits - 1

/-- `W.WRITEL` (30_encoding.md R94): pieces of 65535 bytes in order, then one with the rest, omitted when there is
none. The count bounds the pieces: no list has more of them than bytes. -/
def writePieces : Nat → List Byte → List Line
  | 0, _ => []
  | _ + 1, [] => []
  | pieces + 1, b :: rest => .wWrite ((b :: rest).take maxLen) :: writePieces pieces ((b :: rest).drop maxLen)

/-- `R.READL` (30_encoding.md R94): pieces of 65535 bytes, then one with the rest, omitted when there is none. -/
def readPieces (n : Nat) : List Line :=
  List.replicate (n / maxLen) (.rRead maxLen) ++ (if n % maxLen = 0 then [] else [.rRead (n % maxLen)])

/-- The expansion of a pseudo-instruction (30_encoding.md R94, R96); any other line stands for itself. -/
def Line.expand : Line → List Line
  | .wWriteL bytes => writePieces bytes.length bytes
  | .rReadL n => readPieces n
  | .rRewind => [.rSeek .start 0]
  | .rSkip n => [.rSeek .current n]
  | .wPatchSigned k offset value => [.wPatchValue k offset value]
  | .wWriteBool b => [.wWriteValue .w8 false (if b then 1 else 0)]
  | line => [line]

/-- The command of a line that is no pseudo-instruction, and none of a pseudo-instruction. -/
def Line.instr? : Line → Option Instr
  | .wBind _ compat => some (.wBind compat)
  | .rBind _ => some .rBind
  | .wWrite bytes => some (.wWrite bytes.length)
  | .rRead n => some (.rRead n)
  | .wWriteValue k signed _ => some (writeValueInstr k signed)
  | .wPatchBlock _ _ => some .wPatchBlock
  | .wPatchValue k _ _ => some (patchValueInstr k)
  | .rSeek wh _ => some (seekInstr wh)
  | .plain i => some i
  | .wWriteL _ | .rReadL _ | .rRewind | .rSkip _ | .wPatchSigned _ _ _ | .wWriteBool _ => none

/-- What a line sets of `ARG0` (30_encoding.md R95). -/
def Line.arg0? : Line → Option Word64
  | .wBind key _ | .rBind key => some key
  | .wWriteValue _ _ value => some value
  | .wPatchBlock offset _ | .wPatchValue _ offset _ | .rSeek _ offset => some offset
  | _ => none

/-- What a line sets of `ARG1` (30_encoding.md R95). -/
def Line.arg1? : Line → Option Word64
  | .wPatchValue _ _ value => some value
  | _ => none

/-- The `DIN` of a line (30_encoding.md R95). -/
def Line.din : Line → List Byte
  | .wWrite bytes | .wPatchBlock _ bytes => bytes
  | _ => []

/-- The host actions of one line, for instance `k`: `ARG0`, `ARG1`, then `CMD` with `DIN` (30_encoding.md R95). A
`W.WRITE` or `R.READ` line of more than 65535 bytes has no encoding, and the spec does not say what it assembles to: its
`LEN` is the count modulo 65536 (DESIGN CHOICE; log entry 29). -/
def Line.actions (k : Nat) (line : Line) : List HostOp :=
  match Line.instr? line with
  | none => []
  | some i =>
    (match Line.arg0? line with | some v => [.write k (Instr.engine i) 2#4 v] | none => [])
      ++ (match Line.arg1? line with | some v => [.write k (Instr.engine i) 3#4 v] | none => [])
      ++ [.command k (Instr.engine i) (encode i) (Line.din line)]

/-- The same action as one of a later piece of a long transfer, which is issued only if the piece before it finished OK
(30_encoding.md R94). -/
def HostOp.later : HostOp → HostOp
  | .command k e word din => .resume k e word din
  | op => op

/-- The host actions of the lines that one line expands to: the first as it stands, the later ones only while the pieces
before them finish OK (30_encoding.md R94). -/
def piecesActions (k : Nat) : List Line → List HostOp
  | [] => []
  | first :: rest => Line.actions k first ++ (rest.flatMap (Line.actions k)).map HostOp.later

/-- The host actions of a program: each line expanded, in order (30_encoding.md R94 to R96). -/
def assemble (k : Nat) (program : List Line) : List HostOp :=
  program.flatMap fun line => piecesActions k (Line.expand line)

end Sys2Proof.Machine
end

