-- ==== Sys2Proof/Machine/SeekFsm.lean ====
section
/-! DEFINITION. The seek-driven re-alignment FSM (42_reader.md R192), micro-state by micro-state. `R.SEEK_xx` runs it as
one atomic command whose only visible state is the finishing one, so the machine's meaning is the procedure of R187
(`Reader.seekTo`); this file gives the table of R192, for the statement that the two agree. -/

namespace Sys2Proof.Machine

open Sys2Proof.Config

/-- The micro-states (42_reader.md R192), and the state after the finish. -/
inductive SeekState where
  | skCap
  | skComp
  | skSeek
  | skInval
  | skBack
  | skFetch
  | skCursor
  | skDone
  | finished
deriving DecidableEq, Repr

/-- A seek in progress: the micro-state, the reader, and the procedure's variables `off`, `wh`, `abs` and `rem`. -/
structure SeekRun where
  st     : SeekState
  reader : Reader
  off    : Int
  wh     : Origin
  abs    : Nat
  rem    : Nat
deriving DecidableEq, Repr

/-- The seek before its first micro-state. -/
def SeekRun.start (wh : Origin) (r : Reader) : SeekRun :=
  { st := .skCap, reader := r, off := offsetOperand r.regs.arg0, wh := wh, abs := 0, rem := 0 }

/-- The command finishes. -/
def SeekRun.finish (x : SeekRun) (r : Reader) : SeekRun := { x with st := .finished, reader := r }

/-- One row of the table: the micro-state's action, then its exit (42_reader.md R192). -/
def SeekRun.micro (x : SeekRun) : SeekRun :=
  match x.st with
  | .skCap =>
    if x.reader.seek then { x with st := .skComp }
    else SeekRun.finish x (Reader.raise .unsupported 0 [] x.reader)
  | .skComp =>
    if x.wh = Origin.current then
      if x.off - Reader.buffered x.reader < minOffset then
        SeekRun.finish x (Reader.raise .undefined 0 [] x.reader)
      else { x with st := .skSeek, off := x.off - Reader.buffered x.reader }
    else { x with st := .skSeek }
  | .skSeek =>
    match Reader.srcSeek x.reader x.off x.wh with
    | (none, r) => SeekRun.finish x (Reader.raise .ioError 0 [] r)
    | (some target, r) => { x with st := .skInval, reader := r, abs := target }
  | .skInval =>
    { x with
      st := if x.abs % bs = 0 then .skDone else .skBack
      reader := { x.reader with cur := -1 }
      rem := x.abs % bs }
  | .skBack =>
    match Reader.srcSeek x.reader ((x.abs : Int) - x.rem) .start with
    | (none, r) => SeekRun.finish x (Reader.raise .ioError 0 [] r)
    | (some _, r) => { x with st := .skFetch, reader := r }
  | .skFetch =>
    match Reader.fetch x.reader with
    | .stop code r => SeekRun.finish x (Reader.raise code 0 [] (Reader.atBoundary (x.abs - x.rem) code r))
    | .go r => { x with st := .skCursor, reader := r }
  | .skCursor => { x with st := .skDone, reader := { x.reader with cur := x.rem } }
  | .skDone => SeekRun.finish x (Reader.finish .ok (seekResult x.abs) [] x.reader)
  | .finished => x

/-- `n` micro-steps. -/
def SeekRun.run : Nat → SeekRun → SeekRun
  | 0, x => x
  | n + 1, x => SeekRun.run n (SeekRun.micro x)

end Sys2Proof.Machine
end

