-- ==== Sys2Proof/Safety.lean ====
section
/-! DEFINITION. The terms the statements use: which engines may run a command, the invariants of the engines
(10_state.md R27, R32, R34), what a run without faults is, and the block-level reading of byte strings (41_writer.md
R148; 42_reader.md R193, R195). -/

namespace Sys2Proof.Machine

open Sys2Proof.Config

/-- The writer passes admission (60_exceptions.md R229) with the number of `DIN` bytes the command consumes
(20_memory.md R58). -/
def Writer.ready (w : Writer) (need : Nat) : Prop := w.bound = true ∧ w.fault = false ∧ w.regs.din.length = need

/-- The reader passes admission (60_exceptions.md R229) with no `DIN`. -/
def Reader.ready (r : Reader) : Prop := r.bound = true ∧ r.fault = false ∧ r.regs.din = []

/-- The next `m` calls of a port are obeyed; a call past the end of the plan is (20_memory.md R72, R73). -/
def obeysNext (plan : List PortAnswer) (m : Nat) : Prop := ∀ a ∈ plan.take m, a = PortAnswer.obey

/-- The writer's invariants between commands (10_state.md R27, R31, R32; 41_writer.md R120): bound and not faulted, the
fill cursor, the offset, the bytes passed to the sink and the reserved offsets agree. An unbound writer has no fault. -/
def Writer.inv (w : Writer) : Prop :=
  Memory.wf w.sink.mem = true ∧
  (w.bound = false → w.fault = false) ∧
  (w.bound = true → w.fault = false →
    w.fill < bs ∧
    w.ofs.toNat ≤ maxOfs ∧
    w.ofs.toNat % bs = w.fill ∧
    w.ofs.toNat = w.sinkLen + w.fill ∧
    (∀ o ∈ w.resv, o % bs = 0 ∧ o < w.sinkLen) ∧
    (w.closed = true → w.fill = 0))

/-- The reader's invariants between commands (10_state.md R34): the cursor's range. An unbound reader has no fault. -/
def Reader.inv (r : Reader) : Prop :=
  Memory.wf r.source.mem = true ∧
  (r.bound = false → r.fault = false) ∧
  -1 ≤ r.cur ∧ r.cur ≤ bs

/-- Every engine of every instance keeps its invariants. -/
def State.inv (s : State) : Prop := ∀ n ∈ s.insts, Writer.inv n.w ∧ Reader.inv n.r

/-- A bound engine holds a key its cipher accepted (41_writer.md R122; 42_reader.md R173). -/
def State.keysValid (s : State) : Prop :=
  ∀ n ∈ s.insts, (n.w.bound = true → keyValid n.w.key = true) ∧ (n.r.bound = true → keyValid n.r.key = true)

/-- No engine has faulted: what a run without errors keeps (60_exceptions.md R230). -/
def State.noFault (s : State) : Prop := ∀ n ∈ s.insts, n.w.fault = false ∧ n.r.fault = false

/-- The run has ended: the host has no action left (70_reset_and_hazards.md R266). -/
def State.ended (s : State) : Bool := s.host.isEmpty

/-! ### Commands of one shape -/

/-- The binds, which every state admits (60_exceptions.md R229 step 2). -/
def isBind : Instr → Bool
  | .wBind _ | .rBind => true
  | _ => false

/-- The eight `W.WRITE_xx`, each with its width in bytes (41_writer.md R125 to R132). -/
def valueWrites : List (Instr × Width) :=
  [ (.wWriteU8, .w8), (.wWriteI8, .w8), (.wWriteU16, .w16), (.wWriteI16, .w16)
  , (.wWriteU32, .w32), (.wWriteI32, .w32), (.wWriteU64, .w64), (.wWriteI64, .w64) ]

/-- The four `W.PATCH_Uxx`, each with its width (41_writer.md R139 to R142). -/
def valuePatches : List (Instr × Width) :=
  [(.wPatchU8, .w8), (.wPatchU16, .w16), (.wPatchU32, .w32), (.wPatchU64, .w64)]

/-- The unsigned `R.READ_xx`, each with its width (42_reader.md R176, R178, R180, R182). -/
def unsignedReads : List (Instr × Width) :=
  [(.rReadU8, .w8), (.rReadU16, .w16), (.rReadU32, .w32), (.rReadU64, .w64)]

/-- The signed `R.READ_xx`, each with its width (42_reader.md R177, R179, R181, R183). -/
def signedReads : List (Instr × Width) :=
  [(.rReadI8, .w8), (.rReadI16, .w16), (.rReadI32, .w32), (.rReadI64, .w64)]

/-- The three `R.SEEK_xx`, each with its origin (42_reader.md R188 to R190). -/
def seeks : List (Instr × Origin) := [(.rSeekSet, .start), (.rSeekCur, .current), (.rSeekEnd, .fromEnd)]

/-- The patches (41_writer.md section 5). -/
def isPatch : Instr → Bool
  | .wPatchBlock | .wPatchU8 | .wPatchU16 | .wPatchU32 | .wPatchU64 => true
  | _ => false

/-- The stream writes (41_writer.md R120). -/
def isStreamWrite : Instr → Bool
  | .wWrite _ | .wWriteU8 | .wWriteI8 | .wWriteU16 | .wWriteI16 | .wWriteU32 | .wWriteI32 | .wWriteU64 | .wWriteI64
  | .wReserve | .wPatchBlock | .wPatchU8 | .wPatchU16 | .wPatchU32 | .wPatchU64 => true
  | _ => false

/-- The reader command delivers at least one byte when it finishes OK (42_reader.md R174, R175, R186). -/
def transfers : Instr → Bool
  | .rRead n => n ≠ 0
  | .rReadU8 | .rReadI8 | .rReadU16 | .rReadI16 | .rReadU32 | .rReadI32 | .rReadU64 | .rReadI64 | .rReadAligned => true
  | _ => false

/-! ### Terms of the statements -/

/-- The machine with `DIN` of the addressed writer given (20_memory.md R58). -/
def State.withDin (s : State) (din : List Byte) : State :=
  match State.cur? s with
  | none => s
  | some n => State.setW s n { n.w with regs := { n.w.regs with din := din } }

/-- The ciphertext of the first `m` blocks of a plaintext, in order (41_writer.md R148). -/
def encBlocks (key : Word64) : Nat → List Byte → List Byte
  | 0, _ => []
  | m + 1, p => blockBytes (enc key (blockOfBytes (p.take bs))) ++ encBlocks key m (p.drop bs)

/-- The plaintext of the first `m` blocks of a ciphertext, in order (42_reader.md R171). -/
def decBlocks (key : Word64) : Nat → List Byte → List Byte
  | 0, _ => []
  | m + 1, c => blockBytes (dec key (blockOfBytes (c.take bs))) ++ decBlocks key m (c.drop bs)

/-- The pending plaintext `W.BUF[0..W.FILL)` (10_state.md R25). -/
def Writer.pending (w : Writer) : List Byte := blockSlice w.buf 0 w.fill

/-- The writer once it has taken the bytes `s` and emitted every block they fill, over a sink that obeys (41_writer.md
R123): the pending bytes and `s` form a byte string of which each whole block was emitted and the rest is pending;
behind the pending bytes `W.BUF` keeps what it last held (10_state.md R25). -/
def Writer.advance (w : Writer) (s : List Byte) : Writer :=
  let p := Writer.pending w ++ s
  let m := p.length / bs
  let last := if m = 0 then blockBytes w.buf else (p.drop (bs * (m - 1))).take bs
  { w with
    buf := blockOfBytes (p.drop (bs * m) ++ last.drop (p.length % bs))
    fill := p.length % bs
    ofs := w.ofs + BitVec.ofNat 64 s.length
    crc := crcLegacy crcPoly w.crc (p.take (bs * m))
    sinkLen := w.sinkLen + bs * m
    sink := { w.sink with
      mem := Memory.write w.sink.mem w.sink.pos (encBlocks w.key m p)
      pos := w.sink.pos + bs * m
      plan := w.sink.plan.drop m } }

/-- The writer once it has emitted the block `b` over a sink that obeys (41_writer.md R121), its fill cursor at 0. -/
def Writer.emitted (w : Writer) (b : Block) : Writer :=
  { w with
    buf := b
    fill := 0
    crc := crcLegacy crcPoly w.crc (blockBytes b)
    sinkLen := w.sinkLen + bs
    sink := { w.sink with
      mem := Memory.write w.sink.mem w.sink.pos (blockBytes (enc w.key b))
      pos := w.sink.pos + bs
      plan := w.sink.plan.drop 1 } }

/-- The block a flush emits: the pending bytes and, in the unused tail, zeros, or with `W.COMPAT = 1` the bytes that
`W.BUF` last held (41_writer.md R133). -/
def Writer.padded (w : Writer) : Block :=
  blockOfBytes (Writer.pending w ++ if w.compat then (blockBytes w.buf).drop w.fill else List.replicate (bs - w.fill) 0)

/-- The bytes left in the reader's loaded block (42_reader.md R172). -/
def Reader.unread (r : Reader) : List Byte := if 0 ≤ r.cur then blockSlice r.buf r.cur.toNat bs else []

/-- How many blocks the reader fetches to deliver `n` bytes (42_reader.md R174): it fetches only while bytes are owed and
none is loaded. -/
def Reader.blocksFor (r : Reader) (n : Nat) : Nat := (n - (Reader.unread r).length + (bs - 1)) / bs

/-- The next `m` blocks of the source, as far as it holds them (20_memory.md R55). -/
def Source.nextBlocks (c : Source) (m : Nat) : List Byte := Memory.readUpTo c.mem c.pos (bs * m)

/-- The plaintext the reader has before it once it has fetched `m` blocks. -/
def Reader.plaintext (r : Reader) (m : Nat) : List Byte :=
  Reader.unread r ++ decBlocks r.key m (Source.nextBlocks r.source m)

/-- The reader once it has delivered `n` bytes, over a source that obeys and holds the blocks (42_reader.md R174): the
cursor stands behind the last byte delivered, in the last block fetched. -/
def Reader.advance (r : Reader) (n : Nat) : Reader :=
  let m := Reader.blocksFor r n
  { r with
    buf := if m = 0 then r.buf
      else dec r.key (blockOfBytes ((Source.nextBlocks r.source m).drop (bs * (m - 1))))
    cur := if m = 0 then r.cur + n else bs - (((Reader.plaintext r m).length : Int) - n)
    source := { r.source with pos := r.source.pos + bs * m, plan := r.source.plan.drop m } }

/-- The reader once it has fetched one block over a source that obeys (42_reader.md R171). -/
def Reader.loaded (r : Reader) : Reader :=
  { r with
    buf := dec r.key (blockOfBytes (Source.nextBlocks r.source 1))
    cur := 0
    source := { r.source with pos := r.source.pos + bs, plan := r.source.plan.drop 1 } }

/-- The blocks a flush emits: one if bytes are pending, else none (41_writer.md R133). -/
def Writer.flushBlocks (w : Writer) : Nat := if w.fill = 0 then 0 else 1

/-- The bytes a flush adds to `W.OFS`, up to the next block boundary (41_writer.md R133). -/
def Writer.pad (w : Writer) : Nat := if w.fill = 0 then 0 else bs - w.fill

/-- The writer once it has flushed, over a sink that obeys (41_writer.md R133). -/
def Writer.flushed (w : Writer) : Writer :=
  if w.fill = 0 then w
  else { Writer.emitted w (Writer.padded w) with ofs := w.ofs + BitVec.ofNat 64 (Writer.pad w) }

/-- How many bytes a writer command that finishes OK appends to the sink (20_memory.md R64, R65): the blocks it fills,
the block it flushes, the placeholder it reserves. -/
def Writer.appends (w : Writer) : Instr → Nat
  | .wWrite n => bs * ((w.fill + n) / bs)
  | .wWriteU8 | .wWriteI8 => bs * ((w.fill + 1) / bs)
  | .wWriteU16 | .wWriteI16 => bs * ((w.fill + 2) / bs)
  | .wWriteU32 | .wWriteI32 => bs * ((w.fill + 4) / bs)
  | .wWriteU64 | .wWriteI64 => bs * ((w.fill + 8) / bs)
  | .wFlush | .wClose => bs * Writer.flushBlocks w
  | .wReserve => bs * Writer.flushBlocks w + bs
  | _ => 0

/-- The target of a seek before the source is asked: the base and the offset, the origin `current` being the reader's
logical position (42_reader.md R187). -/
def Reader.seekTarget (r : Reader) : Origin → Int
  | .start => offsetOperand r.regs.arg0
  | .current => (r.source.pos : Int) - Reader.buffered r + offsetOperand r.regs.arg0
  | .fromEnd => (Memory.length r.source.mem : Int) + offsetOperand r.regs.arg0

/-- The compensated offset of `R.SEEK_CUR` falls below the least `Int64` (60_exceptions.md R224 case 4). -/
def Reader.seekUnderflows (r : Reader) (wh : Origin) : Prop :=
  wh = .current ∧ offsetOperand r.regs.arg0 - Reader.buffered r < minOffset

/-- The source at `pos`, after `calls` more of its answers were used. -/
def Source.moved (c : Source) (pos calls : Nat) : Source := { c with pos := pos, plan := c.plan.drop calls }

/-- The payload of a patch (41_writer.md R137, R138): the `DIN` of `W.PATCH_BLOCK`, the zero-padded little-endian bytes
of `ARG1` for the value patches. -/
def Writer.patchBytes (w : Writer) (i : Instr) : List Byte :=
  match valuePatches.find? fun p => p.1 = i with
  | some p => leBytes (Width.bytes p.2) w.regs.arg1 ++ List.replicate (bs - Width.bytes p.2) 0
  | none => w.regs.din

/-- The writer once it has overwritten the block at `off`, over a sink that obeys (41_writer.md R137). -/
def Writer.patched (w : Writer) (off : Nat) (payload : List Byte) : Writer :=
  { w with sink := { w.sink with
      mem := Memory.writeAt w.sink.mem off (blockBytes (enc w.key (blockOfBytes payload)))
      plan := w.sink.plan.drop 1 } }

/-- `w'` is the writer `w` after a command that finished with the faulting code `c` (60_exceptions.md R230, R231): the
registers say so, the fault bit is set, and nothing else is fixed but what no fault touches. The data path, which R231
leaves unspecified, the sink and the draw key are not spoken of. -/
def Writer.faultsWith (w : Writer) (c : Code) (v : Word64) (w' : Writer) : Prop :=
  w'.regs = { w.regs with code := c, result := v, dout := [] } ∧ w'.fault = true ∧ w'.bound = w.bound ∧
  w'.key = w.key ∧ w'.ra = w.ra ∧ w'.compat = w.compat ∧ w'.closed = w.closed ∧ w'.sink.ra = w.sink.ra

/-- `r'` is the reader `r` after a command that finished with the faulting code `c`. The data path, which R231 leaves
unspecified, the source's position and the draw key are not spoken of. -/
def Reader.faultsWith (r : Reader) (c : Code) (v : Word64) (dout : List Byte) (r' : Reader) : Prop :=
  r'.regs = { r.regs with code := c, result := v, dout := dout } ∧ r'.fault = true ∧ r'.bound = r.bound ∧
  r'.key = r.key ∧ r'.seek = r.seek ∧ r'.source.mem = r.source.mem ∧ r'.source.seek = r.source.seek ∧
  r'.source.reference = r.source.reference ∧ r'.stream = r.stream ++ dout

/-- `r'` is the reader `r` after a command that found the end of the data (60_exceptions.md R223): no fault, no block
loaded. -/
def Reader.endsData (r : Reader) (v : Word64) (dout : List Byte) (r' : Reader) : Prop :=
  r'.regs = { r.regs with code := .endOfData, result := v, dout := dout } ∧ r'.fault = false ∧ r'.cur = -1 ∧
  r'.bound = r.bound ∧ r'.key = r.key ∧ r'.seek = r.seek ∧ r'.source.mem = r.source.mem ∧
  r'.source.seek = r.source.seek ∧ r'.source.reference = r.source.reference ∧ r'.stream = r.stream ++ dout

/-- The source of `r'` stands `got` bytes behind that of `r` (20_memory.md R55: `q + got`). The reference source is left
out where that lies past its end: R73 says otherwise of it (log entry 16). -/
def Reader.sourceMoves (r : Reader) (got : Nat) (r' : Reader) : Prop :=
  r.source.reference = false ∨ r.source.pos + got ≤ Memory.length r.source.mem →
    r'.source.pos = r.source.pos + got

/-- The code and the state a fetch that got `got` bytes, less than a block, leaves (60_exceptions.md R223): END_OF_DATA
for none, SHORT_READ for some. -/
def Reader.runsDry (r : Reader) (got : Nat) (v : Word64) (dout : List Byte) (r' : Reader) : Prop :=
  (got = 0 → Reader.endsData r v dout r') ∧ (0 < got → Reader.faultsWith r .shortRead v dout r')

/-- The registers of an engine after hardware reset (10_state.md R41). -/
def HostRegs.atReset (g : HostRegs) : Prop := g.cmd = 0 ∧ g.arg0 = 0 ∧ g.arg1 = 0 ∧ g.result = 0 ∧ g.code = .ok

/-- Every element the table of 10_state.md R41 gives a reset value has it; the two keys, which it leaves unspecified,
are not spoken of. -/
def Instance.atReset (n : Instance) : Prop :=
  HostRegs.atReset n.w.regs ∧ HostRegs.atReset n.r.regs ∧
  n.w.bound = false ∧ n.w.ra = false ∧ n.w.compat = false ∧ n.w.closed = false ∧ n.w.fault = false ∧
  n.w.buf = Vector.replicate bs 0 ∧ n.w.fill = 0 ∧ n.w.ofs = 0 ∧ n.w.crc = 0xFFFFFFFF#32 ∧ n.w.resv = [] ∧
  n.r.bound = false ∧ n.r.seek = false ∧ n.r.fault = false ∧ n.r.buf = Vector.replicate bs 0 ∧ n.r.cur = -1

/-- The reader's logical position `lp = q - buffered()` (42_reader.md R193). -/
def Reader.position (r : Reader) : Int := (r.source.pos : Int) - Reader.buffered r

end Sys2Proof.Machine
end

