-- ==== Sys2Proof/Certificates/Slice0/Obligations.lean ====
section
/-! DEFINITION. The statements for the provers. Every statement about a command is a statement about `exec` in every
state; where a premise restricts the state, its docstring says why. -/

open Sys2Proof Sys2Proof.Machine Sys2Proof.Config

/-! ### Encoding (30_encoding.md) -/

/-- The encoding of every well-formed command decodes to that command (30_encoding.md sections 1 and 3). -/
def Obligations.DecodeOfEncodeIsTheCommand : Prop :=
  ∀ i : Instr, Instr.wellFormed i = true → decode (encode i) = some i

/-- Every word that decodes is the one encoding of the command it decodes to, and that command is well-formed
(30_encoding.md section 3). -/
def Obligations.DecodedWordIsTheEncoding : Prop :=
  ∀ (w : Word32) (i : Instr), decode w = some i → encode i = w ∧ Instr.wellFormed i = true

/-- No word matches two rows of the opcode map (30_encoding.md R90, an inference of the spec). -/
def Obligations.NoWordMatchesTwoRows : Prop :=
  ∀ w : Word32, (opRows.filter fun r => OpRow.matchesWord r w).length ≤ 1

/-- `LEN` is the upper half of the word, 0 to 65535, and `C` is bit 13 (30_encoding.md R80, R83, R86). -/
def Obligations.FreeFieldsAreRead : Prop :=
  (∀ n : Nat, n < 65536 →
    decode (BitVec.ofNat 32 (65536 * n + 0x01)) = some (.wWrite n) ∧
    decode (BitVec.ofNat 32 (65536 * n + 0x41)) = some (.rRead n)) ∧
  decode 0x00000000#32 = some (.wBind false) ∧ decode 0x00002000#32 = some (.wBind true)

/-- A word with a reserved unit or a nonzero `RSV` is ILLEGAL (30_encoding.md R81, R89). -/
def Obligations.ReservedFieldsAreIllegal : Prop :=
  ∀ w : Word32, w.getLsbD 7 = true ∨ w.getLsbD 14 = true ∨ w.getLsbD 15 = true → decode w = none

/-- Words of the spec's table of examples decode as it says (95_test_vectors.md section 2.2). -/
def Obligations.SampleWordsDecode : Prop :=
  ∀ p ∈ ([ (0x00000000#32, some (.wBind false)), (0x00002000#32, some (.wBind true))
         , (0x00000001#32, some (.wWrite 0)), (0x00030001#32, some (.wWrite 3)), (0xFFFF0001#32, some (.wWrite 65535))
         , (0x00000402#32, some .wWriteI8), (0x00000302#32, some .wWriteU64), (0x00000307#32, some .wPatchU64)
         , (0x00000407#32, none), (0x00000203#32, none), (0x00010003#32, none), (0x00004001#32, none)
         , (0x00002001#32, none), (0x00010000#32, none), (0x0000000B#32, none)
         , (0x00000040#32, some .rBind), (0x00002040#32, none), (0xFFFF0041#32, some (.rRead 65535))
         , (0x00000842#32, none), (0x00000245#32, none), (0x00008045#32, none)
         , (0x00000846#32, some .rSeekCur), (0x00001046#32, some .rSeekEnd), (0x00001846#32, none)
         , (0x00000047#32, none), (0x00000080#32, none), (0x000000C1#32, none) ] : List (Word32 × Option Instr)),
    decode p.1 = p.2

/-! ### Steps and the host (10_state.md section 4; 70_reset_and_hazards.md) -/

/-- A step at which the host writes a command word that decodes runs that command, with the word in `CMD` of the engine
it was written to and the command's `DIN` at the engine its `UNIT` selects. The host's queue is the model's choice (log
entry 1). -/
def Obligations.StepRunsTheDecodedCommand : Prop :=
  ∀ (s : State) (k : Nat) (n : Instance) (e : Engine) (word : Word32) (din : List Byte) (rest : List HostOp) (i : Instr),
    s.host = .command k e word din :: rest → s.insts[k]? = some n → decode word = some i →
    step s = exec i { s with
      host := rest
      sel := k
      insts := s.insts.set k (Instance.latch n e (Instr.engine i) word din) }

/-- A host write of register 0 starts the command of the value's low 32 bits, with no `DIN` (10_state.md R35). That a
register write brings no `DIN` is the model's choice (log entry 1). -/
def Obligations.RegisterZeroWriteStartsTheCommand : Prop :=
  ∀ (s : State) (k : Nat) (n : Instance) (e : Engine) (value : Word64) (rest : List HostOp) (i : Instr),
    s.host = .write k e 0#4 value :: rest → s.insts[k]? = some n → decode (value.setWidth 32) = some i →
    step s = exec i { s with
      host := rest
      sel := k
      insts := s.insts.set k (Instance.latch n e (Instr.engine i) (value.setWidth 32) []) }

/-- The placed command is the one the next step runs, at the addressed instance, with as many `DIN` bytes, all zero, as
it consumes. It is the model's interface (log entry 1). -/
def Obligations.PlacedWordIsTheNextCommand : Prop :=
  ∀ (s : State) (n : Instance) (nbits w : Nat) (i : Instr),
    State.cur? s = some n → decode (BitVec.ofNat 32 (w % 2 ^ nbits)) = some i →
    step (State.withFetchWord s nbits w) = exec i { s with
      insts := s.insts.set s.sel (Instance.latch n (Instr.engine i) (Instr.engine i) (BitVec.ofNat 32 (w % 2 ^ nbits))
        (List.replicate (Instr.dinBytes i) 0)) }

/-- A word that matches no row changes no state but `STATUS.CODE` and `RESULT` of one engine, whatever the engine's
state (60_exceptions.md R227): the engine its `UNIT` selects where that is 0 or 1 (30_encoding.md R89). It comes with or
without `DIN`. The model's choices: the host's queue (log entry 1), that `CMD` of the engine the host wrote holds the
word, which nothing reads (log entry 23); which engine a reserved unit reaches is left open (log entry 17). -/
def Obligations.IllegalWordChangesOnlyCodeAndResult : Prop :=
  ∀ (s : State) (k : Nat) (n : Instance) (e : Engine) (word : Word32) (op : HostOp) (rest : List HostOp),
    (∃ din, op = .command k e word din) ∨ (∃ value : Word64, op = .write k e 0#4 value ∧ word = value.setWidth 32) →
    s.host = op :: rest → s.insts[k]? = some n → decode word = none →
    ∃ e' : Engine, (unitField word = 0#2 → e' = .writer) ∧ (unitField word = 1#2 → e' = .reader) ∧
      step s = .next { s with
        host := rest
        sel := k
        insts := s.insts.set k
          (Instance.onRegs (Instance.onRegs n e fun g => { g with cmd := word }) e'
            fun g => { g with code := .illegal, result := 0, dout := [] }) }

/-- What a host read of each of the sixteen registers of a writer returns, the status codes by their numbers
(60_exceptions.md R220); nothing else changes (10_state.md R35 to R40). -/
def Obligations.WriterRegistersRead : Prop :=
  ∀ (s : State) (k : Nat) (n : Instance) (reg : BitVec 4) (rest : List HostOp),
    s.host = .read k .writer reg :: rest → s.insts[k]? = some n →
    ∃ v : Word64, step s = .next { s with host := rest, hostData := v } ∧
      (reg = 0#4 → v = 0) ∧
      (reg = 1#4 → (∀ p ∈ ([(.ok, 0), (.keyError, 1), (.ioError, 2), (.endOfData, 3), (.shortRead, 4), (.unsupported, 5),
          (.notBound, 6), (.illegal, 7), (.faulted, 8), (.undefined, 9)] : List (Code × Nat)),
          n.w.regs.code = p.1 → (v.extractLsb' 0 4).toNat = p.2) ∧
        v.getLsbD 4 = n.w.fault ∧ v.getLsbD 5 = n.w.bound ∧ v.getLsbD 6 = n.w.closed ∧ v.extractLsb' 7 57 = 0) ∧
      (reg = 2#4 → v = n.w.regs.arg0) ∧ (reg = 3#4 → v = n.w.regs.arg1) ∧ (reg = 4#4 → v = n.w.regs.result) ∧
      (reg = 5#4 → v.getLsbD 0 = n.w.ra ∧ v.getLsbD 1 = n.w.compat ∧ v.extractLsb' 2 62 = 0) ∧
      (6 ≤ reg.toNat → v = 0)

/-- What a host read of each of the sixteen registers of a reader returns, the status codes by their numbers
(60_exceptions.md R220); nothing else changes (10_state.md R35 to R40). -/
def Obligations.ReaderRegistersRead : Prop :=
  ∀ (s : State) (k : Nat) (n : Instance) (reg : BitVec 4) (rest : List HostOp),
    s.host = .read k .reader reg :: rest → s.insts[k]? = some n →
    ∃ v : Word64, step s = .next { s with host := rest, hostData := v } ∧
      (reg = 0#4 → v = 0) ∧
      (reg = 1#4 → (∀ p ∈ ([(.ok, 0), (.keyError, 1), (.ioError, 2), (.endOfData, 3), (.shortRead, 4), (.unsupported, 5),
          (.notBound, 6), (.illegal, 7), (.faulted, 8), (.undefined, 9)] : List (Code × Nat)),
          n.r.regs.code = p.1 → (v.extractLsb' 0 4).toNat = p.2) ∧
        v.getLsbD 4 = n.r.fault ∧ v.getLsbD 5 = n.r.bound ∧ v.extractLsb' 6 58 = 0) ∧
      (reg = 2#4 → v = n.r.regs.arg0) ∧ (reg = 3#4 → v = n.r.regs.arg1) ∧ (reg = 4#4 → v = n.r.regs.result) ∧
      (reg = 5#4 → v.getLsbD 0 = n.r.seek ∧ v.extractLsb' 1 63 = 0) ∧
      (6 ≤ reg.toNat → v = 0)

/-- A host write of a register other than `CMD` reaches `ARG0` and `ARG1` only, all 64 bits of them (10_state.md R36 to
R40). -/
def Obligations.RegisterWritesReachOnlyTheArguments : Prop :=
  ∀ (s : State) (k : Nat) (n : Instance) (e : Engine) (reg : BitVec 4) (value : Word64) (rest : List HostOp),
    s.host = .write k e reg value :: rest → s.insts[k]? = some n → reg ≠ 0#4 →
    step s = .next { s with
      host := rest
      insts := s.insts.set k (Instance.onRegs n e fun g => { g with
        arg0 := if reg = 2#4 then value else g.arg0
        arg1 := if reg = 3#4 then value else g.arg1 }) }

/-- Hardware reset gives every engine of every instance the values of 10_state.md R41 and touches no sink and no source
(70_reset_and_hazards.md R250); power-on gives them too. That it takes one step and leaves the value the host last read
and the addressed instance alone is the model's choice (log entries 7 and 24). -/
def Obligations.HardwareResetGivesTheResetValues : Prop :=
  (∀ n ∈ State.reset.insts, Instance.atReset n) ∧
  ∀ (s : State) (rest : List HostOp), s.host = .reset :: rest →
    ∃ t, step s = .next t ∧ t.sel = s.sel ∧ t.host = rest ∧ t.hostData = s.hostData ∧
      t.insts.length = s.insts.length ∧
      ∀ (k : Nat) (n : Instance), s.insts[k]? = some n →
        ∃ n', t.insts[k]? = some n' ∧ Instance.atReset n' ∧ n'.w.sink = n.w.sink ∧ n'.r.source = n.r.source

/-- A sink or a source attached replaces the one at that port and changes nothing of the engine, so that a capability
that changes after the bind is not seen (00_scope.md section 3; 70_reset_and_hazards.md section 2); an idle block keeps
its state (60_exceptions.md section 4). -/
def Obligations.AttachingReachesOnlyThePort : Prop :=
  ∀ (s : State) (k : Nat) (n : Instance) (rest : List HostOp), s.insts[k]? = some n →
    (∀ c : Sink, Memory.wf c.mem = true → s.host = .attachSink k c :: rest →
      step s = .next { s with host := rest, insts := s.insts.set k { n with w := { n.w with sink := c } } }) ∧
    (∀ c : Source, Memory.wf c.mem = true → s.host = .attachSource k c :: rest →
      step s = .next { s with host := rest, insts := s.insts.set k { n with r := { n.r with source := c } } }) ∧
    (s.host = [] → step s = .next s)

/-! ### Invariants (10_state.md R27, R32, R34) -/

/-- The machine right after reset has its instances, each at rest, and keeps the invariants. -/
def Obligations.ResetMeetsTheInvariant : Prop :=
  State.reset.insts.length = nInst ∧ State.inv State.reset ∧ State.keysValid State.reset ∧
  ∀ n ∈ State.reset.insts, Writer.mode n.w = .unbound ∧ Reader.mode n.r = .unbound

/-- Every step from every state that meets the invariants leads to one that meets them (10_state.md R32, R34): the fill
cursor, the offset, the bytes passed to the sink, the reserved offsets, the reader's cursor and the canonical form of
the byte spaces. -/
def Obligations.StepKeepsTheInvariant : Prop :=
  ∀ s t : State, State.inv s → step s = .next t → State.inv t

/-- No step leaves an engine bound to a key its cipher rejects (41_writer.md section 2; 42_reader.md section 2). -/
def Obligations.StepKeepsBoundKeysValid : Prop :=
  ∀ s t : State, State.keysValid s → step s = .next t → State.keysValid t

/-! ### Admission and status codes (60_exceptions.md) -/

/-- A command completes unless the addressed instance does not exist, or it is admitted and its `DIN` has not the number
of bytes it consumes (60_exceptions.md section 2; 20_memory.md R58). That those two stop is log entries 7 and 18. -/
def Obligations.CommandsCompleteUnlessTheHostErs : Prop :=
  ∀ (i : Instr) (s : State),
    (∃ t, exec i s = .next t) ↔ ∃ n, State.cur? s = some n ∧
      (Instr.engine i = .writer → isBind i = true ∨ (n.w.bound = true ∧ n.w.fault = false) →
        n.w.regs.din.length = Instr.dinBytes i) ∧
      (Instr.engine i = .reader → isBind i = true ∨ (n.r.bound = true ∧ n.r.fault = false) →
        n.r.regs.din.length = Instr.dinBytes i)

/-- An unbound engine answers NOT_BOUND to every command but a bind and changes nothing else (60_exceptions.md R226).
That it does so whatever `DIN` came with the command is the model's choice (log entry 18). -/
def Obligations.UnboundEngineAnswersNotBound : Prop :=
  ∀ (i : Instr) (s : State) (n : Instance), isBind i = false → State.cur? s = some n →
    (Instr.engine i = .writer → n.w.bound = false →
      exec i s = .next (State.setW s n
        { n.w with regs := { n.w.regs with code := .notBound, result := 0, dout := [] } })) ∧
    (Instr.engine i = .reader → n.r.bound = false →
      exec i s = .next (State.setR s n
        { n.r with regs := { n.r.regs with code := .notBound, result := 0, dout := [] } }))

/-- A faulted engine answers FAULTED to every command but a bind and changes nothing else (60_exceptions.md R228). That
it does so whatever `DIN` came with the command is the model's choice (log entry 18). -/
def Obligations.FaultedEngineAnswersFaulted : Prop :=
  ∀ (i : Instr) (s : State) (n : Instance), isBind i = false → State.cur? s = some n →
    (Instr.engine i = .writer → n.w.bound = true → n.w.fault = true →
      exec i s = .next (State.setW s n
        { n.w with regs := { n.w.regs with code := .faulted, result := 0, dout := [] } })) ∧
    (Instr.engine i = .reader → n.r.bound = true → n.r.fault = true →
      exec i s = .next (State.setR s n
        { n.r with regs := { n.r.regs with code := .faulted, result := 0, dout := [] } }))

/-- The fault bit is set by a command that finishes IO_ERROR, SHORT_READ or UNDEFINED, and cleared by a bind, whatever
its outcome, and by hardware reset alone (60_exceptions.md R230). -/
def Obligations.FaultBitFollowsTheCode : Prop :=
  (∀ (i : Instr) (s t : State) (n n' : Instance),
    State.cur? s = some n → exec i s = .next t → State.cur? t = some n' →
    (Instr.engine i = .writer →
      n'.r.fault = n.r.fault ∧
      (n'.w.fault = true ↔
        (n'.w.regs.code = .ioError ∨ n'.w.regs.code = .shortRead ∨ n'.w.regs.code = .undefined) ∨
        (n.w.fault = true ∧ isBind i = false))) ∧
    (Instr.engine i = .reader →
      n'.w.fault = n.w.fault ∧
      (n'.r.fault = true ↔
        (n'.r.regs.code = .ioError ∨ n'.r.regs.code = .shortRead ∨ n'.r.regs.code = .undefined) ∨
        (n.r.fault = true ∧ isBind i = false)))) ∧
  (∀ (s t : State) (rest : List HostOp), s.host = .reset :: rest → step s = .next t →
    ∀ n ∈ t.insts, n.w.fault = false ∧ n.r.fault = false) ∧
  (∀ (s t : State), s.host.head? ≠ some .reset → fetchHost s = .done (.next t) →
    ∀ (k : Nat) (n n' : Instance), s.insts[k]? = some n → t.insts[k]? = some n' →
      n'.w.fault = n.w.fault ∧ n'.r.fault = n.r.fault)

/-- A patch without the sink's capability and a seek without the source's finish UNSUPPORTED and change nothing else
(60_exceptions.md R225). -/
def Obligations.MissingCapabilityAnswersUnsupported : Prop :=
  (∀ i ∈ ([.wPatchBlock, .wPatchU8, .wPatchU16, .wPatchU32, .wPatchU64] : List Instr),
    ∀ (s : State) (n : Instance), State.cur? s = some n → Writer.ready n.w (Instr.dinBytes i) → n.w.ra = false →
      exec i s = .next (State.setW s n
        { n.w with regs := { n.w.regs with code := .unsupported, result := 0, dout := [] } })) ∧
  (∀ i ∈ ([.rSeekSet, .rSeekCur, .rSeekEnd] : List Instr),
    ∀ (s : State) (n : Instance), State.cur? s = some n → Reader.ready n.r → n.r.seek = false →
      exec i s = .next (State.setR s n
        { n.r with regs := { n.r.regs with code := .unsupported, result := 0, dout := [] } }))

/-- A writer command leaves the reader, the other instances, the host, its operand registers and its `DIN` alone, and no
command but a bind changes the bound bit, the key, the capability or the compatibility flag (10_state.md sections 2 and
4; 60_exceptions.md section 4). -/
def Obligations.WriterCommandsTouchOnlyTheirEngine : Prop :=
  ∀ (i : Instr) (s t : State) (n : Instance), Instr.engine i = .writer → State.cur? s = some n → exec i s = .next t →
    ∃ w', t = State.setW s n w' ∧ w'.regs.cmd = n.w.regs.cmd ∧ w'.regs.arg0 = n.w.regs.arg0 ∧
      w'.regs.arg1 = n.w.regs.arg1 ∧ w'.regs.din = n.w.regs.din ∧ w'.regs.dout = [] ∧ w'.sink.ra = n.w.sink.ra ∧
      (isBind i = false → w'.bound = n.w.bound ∧ w'.key = n.w.key ∧ w'.ra = n.w.ra ∧ w'.compat = n.w.compat) ∧
      (i ≠ .wClose → isBind i = false → w'.closed = n.w.closed)

/-- A reader command leaves the writer, the other instances, the host, its operand registers, its `DIN` and the source's
bytes alone, and no command but a bind changes the bound bit, the key or the capability (10_state.md sections 3 and 4;
20_memory.md R54; 60_exceptions.md section 4). -/
def Obligations.ReaderCommandsTouchOnlyTheirEngine : Prop :=
  ∀ (i : Instr) (s t : State) (n : Instance), Instr.engine i = .reader → State.cur? s = some n → exec i s = .next t →
    ∃ r', t = State.setR s n r' ∧ r'.regs.cmd = n.r.regs.cmd ∧ r'.regs.arg0 = n.r.regs.arg0 ∧
      r'.regs.arg1 = n.r.regs.arg1 ∧ r'.regs.din = n.r.regs.din ∧ r'.stream = n.r.stream ++ r'.regs.dout ∧
      (∀ a, Memory.read r'.source.mem a = Memory.read n.r.source.mem a) ∧ r'.source.seek = n.r.source.seek ∧
      r'.source.reference = n.r.source.reference ∧
      (isBind i = false → r'.bound = n.r.bound ∧ r'.key = n.r.key ∧ r'.seek = n.r.seek)

/-! ### Checksum (40_checksum.md) -/

/-- Entries of the table and checksums that the spec prints (95_test_vectors.md section 2.1), for its default polynomial
(log entry 5). -/
def Obligations.ChecksumVectorsAgree : Prop :=
  crcTable crcPolyDefault 0x00#8 = 0x00000000#32 ∧ crcTable crcPolyDefault 0x01#8 = 0x77073096#32 ∧
  crcTable crcPolyDefault 0x08#8 = 0x0EDB8832#32 ∧ crcTable crcPolyDefault 0x80#8 = 0xEDB88320#32 ∧
  crcTable crcPolyDefault 0xFF#8 = 0x2D02EF8D#32 ∧
  crcLegacy crcPolyDefault crcInit [] = 0xFFFFFFFF#32 ∧
  crcLegacy crcPolyDefault crcInit [0x31, 0x32, 0x33, 0x34, 0x35, 0x36, 0x37, 0x38, 0x39] = 0x340BC6D9#32 ∧
  crcLegacy crcPolyDefault crcInit [0xFF, 0xFF, 0xFF, 0xFF, 0, 0, 0, 0] = 0x00000000#32 ∧
  crcStandard crcPolyDefault 0 [0x31, 0x32, 0x33, 0x34] = 0x9BE3E0A3#32 ∧
  crcStandard crcPolyDefault 0x9BE3E0A3#32 [0x35, 0x36, 0x37, 0x38, 0x39] = 0xCBF43926#32

/-- Both variants may be fed a byte string in pieces, and from the sentinel the legacy one's complement is the standard
CRC-32 of the string (40_checksum.md R105, R106, inferences of the spec), for every polynomial. -/
def Obligations.ChecksumMayBeSplit : Prop :=
  ∀ (poly c : Word32) (a b : List Byte),
    crcLegacy poly c (a ++ b) = crcLegacy poly (crcLegacy poly c a) b ∧
    crcStandard poly c (a ++ b) = crcStandard poly (crcStandard poly c a) b ∧
    crcVisible (crcLegacy poly crcInit a) = crcStandard poly 0 a

/-- One table-driven step of the update (40_checksum.md section 2) is eight bit steps of the table construction (section
1) on the accumulator with the byte in its low bits, for every polynomial. -/
def Obligations.TableStepIsEightBitSteps : Prop :=
  ∀ (poly c : Word32) (b : Byte), crcByte poly c b = crcShifts poly 8 (c ^^^ b.setWidth 32)

/-! ### Byte strings and byte spaces (00_scope.md R16; 20_memory.md) -/

/-- Bit `k` of byte `j` of a value's little-endian bytes is bit `8j + k` of the value, and the bytes are worth the
value's low bits (00_scope.md section 4; 20_memory.md section 2). -/
def Obligations.LittleEndianBytesRoundTrip : Prop :=
  ∀ (n : Nat) (v : Word64), n ≤ 8 →
    (leBytes n v).length = n ∧
    (∀ j k, j < n → k < 8 → ((leBytes n v).getD j 0).getLsbD k = v.getLsbD (8 * j + k)) ∧
    leValue (leBytes n v) = v.toNat % 256 ^ n

/-- What stands in a byte space after bytes were written at an offset: those bytes there, and every other offset as it
was; the canonical form is kept, and equal reads are equal byte spaces (20_memory.md section 1). -/
def Obligations.WrittenBytesReadBack : Prop :=
  ∀ (m : Memory) (a : Nat) (bytes : List Byte),
    (∀ j, j < bytes.length → Memory.read (Memory.write m a bytes) (a + j) = bytes[j]?) ∧
    (∀ c, c < a ∨ a + bytes.length ≤ c → Memory.read (Memory.write m a bytes) c = Memory.read m c) ∧
    (Memory.wf m = true → Memory.wf (Memory.write m a bytes) = true) ∧
    (∀ k, Memory.wf m = true → Memory.wf k = true → (∀ c, Memory.read m c = Memory.read k c) → m = k)

/-! ### Writer commands (41_writer.md) -/

/-- `W.BIND` in every state: every element takes its reset value, and where the cipher accepts the key the engine is
bound with the key, the sink's capability and the flag. The key after a rejected one is not spoken of (41_writer.md
R122). -/
def Obligations.WriterBindResetsAndLoads : Prop :=
  (∀ c : Bool, decode (if c then 0x00002000#32 else 0x00000000#32) = some (.wBind c)) ∧
  ∀ (c : Bool) (s : State) (n : Instance), State.cur? s = some n → n.w.regs.din = [] →
    ∃ (key : Word64) (draw : DrawKey),
      (keyValid n.w.regs.arg0 = true → key = n.w.regs.arg0 ∧ draw = n.w.draw) ∧
      exec (.wBind c) s = .next (State.setW s n
        { regs := { n.w.regs with
            code := if keyValid n.w.regs.arg0 then .ok else .keyError
            result := 0
            dout := [] }
          bound := keyValid n.w.regs.arg0
          key := key
          ra := keyValid n.w.regs.arg0 && n.w.sink.ra
          compat := keyValid n.w.regs.arg0 && c
          buf := Vector.replicate bs 0
          ofs := 0
          fill := 0
          crc := 0xFFFFFFFF#32
          closed := false
          fault := false
          resv := []
          sinkLen := 0
          sink := n.w.sink
          draw := draw })

/-- `W.WRITE` (41_writer.md R123). Over a sink that obeys the blocks it fills, the writer has taken all the bytes and
emitted every full block, and `RESULT` is `LEN`. On a closed writer, and past the last offset, it finishes UNDEFINED
and reaches no sink; over a sink that fails one of the blocks, IO_ERROR with a `RESULT` of at most `LEN`. The premise on
the fill cursor is the invariant of `StepKeepsTheInvariant`. -/
def Obligations.WriteTakesTheBytes : Prop :=
  (∀ len : Nat, len < 65536 → decode (BitVec.ofNat 32 (65536 * len + 1)) = some (.wWrite len)) ∧
  ∀ (len : Nat) (s : State) (n : Instance), State.cur? s = some n → Writer.ready n.w len → n.w.fill < bs →
    (n.w.closed = false → n.w.ofs.toNat + len ≤ maxOfs → obeysNext n.w.sink.plan ((n.w.fill + len) / bs) →
      exec (.wWrite len) s = .next (State.setW s n
        (Writer.finish .ok (BitVec.ofNat 64 len) (Writer.advance n.w n.w.regs.din)))) ∧
    (n.w.closed = true ∨ n.w.ofs.toNat + len > maxOfs →
      ∃ w', exec (.wWrite len) s = .next (State.setW s n w') ∧ Writer.faultsWith n.w .undefined 0 w' ∧
        w'.sink = n.w.sink) ∧
    (n.w.closed = false → n.w.ofs.toNat + len ≤ maxOfs → ¬ obeysNext n.w.sink.plan ((n.w.fill + len) / bs) →
      ∃ (v : Nat) (w' : Writer), v ≤ len ∧ exec (.wWrite len) s = .next (State.setW s n w') ∧
        Writer.faultsWith n.w .ioError (BitVec.ofNat 64 v) w')

/-- The eight `W.WRITE_xx` write the little-endian bytes of the low bits of `ARG0`, signed and unsigned alike, as
`W.WRITE` writes them (41_writer.md R124 to R132). -/
def Obligations.ValueWritesTakeTheirBytes : Prop :=
  ∀ p ∈ valueWrites, ∀ (s : State) (n : Instance), State.cur? s = some n → Writer.ready n.w 0 → n.w.fill < bs →
    (n.w.closed = false → n.w.ofs.toNat + Width.bytes p.2 ≤ maxOfs →
      obeysNext n.w.sink.plan ((n.w.fill + Width.bytes p.2) / bs) →
      exec p.1 s = .next (State.setW s n (Writer.finish .ok (BitVec.ofNat 64 (Width.bytes p.2))
        (Writer.advance n.w (leBytes (Width.bytes p.2) n.w.regs.arg0))))) ∧
    (n.w.closed = true ∨ n.w.ofs.toNat + Width.bytes p.2 > maxOfs →
      ∃ w', exec p.1 s = .next (State.setW s n w') ∧ Writer.faultsWith n.w .undefined 0 w' ∧ w'.sink = n.w.sink) ∧
    (n.w.closed = false → n.w.ofs.toNat + Width.bytes p.2 ≤ maxOfs →
      ¬ obeysNext n.w.sink.plan ((n.w.fill + Width.bytes p.2) / bs) →
      ∃ (v : Nat) (w' : Writer), v ≤ Width.bytes p.2 ∧ exec p.1 s = .next (State.setW s n w') ∧
        Writer.faultsWith n.w .ioError (BitVec.ofNat 64 v) w')

/-- `W.FLUSH` (41_writer.md R134): a no-op on an empty buffer, closed or not; else the padded block is emitted and the
offset moves to the block boundary; UNDEFINED past the last offset, and IO_ERROR where the sink fails. -/
def Obligations.FlushEmitsThePaddedBlock : Prop :=
  decode 0x00000003#32 = some .wFlush ∧
  ∀ (s : State) (n : Instance), State.cur? s = some n → Writer.ready n.w 0 → n.w.fill < bs →
    (n.w.ofs.toNat + Writer.pad n.w ≤ maxOfs ∨ n.w.fill = 0 → obeysNext n.w.sink.plan (Writer.flushBlocks n.w) →
      exec .wFlush s = .next (State.setW s n (Writer.finish .ok 0 (Writer.flushed n.w)))) ∧
    (0 < n.w.fill → n.w.ofs.toNat + Writer.pad n.w > maxOfs →
      ∃ w', exec .wFlush s = .next (State.setW s n w') ∧ Writer.faultsWith n.w .undefined 0 w' ∧ w'.sink = n.w.sink) ∧
    (0 < n.w.fill → n.w.ofs.toNat + Writer.pad n.w ≤ maxOfs → ¬ obeysNext n.w.sink.plan (Writer.flushBlocks n.w) →
      ∃ w', exec .wFlush s = .next (State.setW s n w') ∧ Writer.faultsWith n.w .ioError 0 w')

/-- `W.CLOSE` (41_writer.md R135): as `W.FLUSH`, and the writer is closed. -/
def Obligations.CloseFlushesAndCloses : Prop :=
  decode 0x00000004#32 = some .wClose ∧
  ∀ (s : State) (n : Instance), State.cur? s = some n → Writer.ready n.w 0 → n.w.fill < bs →
    (n.w.ofs.toNat + Writer.pad n.w ≤ maxOfs ∨ n.w.fill = 0 → obeysNext n.w.sink.plan (Writer.flushBlocks n.w) →
      exec .wClose s = .next (State.setW s n
        (Writer.finish .ok 0 { Writer.flushed n.w with closed := true }))) ∧
    (0 < n.w.fill → n.w.ofs.toNat + Writer.pad n.w > maxOfs →
      ∃ w', exec .wClose s = .next (State.setW s n w') ∧ Writer.faultsWith n.w .undefined 0 w' ∧ w'.sink = n.w.sink) ∧
    (0 < n.w.fill → n.w.ofs.toNat + Writer.pad n.w ≤ maxOfs → ¬ obeysNext n.w.sink.plan (Writer.flushBlocks n.w) →
      ∃ w', exec .wClose s = .next (State.setW s n w') ∧ Writer.faultsWith n.w .ioError 0 w')

/-- `W.RESERVE` (41_writer.md R136): flushes, writes one block of zeros that is neither encrypted nor checksummed,
returns the offset it stands at and records it; UNDEFINED where closed or past the last offset; IO_ERROR where the sink
fails. -/
def Obligations.ReserveWritesAPlaceholder : Prop :=
  decode 0x00000005#32 = some .wReserve ∧
  ∀ (s : State) (n : Instance), State.cur? s = some n → Writer.ready n.w 0 → n.w.fill < bs →
    (n.w.closed = false → n.w.ofs.toNat + Writer.pad n.w + bs ≤ maxOfs →
      obeysNext n.w.sink.plan (Writer.flushBlocks n.w + 1) →
      let w := Writer.flushed n.w
      exec .wReserve s = .next (State.setW s n (Writer.finish .ok w.ofs { w with
        ofs := w.ofs + 8
        resv := addOffset w.resv w.ofs.toNat
        sinkLen := w.sinkLen + bs
        sink := { w.sink with
          mem := Memory.write w.sink.mem w.sink.pos (List.replicate bs 0)
          pos := w.sink.pos + bs
          plan := w.sink.plan.drop 1 } }))) ∧
    (n.w.closed = true ∨ n.w.ofs.toNat + Writer.pad n.w + bs > maxOfs →
      ∃ w', exec .wReserve s = .next (State.setW s n w') ∧ Writer.faultsWith n.w .undefined 0 w' ∧
        w'.sink = n.w.sink) ∧
    (n.w.closed = false → n.w.ofs.toNat + Writer.pad n.w + bs ≤ maxOfs →
      ¬ obeysNext n.w.sink.plan (Writer.flushBlocks n.w + 1) →
      ∃ w', exec .wReserve s = .next (State.setW s n w') ∧ Writer.faultsWith n.w .ioError 0 w')

/-- The stream commands append to the sink, from its position on, exactly the bytes of the blocks they emit or reserve,
and leave every other byte of the sink as it was; a command that appends nothing leaves every byte (20_memory.md R52,
R64, R65). The patches, which do not append, are `PatchesOverwriteOneBlock`. -/
def Obligations.StreamCommandsAppendToTheSink : Prop :=
  ∀ (i : Instr) (s t : State) (n n' : Instance),
    Instr.engine i = .writer → i ∉ ([.wPatchBlock, .wPatchU8, .wPatchU16, .wPatchU32, .wPatchU64] : List Instr) →
    State.cur? s = some n → Writer.ready n.w (Instr.dinBytes i) → n.w.fill < bs →
    exec i s = .next t → State.cur? t = some n' → n'.w.regs.code = .ok →
    n'.w.sink.pos = n.w.sink.pos + Writer.appends n.w i ∧
    (∀ a, a < n.w.sink.pos ∨ n.w.sink.pos + Writer.appends n.w i ≤ a →
      Memory.read n'.w.sink.mem a = Memory.read n.w.sink.mem a) ∧
    (∀ a, n.w.sink.pos ≤ a → a < n.w.sink.pos + Writer.appends n.w i → Memory.read n'.w.sink.mem a ≠ none)

/-- `W.PATCH_BLOCK` (41_writer.md R137): at a reserved offset the block there becomes the encrypted payload and nothing
else of the writer changes; UNSUPPORTED without the capability, then UNDEFINED where closed or the offset is not
reserved; IO_ERROR where the sink fails. The sink of the OK clause takes zeros between its end and the block, which is the
model's choice for every sink but the reference sink (log entry 15). -/
def Obligations.PatchBlockOverwritesTheReservedBlock : Prop :=
  decode 0x00000006#32 = some .wPatchBlock ∧
  ∀ (s : State) (n : Instance), State.cur? s = some n → Writer.ready n.w bs →
    (n.w.ra = false → exec .wPatchBlock s = .next (State.setW s n (Writer.finish .unsupported 0 n.w))) ∧
    (n.w.ra = true → ∀ off ∈ n.w.resv, n.w.regs.arg0.toInt = off → n.w.closed = false →
      nextAnswer n.w.sink.plan = .obey → exec .wPatchBlock s = .next (State.setW s n
        (Writer.finish .ok 0 (Writer.patched n.w off n.w.regs.din)))) ∧
    (n.w.ra = true → n.w.closed = true ∨ (∀ off ∈ n.w.resv, n.w.regs.arg0.toInt ≠ off) →
      ∃ w', exec .wPatchBlock s = .next (State.setW s n w') ∧ Writer.faultsWith n.w .undefined 0 w' ∧
        w'.sink = n.w.sink) ∧
    (n.w.ra = true → ∀ off ∈ n.w.resv, n.w.regs.arg0.toInt = off → n.w.closed = false →
      nextAnswer n.w.sink.plan = .fail →
      ∃ w', exec .wPatchBlock s = .next (State.setW s n w') ∧ Writer.faultsWith n.w .ioError 0 w')

/-- The four `W.PATCH_Uxx` patch the little-endian bytes of the low bits of `ARG1`, padded with zeros to a block
(41_writer.md R138 to R142). The sink of the OK clause takes zeros between its end and the block, which is the model's
choice for every sink but the reference sink (log entry 15). -/
def Obligations.ValuePatchesOverwriteTheReservedBlock : Prop :=
  ∀ p ∈ valuePatches, ∀ (s : State) (n : Instance), State.cur? s = some n → Writer.ready n.w 0 →
    (n.w.ra = false → exec p.1 s = .next (State.setW s n (Writer.finish .unsupported 0 n.w))) ∧
    (n.w.ra = true → ∀ off ∈ n.w.resv, n.w.regs.arg0.toInt = off → n.w.closed = false →
      nextAnswer n.w.sink.plan = .obey → exec p.1 s = .next (State.setW s n (Writer.finish .ok 0 (Writer.patched n.w off
        (leBytes (Width.bytes p.2) n.w.regs.arg1 ++ List.replicate (bs - Width.bytes p.2) 0))))) ∧
    (n.w.ra = true → n.w.closed = true ∨ (∀ off ∈ n.w.resv, n.w.regs.arg0.toInt ≠ off) →
      ∃ w', exec p.1 s = .next (State.setW s n w') ∧ Writer.faultsWith n.w .undefined 0 w' ∧ w'.sink = n.w.sink) ∧
    (n.w.ra = true → ∀ off ∈ n.w.resv, n.w.regs.arg0.toInt = off → n.w.closed = false →
      nextAnswer n.w.sink.plan = .fail →
      ∃ w', exec p.1 s = .next (State.setW s n w') ∧ Writer.faultsWith n.w .ioError 0 w')

/-- The five patches store one block, at the offset `ARG0` holds: after OK and after IO_ERROR every byte of the sink
outside that block is as it was, and the sink's position too; after OK the block holds the encrypted payload (20_memory.md
R53). Where the block ends past the sink's end, the offsets from there up to the block first take zeros: R72 says so of
the reference sink, and that every sink does is the model's choice (log entry 15), as is that `p` stays where the sink
grows (log entry 28). -/
def Obligations.PatchesOverwriteOneBlock : Prop :=
  ∀ i ∈ ([.wPatchBlock, .wPatchU8, .wPatchU16, .wPatchU32, .wPatchU64] : List Instr),
    ∀ (s t : State) (n n' : Instance), State.cur? s = some n → Writer.ready n.w (Instr.dinBytes i) →
      exec i s = .next t → State.cur? t = some n' →
      let off := n.w.regs.arg0.toInt.toNat
      (n'.w.regs.code = .ok →
        n'.w.sink.pos = n.w.sink.pos ∧
        (∀ j, j < bs → Memory.read n'.w.sink.mem (off + j) =
          (blockBytes (enc n.w.key (blockOfBytes (Writer.patchBytes n.w i))))[j]?) ∧
        (∀ a, a < off → a < Memory.length n.w.sink.mem → Memory.read n'.w.sink.mem a = Memory.read n.w.sink.mem a) ∧
        (∀ a, a < off → Memory.length n.w.sink.mem ≤ a → Memory.read n'.w.sink.mem a = some 0) ∧
        (∀ a, off + bs ≤ a → Memory.read n'.w.sink.mem a = Memory.read n.w.sink.mem a)) ∧
      (n'.w.regs.code = .ioError →
        n'.w.sink.pos = n.w.sink.pos ∧
        (∀ a, a < off ∨ off + bs ≤ a → Memory.read n'.w.sink.mem a = Memory.read n.w.sink.mem a))

/-- `W.CHECKSUM` (41_writer.md R143) returns the complement of the accumulator, `W.RESET_CHECKSUM` (R144) sets the
accumulator to the sentinel, and `W.BYTES_WRITTEN` (R145) returns the offset; closed or not, and nothing else changes. -/
def Obligations.WriterQueriesAnswer : Prop :=
  decode 0x00000008#32 = some .wChecksum ∧ decode 0x00000009#32 = some .wResetChecksum ∧
  decode 0x0000000A#32 = some .wBytesWritten ∧
  ∀ (s : State) (n : Instance), State.cur? s = some n → Writer.ready n.w 0 →
    exec .wChecksum s = .next (State.setW s n { n.w with
      regs := { n.w.regs with code := .ok, result := (~~~ n.w.crc).setWidth 64, dout := [] } }) ∧
    exec .wResetChecksum s = .next (State.setW s n { n.w with
      crc := 0xFFFFFFFF#32
      regs := { n.w.regs with code := .ok, result := 0, dout := [] } }) ∧
    exec .wBytesWritten s = .next (State.setW s n { n.w with
      regs := { n.w.regs with code := .ok, result := n.w.ofs, dout := [] } })

/-- Writing two byte strings in two commands leaves the writer and its sink as writing them in one does, but for the
registers of the last command (41_writer.md R147, an inference of the spec). -/
def Obligations.WritesMayBeSplit : Prop :=
  ∀ (s : State) (n : Instance) (a b : List Byte), State.cur? s = some n → n.w.bound = true → n.w.fault = false →
    n.w.closed = false → n.w.fill < bs → n.w.ofs.toNat + (a.length + b.length) ≤ maxOfs →
    obeysNext n.w.sink.plan ((n.w.fill + (a.length + b.length)) / bs) →
    ∃ (t t₁ t₂ : State) (m m₂ : Instance),
      exec (.wWrite (a ++ b).length) (State.withDin s (a ++ b)) = .next t ∧ State.cur? t = some m ∧
      exec (.wWrite a.length) (State.withDin s a) = .next t₁ ∧
      exec (.wWrite b.length) (State.withDin t₁ b) = .next t₂ ∧ State.cur? t₂ = some m₂ ∧
      m₂.w.regs.code = .ok ∧ m₂.r = m.r ∧ { m₂.w with regs := m.w.regs } = m.w

/-- A block reserved, followed by whole blocks and patched at last holds what it would hold had it been written first,
after a flush of the bytes pending: the sinks end equal (41_writer.md R149, an inference of the spec). The sink stands
where the offset of the block being filled does, as R253 asks. -/
def Obligations.PatchedBlockEqualsWrittenBlock : Prop :=
  ∀ (s : State) (n : Instance) (x rest : List Byte), State.cur? s = some n → n.w.bound = true → n.w.fault = false →
    n.w.closed = false → n.w.ra = true → n.w.fill < bs → n.w.sink.plan = [] → Memory.wf n.w.sink.mem = true →
    n.w.sink.pos + n.w.fill = n.w.ofs.toNat → n.w.regs.arg0 = n.w.ofs + BitVec.ofNat 64 (Writer.pad n.w) →
    x.length = bs → rest.length % bs = 0 → n.w.ofs.toNat + Writer.pad n.w + bs + rest.length ≤ maxOfs →
    ∃ (t₁ t₂ t₃ u₁ u : State) (m₃ m : Instance),
      exec .wReserve (State.withDin s []) = .next t₁ ∧
      exec (.wWrite rest.length) (State.withDin t₁ rest) = .next t₂ ∧
      exec .wPatchBlock (State.withDin t₂ x) = .next t₃ ∧ State.cur? t₃ = some m₃ ∧
      exec .wFlush (State.withDin s []) = .next u₁ ∧
      exec (.wWrite (x ++ rest).length) (State.withDin u₁ (x ++ rest)) = .next u ∧ State.cur? u = some m ∧
      m₃.w.regs.code = .ok ∧ m.w.regs.code = .ok ∧ m₃.w.sink = m.w.sink ∧ m₃.w.ofs = m.w.ofs

/-- The writer's state machine (41_writer.md R146): a bind opens or unbinds, a close closes, a fault faults, a stream
write on a closed writer faults but for a patch without the capability, and nothing else changes the state. The premise
is the invariant of `StepKeepsTheInvariant`. -/
def Obligations.WriterFollowsItsStateMachine : Prop :=
  ∀ (i : Instr) (s t : State) (n n' : Instance), Instr.engine i = .writer → State.cur? s = some n → Writer.inv n.w →
    exec i s = .next t → State.cur? t = some n' →
    Writer.mode n'.w =
      if isBind i then (if n'.w.regs.code = .ok then .opened else .unbound)
      else match Writer.mode n.w with
        | .unbound => .unbound
        | .faulted => .faulted
        | .closed => if isStreamWrite i && !(isPatch i && !n.w.ra) then .faulted else .closed
        | .opened =>
          if n'.w.regs.code = .ioError ∨ n'.w.regs.code = .undefined then .faulted
          else if i = .wClose then .closed
          else .opened

/-! ### Reader commands (42_reader.md) -/

/-- `R.BIND` in every state: the reader is emptied, and where the cipher accepts the key it is bound with the key and
the source's capability; no source operation happens. The key after a rejected one is not spoken of (42_reader.md
R173). -/
def Obligations.ReaderBindResetsAndLoads : Prop :=
  decode 0x00000040#32 = some .rBind ∧
  ∀ (s : State) (n : Instance), State.cur? s = some n → n.r.regs.din = [] →
    ∃ (key : Word64) (draw : DrawKey),
      (keyValid n.r.regs.arg0 = true → key = n.r.regs.arg0 ∧ draw = n.r.draw) ∧
      exec .rBind s = .next (State.setR s n
        { regs := { n.r.regs with
            code := if keyValid n.r.regs.arg0 then .ok else .keyError
            result := 0
            dout := [] }
          bound := keyValid n.r.regs.arg0
          key := key
          seek := keyValid n.r.regs.arg0 && n.r.source.seek
          fault := false
          buf := Vector.replicate bs 0
          cur := -1
          source := n.r.source
          stream := n.r.stream
          draw := draw })

/-- `R.READ` (42_reader.md R174). Over a source that obeys and holds the blocks needed, the bytes are the next ones of
the plaintext and the cursor stands behind them. Where the source ends first, every byte before the end is delivered
and counted, and the code is END_OF_DATA at a block's end, the source standing behind the bytes read (20_memory.md R55),
and SHORT_READ inside one; where a fetch fails, IO_ERROR with the bytes delivered before it. -/
def Obligations.ReadDeliversTheBytes : Prop :=
  (∀ len : Nat, len < 65536 → decode (BitVec.ofNat 32 (65536 * len + 0x41)) = some (.rRead len)) ∧
  ∀ (len : Nat) (s : State) (n : Instance), State.cur? s = some n → Reader.ready n.r →
    let m := Reader.blocksFor n.r len
    let held := (Source.nextBlocks n.r.source m).length
    (obeysNext n.r.source.plan m → held = bs * m →
      exec (.rRead len) s = .next (State.setR s n (Reader.finish .ok (BitVec.ofNat 64 len)
        ((Reader.plaintext n.r m).take len) (Reader.advance n.r len)))) ∧
    (held < bs * m → obeysNext n.r.source.plan (held / bs + 1) →
      let out := Reader.plaintext n.r (held / bs)
      ∃ r', exec (.rRead len) s = .next (State.setR s n r') ∧
        Reader.runsDry n.r (held % bs) (BitVec.ofNat 64 out.length) out r' ∧
        (held % bs = 0 → Reader.sourceMoves n.r held r')) ∧
    (∀ j, j < m → obeysNext n.r.source.plan j → n.r.source.plan[j]? = some .fail →
      (Source.nextBlocks n.r.source j).length = bs * j →
      let out := Reader.plaintext n.r j
      ∃ r', exec (.rRead len) s = .next (State.setR s n r') ∧ Reader.faultsWith n.r .ioError (BitVec.ofNat 64 out.length) out r')

/-- The eight `R.READ_xx` (42_reader.md R175 to R183): the value of the next bytes, zero- or sign-extended, with no
`DOUT`; the codes of `R.READ` where the bytes are not to be had, with any `RESULT`, and the source where `R.READ` leaves
it. -/
def Obligations.ValueReadsDeliverTheValue : Prop :=
  ∀ p ∈ unsignedReads ++ signedReads, ∀ (s : State) (n : Instance), State.cur? s = some n → Reader.ready n.r →
    let m := Reader.blocksFor n.r (Width.bytes p.2)
    let held := (Source.nextBlocks n.r.source m).length
    (obeysNext n.r.source.plan m → held = bs * m →
      ∃ v : Word64,
        exec p.1 s = .next (State.setR s n (Reader.finish .ok v [] (Reader.advance n.r (Width.bytes p.2)))) ∧
        leBytes (Width.bytes p.2) v = (Reader.plaintext n.r m).take (Width.bytes p.2) ∧
        (p ∈ unsignedReads → v.toNat < 256 ^ Width.bytes p.2) ∧
        (p ∈ signedReads → -(256 ^ Width.bytes p.2 : Int) ≤ 2 * v.toInt ∧ 2 * v.toInt < 256 ^ Width.bytes p.2)) ∧
    (held < bs * m → obeysNext n.r.source.plan (held / bs + 1) →
      ∃ (v : Word64) (r' : Reader), exec p.1 s = .next (State.setR s n r') ∧ Reader.runsDry n.r (held % bs) v [] r' ∧
        (held % bs = 0 → Reader.sourceMoves n.r held r')) ∧
    (∀ j, j < m → obeysNext n.r.source.plan j → n.r.source.plan[j]? = some .fail →
      (Source.nextBlocks n.r.source j).length = bs * j →
      ∃ (v : Word64) (r' : Reader), exec p.1 s = .next (State.setR s n r') ∧ Reader.faultsWith n.r .ioError v [] r')

/-- `R.BUFFERED` returns the bytes left in the loaded block, 0 if none is loaded or it is exhausted, and changes nothing
else (42_reader.md R172, R184). -/
def Obligations.BufferedCountsTheLoadedBytes : Prop :=
  decode 0x00000043#32 = some .rBuffered ∧
  ∀ (s : State) (n : Instance), State.cur? s = some n → Reader.ready n.r →
    exec .rBuffered s = .next (State.setR s n { n.r with
      regs := { n.r.regs with
        code := .ok
        result := if 0 ≤ n.r.cur ∧ n.r.cur < bs then BitVec.ofInt 64 (bs - n.r.cur) else 0
        dout := [] } })

/-- `R.ALIGN` (42_reader.md R185): a no-op unless the loaded block is partly consumed; then the rest of it is dropped and
the next block loaded; END_OF_DATA, with the source where it stood (20_memory.md R55), SHORT_READ and IO_ERROR as the
fetch says. -/
def Obligations.AlignDropsThePartlyReadBlock : Prop :=
  decode 0x00000044#32 = some .rAlign ∧
  ∀ (s : State) (n : Instance), State.cur? s = some n → Reader.ready n.r →
    let held := (Source.nextBlocks n.r.source 1).length
    (n.r.cur ≤ 0 ∨ bs ≤ n.r.cur → exec .rAlign s = .next (State.setR s n (Reader.finish .ok 0 [] n.r))) ∧
    (0 < n.r.cur → n.r.cur < bs → nextAnswer n.r.source.plan = .obey → held = bs →
      exec .rAlign s = .next (State.setR s n (Reader.finish .ok 0 [] (Reader.loaded n.r)))) ∧
    (0 < n.r.cur → n.r.cur < bs → nextAnswer n.r.source.plan = .obey → held < bs →
      ∃ r', exec .rAlign s = .next (State.setR s n r') ∧ Reader.runsDry n.r held 0 [] r' ∧
        (held = 0 → Reader.sourceMoves n.r 0 r')) ∧
    (0 < n.r.cur → n.r.cur < bs → nextAnswer n.r.source.plan = .fail →
      ∃ r', exec .rAlign s = .next (State.setR s n r') ∧ Reader.faultsWith n.r .ioError 0 [] r')

/-- `R.READ_ALIGNED` (42_reader.md R186): one whole block, the loaded one if nothing of it was read, else the next one.
A source that ends first gives END_OF_DATA, standing where it stood (20_memory.md R55), only where a partly read block was
dropped, else SHORT_READ. -/
def Obligations.ReadAlignedDeliversABlock : Prop :=
  decode 0x00000045#32 = some .rReadAligned ∧
  ∀ (s : State) (n : Instance), State.cur? s = some n → Reader.ready n.r →
    let held := (Source.nextBlocks n.r.source 1).length
    (n.r.cur = 0 → exec .rReadAligned s = .next (State.setR s n
      (Reader.finish .ok 8 (blockBytes n.r.buf) { n.r with cur := bs }))) ∧
    (n.r.cur ≠ 0 → nextAnswer n.r.source.plan = .obey → held = bs →
      exec .rReadAligned s = .next (State.setR s n (Reader.finish .ok 8
        (blockBytes (dec n.r.key (blockOfBytes (Source.nextBlocks n.r.source 1))))
        { Reader.loaded n.r with cur := bs }))) ∧
    (0 < n.r.cur → n.r.cur < bs → nextAnswer n.r.source.plan = .obey → held < bs →
      ∃ r', exec .rReadAligned s = .next (State.setR s n r') ∧ Reader.runsDry n.r held 0 [] r' ∧
        (held = 0 → Reader.sourceMoves n.r 0 r')) ∧
    (n.r.cur < 0 ∨ bs ≤ n.r.cur → nextAnswer n.r.source.plan = .obey → held < bs →
      ∃ r', exec .rReadAligned s = .next (State.setR s n r') ∧ Reader.faultsWith n.r .shortRead 0 [] r') ∧
    (n.r.cur ≠ 0 → nextAnswer n.r.source.plan = .fail →
      ∃ r', exec .rReadAligned s = .next (State.setR s n r') ∧ Reader.faultsWith n.r .ioError 0 [] r')

/-- The three `R.SEEK_xx` over a source that obeys (42_reader.md R187 to R190): at a block boundary the reader is empty
with the source at the target; inside a block that the source holds, that block is loaded and the cursor stands at the
remainder. `RESULT` is the target where that is at most 2^63 - 1, and open past it (log entry 20). -/
def Obligations.SeeksReachTheTarget : Prop :=
  ∀ p ∈ seeks, ∀ (s : State) (n : Instance), State.cur? s = some n → Reader.ready n.r → n.r.seek = true →
    ¬ Reader.seekUnderflows n.r p.2 →
    ∀ target : Nat, Reader.seekTarget n.r p.2 = target →
      ∃ result : Word64, (target ≤ maxOfs → result = BitVec.ofNat 64 target) ∧
      (target % bs = 0 → nextAnswer n.r.source.plan = .obey →
        exec p.1 s = .next (State.setR s n (Reader.finish .ok result []
          { n.r with cur := -1, source := Source.moved n.r.source target 1 }))) ∧
      (target % bs ≠ 0 → obeysNext n.r.source.plan 3 →
        let boundary := Source.moved n.r.source (target - target % bs) 2
        (Source.nextBlocks boundary 1).length = bs →
        exec p.1 s = .next (State.setR s n (Reader.finish .ok result []
          { Reader.loaded { n.r with source := boundary } with cur := (target % bs : Nat) })))

/-- The failures of the three `R.SEEK_xx` (42_reader.md R187 to R190; 60_exceptions.md R224 case 4): an offset that
underflows is UNDEFINED, a negative target and a source that fails a seek or the fetch are IO_ERROR, and a block the
source does not hold is END_OF_DATA or SHORT_READ. At END_OF_DATA the source stands at that block's boundary
(70_reset_and_hazards.md R263); that it does so where R73 would put the reference source at its end is the model's choice
(log entry 16). -/
def Obligations.SeeksFailAsTheirRuleSays : Prop :=
  ∀ p ∈ seeks, ∀ (s : State) (n : Instance), State.cur? s = some n → Reader.ready n.r → n.r.seek = true →
    (Reader.seekUnderflows n.r p.2 →
      ∃ r', exec p.1 s = .next (State.setR s n r') ∧ Reader.faultsWith n.r .undefined 0 [] r' ∧
        r'.source = n.r.source) ∧
    (¬ Reader.seekUnderflows n.r p.2 → Reader.seekTarget n.r p.2 < 0 ∨ nextAnswer n.r.source.plan = .fail →
      ∃ r', exec p.1 s = .next (State.setR s n r') ∧ Reader.faultsWith n.r .ioError 0 [] r') ∧
    (¬ Reader.seekUnderflows n.r p.2 → ∀ target : Nat, Reader.seekTarget n.r p.2 = target → target % bs ≠ 0 →
      let boundary := Source.moved n.r.source (target - target % bs) 2
      let held := (Source.nextBlocks boundary 1).length
      (obeysNext n.r.source.plan 3 → held < bs →
        ∃ r', exec p.1 s = .next (State.setR s n r') ∧ Reader.runsDry n.r held 0 [] r' ∧
          (held = 0 → r'.source.pos = boundary.pos)) ∧
      (obeysNext n.r.source.plan 1 → ¬ obeysNext n.r.source.plan 3 →
        ∃ r', exec p.1 s = .next (State.setR s n r') ∧ Reader.faultsWith n.r .ioError 0 [] r'))

/-- A seek is its re-alignment machine run to its end: from every reader, eight micro-steps finish it, with the reader
the command leaves (42_reader.md R192). The machine as one of its own, and its free `RESULT` past 2^63 - 1, are the
model's choices (log entries 20 and 25). -/
def Obligations.SeekRunsItsMicroStates : Prop :=
  ∀ p ∈ seeks, ∀ (s : State) (n : Instance), State.cur? s = some n → Reader.ready n.r →
    (SeekRun.run 8 (SeekRun.start p.2 n.r)).st = .finished ∧
    exec p.1 s = .next (State.setR s n (SeekRun.run 8 (SeekRun.start p.2 n.r)).reader)

/-- Reading in two commands delivers what reading in one does and leaves the reader the same, but for the registers of
the last command (42_reader.md R193, an inference of the spec). -/
def Obligations.ReadsMayBeSplit : Prop :=
  ∀ (s : State) (n : Instance) (a b : Nat), State.cur? s = some n → Reader.ready n.r →
    obeysNext n.r.source.plan (Reader.blocksFor n.r (a + b)) →
    (Source.nextBlocks n.r.source (Reader.blocksFor n.r (a + b))).length = bs * Reader.blocksFor n.r (a + b) →
    ∃ (t t₁ t₂ : State) (m m₁ m₂ : Instance),
      exec (.rRead (a + b)) s = .next t ∧ State.cur? t = some m ∧
      exec (.rRead a) s = .next t₁ ∧ State.cur? t₁ = some m₁ ∧
      exec (.rRead b) t₁ = .next t₂ ∧ State.cur? t₂ = some m₂ ∧
      m₁.r.regs.code = .ok ∧ m₂.r.regs.code = .ok ∧ m.r.regs.dout = m₁.r.regs.dout ++ m₂.r.regs.dout ∧
      { m₂.r with regs := m.r.regs } = m.r

/-- What the commands that finish OK do to the reader's logical position (42_reader.md R193, an inference of the spec):
a read moves it by what it delivers, a seek sets it to the target, an align that refills moves it to the block the
source stood at, and a query leaves it. -/
def Obligations.CommandsMoveTheLogicalPosition : Prop :=
  ∀ (i : Instr) (s t : State) (n n' : Instance), State.cur? s = some n → Reader.ready n.r → exec i s = .next t →
    State.cur? t = some n' → n'.r.regs.code = .ok →
    (∀ len, i = .rRead len → Reader.position n'.r = Reader.position n.r + len) ∧
    (∀ p ∈ unsignedReads ++ signedReads, i = p.1 →
      Reader.position n'.r = Reader.position n.r + Width.bytes p.2) ∧
    (∀ p ∈ seeks, i = p.1 → Reader.position n'.r = Reader.seekTarget n.r p.2) ∧
    (i = .rBuffered → Reader.position n'.r = Reader.position n.r) ∧
    (i = .rAlign → Reader.position n'.r =
      if 0 < n.r.cur ∧ n.r.cur < bs then (n.r.source.pos : Int) else Reader.position n.r)

/-- The reader's state machine (42_reader.md R191): a bind empties or unbinds, a fault faults, the end of the data
empties, a seek leaves the reader empty at a block boundary and loaded inside a block, an align that refills leaves it
loaded, a transfer of at least one byte leaves it loaded or exhausted, and nothing else changes the state. -/
def Obligations.ReaderFollowsItsStateMachine : Prop :=
  ∀ (i : Instr) (s t : State) (n n' : Instance), Instr.engine i = .reader → State.cur? s = some n → Reader.inv n.r →
    exec i s = .next t → State.cur? t = some n' →
    (i = .rBind → Reader.mode n'.r = if n'.r.regs.code = .ok then .empty else .unbound) ∧
    (i ≠ .rBind → Reader.mode n.r = .unbound → Reader.mode n'.r = .unbound) ∧
    (i ≠ .rBind → Reader.mode n.r = .faulted → Reader.mode n'.r = .faulted) ∧
    (i ≠ .rBind → Reader.mode n.r ≠ .unbound → Reader.mode n.r ≠ .faulted →
      match n'.r.regs.code with
      | .ioError | .shortRead | .undefined => Reader.mode n'.r = .faulted
      | .endOfData => Reader.mode n'.r = .empty
      | .ok =>
        (∀ p ∈ seeks, i = p.1 →
          Reader.mode n'.r = if Reader.seekTarget n.r p.2 % bs = 0 then .empty else .loaded) ∧
        (i = .rAlign → Reader.mode n'.r = if 0 < n.r.cur ∧ n.r.cur < bs then .loaded else Reader.mode n.r) ∧
        (i = .rBuffered ∨ i = .rRead 0 → Reader.mode n'.r = Reader.mode n.r) ∧
        (transfers i = true → Reader.mode n'.r = if Reader.buffered n'.r = 0 then .exhausted else .loaded)
      | _ => Reader.mode n'.r = Reader.mode n.r)

/-- Seeking to an offset of a stream of whole blocks and reading delivers what reading from the start and discarding
the bytes before the offset does (42_reader.md R194, an inference of the spec). -/
def Obligations.SeekingEqualsReadingAndDiscarding : Prop :=
  ∀ (s : State) (n : Instance) (blocks offset count : Nat), State.cur? s = some n → Reader.ready n.r →
    n.r.seek = true → n.r.cur = -1 → n.r.source.pos = 0 → n.r.source.plan = [] →
    (Source.nextBlocks n.r.source blocks).length = bs * blocks → offset < bs * blocks → offset + count ≤ bs * blocks →
    n.r.regs.arg0.toInt = offset →
    ∃ (t u v : State) (m k : Instance),
      exec (.rRead (offset + count)) s = .next t ∧ State.cur? t = some m ∧
      exec .rSeekSet s = .next u ∧ exec (.rRead count) u = .next v ∧ State.cur? v = some k ∧
      m.r.regs.code = .ok ∧ k.r.regs.code = .ok ∧ k.r.regs.dout = m.r.regs.dout.drop offset

/-- The round trip (42_reader.md R195, an inference of the spec): bytes written from a block boundary and flushed,
with zero padding on, are, for a key the cipher accepts, the bytes a reader with the same key reads from where the sink
stood, followed by the zeros of the padding. A bound writer's key is one (`StepKeepsBoundKeysValid`). -/
def Obligations.WrittenBytesAreReadBack : Prop :=
  ∀ (s : State) (n : Instance) (bytes : List Byte), State.cur? s = some n → n.w.bound = true → n.w.fault = false →
    n.w.closed = false → n.w.compat = false → n.w.fill = 0 → n.w.sink.plan = [] →
    n.w.ofs.toNat + bytes.length + bs ≤ maxOfs →
    ∃ (t₁ t₂ : State) (m : Instance),
      exec (.wWrite bytes.length) (State.withDin s bytes) = .next t₁ ∧
      exec .wFlush (State.withDin t₁ []) = .next t₂ ∧ State.cur? t₂ = some m ∧ m.w.regs.code = .ok ∧
      ∀ (u : State) (k : Instance), State.cur? u = some k → Reader.ready k.r → k.r.key = n.w.key → k.r.cur = -1 →
        k.r.source.plan = [] → k.r.source.mem = m.w.sink.mem → k.r.source.pos = n.w.sink.pos →
        ∃ (v : State) (l : Instance),
          exec (.rRead (m.w.sink.pos - n.w.sink.pos)) u = .next v ∧ State.cur? v = some l ∧ l.r.regs.code = .ok ∧
          (keyValid n.w.key = true → ∃ pad, pad < bs ∧ l.r.regs.dout = bytes ++ List.replicate pad 0)

/-! ### Program lines (30_encoding.md section 5) -/

/-- The long transfers expand to transfers of 65535 bytes each and one of the rest, omitted when there is none; together
they move the bytes in order, and a piece after the first is issued only if the piece before it finished OK
(30_encoding.md R94). That the host's queue holds such an action is the model's choice (log entry 1). -/
def Obligations.LongTransfersExpandToPieces : Prop :=
  (∀ bytes : List Byte,
    (Line.expand (.wWriteL bytes)).flatMap Line.din = bytes ∧
    (Line.expand (.wWriteL bytes)).map Line.instr? =
      List.replicate (bytes.length / 65535) (some (.wWrite 65535)) ++
        if bytes.length % 65535 = 0 then [] else [some (.wWrite (bytes.length % 65535))]) ∧
  (∀ n : Nat,
    (Line.expand (.rReadL n)).map Line.instr? =
      List.replicate (n / 65535) (some (.rRead 65535)) ++
        if n % 65535 = 0 then [] else [some (.rRead (n % 65535))]) ∧
  (∀ (k : Nat) (line first : Line) (rest : List Line), Line.expand line = first :: rest →
    assemble k [line] = Line.actions k first ++ (rest.flatMap (Line.actions k)).map HostOp.later) ∧
  ∀ (s : State) (k : Nat) (n : Instance) (e : Engine) (word : Word32) (din : List Byte) (ops : List HostOp),
    s.host = HostOp.later (.command k e word din) :: ops → s.insts[k]? = some n →
    step s = if Instance.lastCode n e = .ok then step { s with host := .command k e word din :: ops }
      else .next { s with host := ops }

/-- The other pseudo-instructions stand for the command, the operands and the data of one line (30_encoding.md R96), and
a patch line of each width for `ARG0`, `ARG1` and its command word (R95). -/
def Obligations.PseudoInstructionsExpand : Prop :=
  (∀ k, assemble k [.rRewind] = assemble k [.rSeek .start 0]) ∧
  (∀ k n, assemble k [.rSkip n] = assemble k [.rSeek .current n]) ∧
  (∀ k width off v, assemble k [.wPatchSigned width off v] = assemble k [.wPatchValue width off v]) ∧
  (∀ k b, assemble k [.wWriteBool b] = assemble k [.wWriteValue .w8 false (if b then 1 else 0)]) ∧
  ∀ p ∈ ([(.w8, 0x00000007#32), (.w16, 0x00000107#32), (.w32, 0x00000207#32), (.w64, 0x00000307#32)] :
      List (Width × Word32)), ∀ k off v, assemble k [.wPatchValue p.1 off v] =
    [.write k .writer 2#4 off, .write k .writer 3#4 v, .command k .writer p.2 []]
end

