-- ==== Sys2Proof/Laws/Block.lean ====
section
/-! SUPPORT. The laws of blocks and byte strings: a block as its bytes, what `blockPut` and `blockSlice` do to them, and
little-endian byte strings. -/

namespace Sys2Proof.Machine

open Sys2Proof.Config

@[simp] theorem blockBytes_length (b : Block) : (blockBytes b).length = bs := by simp [blockBytes]

theorem blockBytes_getElem (b : Block) (i : Nat) (h : i < (blockBytes b).length) :
    (blockBytes b)[i] = b[i]'(by simpa using h) := by
  have : i < bs := by simpa using h
  simp only [blockBytes, List.getElem_map, List.getElem_range]
  rw [Vector.getElem?_eq_getElem this]
  rfl

/-- A block is its bytes. -/
theorem blockBytes_injective {b c : Block} (h : blockBytes b = blockBytes c) : b = c := by
  ext i hi
  have hb := blockBytes_getElem b i (by simpa using hi)
  have hc := blockBytes_getElem c i (by simpa using hi)
  rw [← hb, ← hc]
  simp only [h]

/-- `b[f .. f + len(s)) <- s` byte by byte. -/
theorem blockPut_getElem (s : List Byte) (b : Block) (f i : Nat) (hi : i < bs) :
    (blockPut b f s)[i] = if h : f ≤ i ∧ i < f + s.length then s[i - f]'(by omega) else b[i] := by
  induction s generalizing b f with
  | nil =>
    simp only [blockPut, List.length_nil, Nat.add_zero]
    rw [dif_neg (by omega)]
  | cons x s ih =>
    rw [blockPut, ih]
    simp only [List.length_cons]
    by_cases h1 : f + 1 ≤ i ∧ i < f + 1 + s.length
    · rw [dif_pos h1, dif_pos (by omega)]
      simp only [show i - f = (i - (f + 1)) + 1 by omega, List.getElem_cons_succ]
    · rw [dif_neg h1]
      by_cases h2 : i = f
      · subst h2
        rw [dif_pos (by omega)]
        simp
      · rw [dif_neg (by omega)]
        simp [Ne.symm h2]

/-- The bytes of a block after a run of them was replaced. -/
theorem blockBytes_blockPut (b : Block) (f : Nat) (s : List Byte) (h : f + s.length ≤ bs) :
    blockBytes (blockPut b f s) = (blockBytes b).take f ++ s ++ (blockBytes b).drop (f + s.length) := by
  apply List.ext_getElem
  · simp; omega
  · intro i h1 h2
    have hi : i < bs := by simpa using h1
    rw [blockBytes_getElem _ _ h1, blockPut_getElem _ _ _ _ hi]
    split_ifs with hc
    · rw [List.getElem_append_left (by simp; omega), List.getElem_append_right (by simp; omega)]
      congr 1
      simp
      omega
    · by_cases hf : i < f
      · rw [List.getElem_append_left (by simp; omega), List.getElem_append_left (by simp; omega), List.getElem_take,
          blockBytes_getElem]
      · rw [List.getElem_append_right (by simp; omega), List.getElem_drop, blockBytes_getElem]
        congr 1
        simp
        omega

theorem blockPut_nil (b : Block) (f : Nat) : blockPut b f [] = b := rfl

/-- A byte string of a whole block is the block's bytes. -/
@[simp] theorem blockBytes_blockOfBytes {s : List Byte} (h : s.length = bs) : blockBytes (blockOfBytes s) = s := by
  rw [blockOfBytes, blockBytes_blockPut _ _ _ (by omega), h]
  simp

@[simp] theorem blockOfBytes_blockBytes (b : Block) : blockOfBytes (blockBytes b) = b :=
  blockBytes_injective (blockBytes_blockOfBytes (by simp))

theorem blockSlice_length (b : Block) (f k : Nat) : (blockSlice b f k).length = min k (bs - f) := by
  simp [blockSlice]

/-! ### The cipher -/

/-- The one law of the cipher, for the keys it accepts (00_scope.md R9). -/
theorem dec_enc {key : Word64} (h : keyValid key = true) (b : Block) : dec key (enc key b) = b := by
  simp [dec, enc, h]

/-- On a finite set of blocks the law makes decryption's inverse encryption too. -/
theorem enc_dec {key : Word64} (h : keyValid key = true) (b : Block) : enc key (dec key b) = b := by
  simp [dec, enc, h]

/-! ### Little-endian byte strings -/

@[simp] theorem leBytes_length (n : Nat) (v : Word64) : (leBytes n v).length = n := by simp [leBytes]

@[simp] theorem valueBytes_length (k : Width) (v : Word64) : (valueBytes k v).length = Width.bytes k := by
  simp [valueBytes]

theorem Width.bytes_pos (k : Width) : 0 < Width.bytes k := by cases k <;> decide

theorem Width.bytes_le_bs (k : Width) : Width.bytes k ≤ bs := by cases k <;> decide

@[simp] theorem patchPayload_length (k : Width) (v : Word64) : (patchPayload k v).length = bs := by
  have := Width.bytes_le_bs k
  simp only [patchPayload, List.length_append, valueBytes_length, List.length_replicate]
  omega

/-- A byte string of `n` bytes is worth less than 256^n. -/
theorem leValue_lt (s : List Byte) : leValue s < 256 ^ s.length := by
  induction s with
  | nil => simp [leValue]
  | cons b s ih =>
    have := b.isLt
    simp only [leValue, List.length_cons, pow_succ]
    omega

end Sys2Proof.Machine
end

