-- ==== Sys2Proof/Laws/State.lean ====
section
/-! SUPPORT. One lemma per field for each update of the state, true by unfolding, so that no later proof unfolds a record
update. -/

namespace Sys2Proof.Machine

open Sys2Proof.Config

/-! ### Finishing: the registers -/

@[simp] theorem HostRegs.finish_cmd (c : Code) (v : Word64) (d : List Byte) (g : HostRegs) :
    (HostRegs.finish c v d g).cmd = g.cmd := rfl

@[simp] theorem HostRegs.finish_arg0 (c : Code) (v : Word64) (d : List Byte) (g : HostRegs) :
    (HostRegs.finish c v d g).arg0 = g.arg0 := rfl

@[simp] theorem HostRegs.finish_arg1 (c : Code) (v : Word64) (d : List Byte) (g : HostRegs) :
    (HostRegs.finish c v d g).arg1 = g.arg1 := rfl

@[simp] theorem HostRegs.finish_result (c : Code) (v : Word64) (d : List Byte) (g : HostRegs) :
    (HostRegs.finish c v d g).result = v := rfl

@[simp] theorem HostRegs.finish_code (c : Code) (v : Word64) (d : List Byte) (g : HostRegs) :
    (HostRegs.finish c v d g).code = c := rfl

@[simp] theorem HostRegs.finish_din (c : Code) (v : Word64) (d : List Byte) (g : HostRegs) :
    (HostRegs.finish c v d g).din = g.din := rfl

@[simp] theorem HostRegs.finish_dout (c : Code) (v : Word64) (d : List Byte) (g : HostRegs) :
    (HostRegs.finish c v d g).dout = d := rfl

/-! ### Finishing a writer command -/

@[simp] theorem Writer.finish_regs (c : Code) (v : Word64) (w : Writer) :
    (Writer.finish c v w).regs = HostRegs.finish c v [] w.regs := rfl

@[simp] theorem Writer.finish_bound (c : Code) (v : Word64) (w : Writer) :
    (Writer.finish c v w).bound = w.bound := rfl

@[simp] theorem Writer.finish_key (c : Code) (v : Word64) (w : Writer) :
    (Writer.finish c v w).key = w.key := rfl

@[simp] theorem Writer.finish_ra (c : Code) (v : Word64) (w : Writer) :
    (Writer.finish c v w).ra = w.ra := rfl

@[simp] theorem Writer.finish_compat (c : Code) (v : Word64) (w : Writer) :
    (Writer.finish c v w).compat = w.compat := rfl

@[simp] theorem Writer.finish_buf (c : Code) (v : Word64) (w : Writer) :
    (Writer.finish c v w).buf = w.buf := rfl

@[simp] theorem Writer.finish_ofs (c : Code) (v : Word64) (w : Writer) :
    (Writer.finish c v w).ofs = w.ofs := rfl

@[simp] theorem Writer.finish_fill (c : Code) (v : Word64) (w : Writer) :
    (Writer.finish c v w).fill = w.fill := rfl

@[simp] theorem Writer.finish_crc (c : Code) (v : Word64) (w : Writer) :
    (Writer.finish c v w).crc = w.crc := rfl

@[simp] theorem Writer.finish_closed (c : Code) (v : Word64) (w : Writer) :
    (Writer.finish c v w).closed = w.closed := rfl

@[simp] theorem Writer.finish_fault (c : Code) (v : Word64) (w : Writer) :
    (Writer.finish c v w).fault = w.fault := rfl

@[simp] theorem Writer.finish_resv (c : Code) (v : Word64) (w : Writer) :
    (Writer.finish c v w).resv = w.resv := rfl

@[simp] theorem Writer.finish_sinkLen (c : Code) (v : Word64) (w : Writer) :
    (Writer.finish c v w).sinkLen = w.sinkLen := rfl

@[simp] theorem Writer.finish_sink (c : Code) (v : Word64) (w : Writer) :
    (Writer.finish c v w).sink = w.sink := rfl

@[simp] theorem Writer.finish_draw (c : Code) (v : Word64) (w : Writer) :
    (Writer.finish c v w).draw = w.draw := rfl

/-! ### Finishing a reader command -/

@[simp] theorem Reader.finish_regs (c : Code) (v : Word64) (d : List Byte) (r : Reader) :
    (Reader.finish c v d r).regs = HostRegs.finish c v d r.regs := rfl

@[simp] theorem Reader.finish_bound (c : Code) (v : Word64) (d : List Byte) (r : Reader) :
    (Reader.finish c v d r).bound = r.bound := rfl

@[simp] theorem Reader.finish_key (c : Code) (v : Word64) (d : List Byte) (r : Reader) :
    (Reader.finish c v d r).key = r.key := rfl

@[simp] theorem Reader.finish_seek (c : Code) (v : Word64) (d : List Byte) (r : Reader) :
    (Reader.finish c v d r).seek = r.seek := rfl

@[simp] theorem Reader.finish_fault (c : Code) (v : Word64) (d : List Byte) (r : Reader) :
    (Reader.finish c v d r).fault = r.fault := rfl

@[simp] theorem Reader.finish_buf (c : Code) (v : Word64) (d : List Byte) (r : Reader) :
    (Reader.finish c v d r).buf = r.buf := rfl

@[simp] theorem Reader.finish_cur (c : Code) (v : Word64) (d : List Byte) (r : Reader) :
    (Reader.finish c v d r).cur = r.cur := rfl

@[simp] theorem Reader.finish_source (c : Code) (v : Word64) (d : List Byte) (r : Reader) :
    (Reader.finish c v d r).source = r.source := rfl

@[simp] theorem Reader.finish_stream (c : Code) (v : Word64) (d : List Byte) (r : Reader) :
    (Reader.finish c v d r).stream = r.stream ++ d := rfl

@[simp] theorem Reader.finish_draw (c : Code) (v : Word64) (d : List Byte) (r : Reader) :
    (Reader.finish c v d r).draw = r.draw := rfl

/-! ### A writer fault -/

@[simp] theorem Writer.takeFault_regs (w : Writer) :
    (Writer.takeFault w).regs = w.regs := rfl

@[simp] theorem Writer.takeFault_bound (w : Writer) :
    (Writer.takeFault w).bound = w.bound := rfl

@[simp] theorem Writer.takeFault_key (w : Writer) :
    (Writer.takeFault w).key = w.key := rfl

@[simp] theorem Writer.takeFault_ra (w : Writer) :
    (Writer.takeFault w).ra = w.ra := rfl

@[simp] theorem Writer.takeFault_compat (w : Writer) :
    (Writer.takeFault w).compat = w.compat := rfl

@[simp] theorem Writer.takeFault_buf (w : Writer) :
    (Writer.takeFault w).buf = freeBuf w.draw := rfl

@[simp] theorem Writer.takeFault_ofs (w : Writer) :
    (Writer.takeFault w).ofs = freeOfs w.draw := rfl

@[simp] theorem Writer.takeFault_fill (w : Writer) :
    (Writer.takeFault w).fill = (freeFill w.draw).val := rfl

@[simp] theorem Writer.takeFault_crc (w : Writer) :
    (Writer.takeFault w).crc = freeCrc w.draw := rfl

@[simp] theorem Writer.takeFault_closed (w : Writer) :
    (Writer.takeFault w).closed = w.closed := rfl

@[simp] theorem Writer.takeFault_fault (w : Writer) :
    (Writer.takeFault w).fault = true := rfl

@[simp] theorem Writer.takeFault_resv (w : Writer) :
    (Writer.takeFault w).resv = freeResv w.draw := rfl

@[simp] theorem Writer.takeFault_sinkLen (w : Writer) :
    (Writer.takeFault w).sinkLen = w.sinkLen := rfl

@[simp] theorem Writer.takeFault_sink (w : Writer) :
    (Writer.takeFault w).sink = w.sink := rfl

@[simp] theorem Writer.takeFault_draw (w : Writer) :
    (Writer.takeFault w).draw = w.draw.next := rfl

/-! ### A reader fault -/

@[simp] theorem Reader.takeFault_regs (c : Code) (r : Reader) :
    (Reader.takeFault c r).regs = r.regs := rfl

@[simp] theorem Reader.takeFault_bound (c : Code) (r : Reader) :
    (Reader.takeFault c r).bound = r.bound := rfl

@[simp] theorem Reader.takeFault_key (c : Code) (r : Reader) :
    (Reader.takeFault c r).key = r.key := rfl

@[simp] theorem Reader.takeFault_seek (c : Code) (r : Reader) :
    (Reader.takeFault c r).seek = r.seek := rfl

@[simp] theorem Reader.takeFault_fault (c : Code) (r : Reader) :
    (Reader.takeFault c r).fault = true := rfl

@[simp] theorem Reader.takeFault_buf (c : Code) (r : Reader) :
    (Reader.takeFault c r).buf = freeBuf r.draw := rfl

@[simp] theorem Reader.takeFault_cur (c : Code) (r : Reader) :
    (Reader.takeFault c r).cur = if c = Code.undefined then ((freeCur r.draw).val : Int) - 1 else r.cur := rfl

@[simp] theorem Reader.takeFault_source (c : Code) (r : Reader) :
    (Reader.takeFault c r).source = r.source := rfl

@[simp] theorem Reader.takeFault_stream (c : Code) (r : Reader) :
    (Reader.takeFault c r).stream = r.stream := rfl

@[simp] theorem Reader.takeFault_draw (c : Code) (r : Reader) :
    (Reader.takeFault c r).draw = r.draw.next := rfl

/-! ### The first lines of a bind -/

@[simp] theorem Writer.unbind_regs (w : Writer) :
    (Writer.unbind w).regs = w.regs := rfl

@[simp] theorem Writer.unbind_bound (w : Writer) :
    (Writer.unbind w).bound = false := rfl

@[simp] theorem Writer.unbind_key (w : Writer) :
    (Writer.unbind w).key = w.key := rfl

@[simp] theorem Writer.unbind_ra (w : Writer) :
    (Writer.unbind w).ra = false := rfl

@[simp] theorem Writer.unbind_compat (w : Writer) :
    (Writer.unbind w).compat = false := rfl

@[simp] theorem Writer.unbind_buf (w : Writer) :
    (Writer.unbind w).buf = zeroBlock := rfl

@[simp] theorem Writer.unbind_ofs (w : Writer) :
    (Writer.unbind w).ofs = 0 := rfl

@[simp] theorem Writer.unbind_fill (w : Writer) :
    (Writer.unbind w).fill = 0 := rfl

@[simp] theorem Writer.unbind_crc (w : Writer) :
    (Writer.unbind w).crc = crcInit := rfl

@[simp] theorem Writer.unbind_closed (w : Writer) :
    (Writer.unbind w).closed = false := rfl

@[simp] theorem Writer.unbind_fault (w : Writer) :
    (Writer.unbind w).fault = false := rfl

@[simp] theorem Writer.unbind_resv (w : Writer) :
    (Writer.unbind w).resv = [] := rfl

@[simp] theorem Writer.unbind_sinkLen (w : Writer) :
    (Writer.unbind w).sinkLen = 0 := rfl

@[simp] theorem Writer.unbind_sink (w : Writer) :
    (Writer.unbind w).sink = w.sink := rfl

@[simp] theorem Writer.unbind_draw (w : Writer) :
    (Writer.unbind w).draw = w.draw := rfl

/-! ### The addressed instance -/

@[simp] theorem State.setCur_insts (s : State) (n : Instance) :
    (State.setCur s n).insts = s.insts.set s.sel n := rfl

@[simp] theorem State.setCur_sel (s : State) (n : Instance) :
    (State.setCur s n).sel = s.sel := rfl

@[simp] theorem State.setCur_host (s : State) (n : Instance) :
    (State.setCur s n).host = s.host := rfl

@[simp] theorem State.setCur_hostData (s : State) (n : Instance) :
    (State.setCur s n).hostData = s.hostData := rfl

@[simp] theorem State.setW_insts (s : State) (n : Instance) (w : Writer) :
    (State.setW s n w).insts = s.insts.set s.sel { n with w := w } := rfl

@[simp] theorem State.setW_sel (s : State) (n : Instance) (w : Writer) :
    (State.setW s n w).sel = s.sel := rfl

@[simp] theorem State.setW_host (s : State) (n : Instance) (w : Writer) :
    (State.setW s n w).host = s.host := rfl

@[simp] theorem State.setW_hostData (s : State) (n : Instance) (w : Writer) :
    (State.setW s n w).hostData = s.hostData := rfl

@[simp] theorem State.setR_insts (s : State) (n : Instance) (r : Reader) :
    (State.setR s n r).insts = s.insts.set s.sel { n with r := r } := rfl

@[simp] theorem State.setR_sel (s : State) (n : Instance) (r : Reader) :
    (State.setR s n r).sel = s.sel := rfl

@[simp] theorem State.setR_host (s : State) (n : Instance) (r : Reader) :
    (State.setR s n r).host = s.host := rfl

@[simp] theorem State.setR_hostData (s : State) (n : Instance) (r : Reader) :
    (State.setR s n r).hostData = s.hostData := rfl

/-! ### Reset -/

@[simp] theorem Writer.resetWith_regs (k : Sink) (d : DrawKey) :
    (Writer.resetWith k d).regs = HostRegs.reset := rfl

@[simp] theorem Writer.resetWith_bound (k : Sink) (d : DrawKey) :
    (Writer.resetWith k d).bound = false := rfl

@[simp] theorem Writer.resetWith_key (k : Sink) (d : DrawKey) :
    (Writer.resetWith k d).key = 0 := rfl

@[simp] theorem Writer.resetWith_ra (k : Sink) (d : DrawKey) :
    (Writer.resetWith k d).ra = false := rfl

@[simp] theorem Writer.resetWith_compat (k : Sink) (d : DrawKey) :
    (Writer.resetWith k d).compat = false := rfl

@[simp] theorem Writer.resetWith_buf (k : Sink) (d : DrawKey) :
    (Writer.resetWith k d).buf = zeroBlock := rfl

@[simp] theorem Writer.resetWith_ofs (k : Sink) (d : DrawKey) :
    (Writer.resetWith k d).ofs = 0 := rfl

@[simp] theorem Writer.resetWith_fill (k : Sink) (d : DrawKey) :
    (Writer.resetWith k d).fill = 0 := rfl

@[simp] theorem Writer.resetWith_crc (k : Sink) (d : DrawKey) :
    (Writer.resetWith k d).crc = crcInit := rfl

@[simp] theorem Writer.resetWith_closed (k : Sink) (d : DrawKey) :
    (Writer.resetWith k d).closed = false := rfl

@[simp] theorem Writer.resetWith_fault (k : Sink) (d : DrawKey) :
    (Writer.resetWith k d).fault = false := rfl

@[simp] theorem Writer.resetWith_resv (k : Sink) (d : DrawKey) :
    (Writer.resetWith k d).resv = [] := rfl

@[simp] theorem Writer.resetWith_sinkLen (k : Sink) (d : DrawKey) :
    (Writer.resetWith k d).sinkLen = 0 := rfl

@[simp] theorem Writer.resetWith_sink (k : Sink) (d : DrawKey) :
    (Writer.resetWith k d).sink = k := rfl

@[simp] theorem Writer.resetWith_draw (k : Sink) (d : DrawKey) :
    (Writer.resetWith k d).draw = d := rfl

@[simp] theorem Reader.resetWith_regs (c : Source) (l : List Byte) (d : DrawKey) :
    (Reader.resetWith c l d).regs = HostRegs.reset := rfl

@[simp] theorem Reader.resetWith_bound (c : Source) (l : List Byte) (d : DrawKey) :
    (Reader.resetWith c l d).bound = false := rfl

@[simp] theorem Reader.resetWith_key (c : Source) (l : List Byte) (d : DrawKey) :
    (Reader.resetWith c l d).key = 0 := rfl

@[simp] theorem Reader.resetWith_seek (c : Source) (l : List Byte) (d : DrawKey) :
    (Reader.resetWith c l d).seek = false := rfl

@[simp] theorem Reader.resetWith_fault (c : Source) (l : List Byte) (d : DrawKey) :
    (Reader.resetWith c l d).fault = false := rfl

@[simp] theorem Reader.resetWith_buf (c : Source) (l : List Byte) (d : DrawKey) :
    (Reader.resetWith c l d).buf = zeroBlock := rfl

@[simp] theorem Reader.resetWith_cur (c : Source) (l : List Byte) (d : DrawKey) :
    (Reader.resetWith c l d).cur = -1 := rfl

@[simp] theorem Reader.resetWith_source (c : Source) (l : List Byte) (d : DrawKey) :
    (Reader.resetWith c l d).source = c := rfl

@[simp] theorem Reader.resetWith_stream (c : Source) (l : List Byte) (d : DrawKey) :
    (Reader.resetWith c l d).stream = l := rfl

@[simp] theorem Reader.resetWith_draw (c : Source) (l : List Byte) (d : DrawKey) :
    (Reader.resetWith c l d).draw = d := rfl

/-! ### The addressed instance after it was replaced -/

theorem State.cur?_eq_some {s : State} {n : Instance} (h : State.cur? s = some n) : s.sel < s.insts.length := by
  unfold State.cur? at h
  exact (List.getElem?_eq_some_iff.1 h).1

@[simp] theorem State.cur?_setCur {s : State} {n : Instance} (h : State.cur? s = some n) (m : Instance) :
    State.cur? (State.setCur s m) = some m := by
  simp [State.cur?, State.setCur, State.cur?_eq_some h]

@[simp] theorem State.cur?_setW {s : State} {n : Instance} (h : State.cur? s = some n) (w : Writer) :
    State.cur? (State.setW s n w) = some { n with w := w } := State.cur?_setCur h _

@[simp] theorem State.cur?_setR {s : State} {n : Instance} (h : State.cur? s = some n) (r : Reader) :
    State.cur? (State.setR s n r) = some { n with r := r } := State.cur?_setCur h _

@[simp] theorem State.setCur_setCur (s : State) (n m : Instance) :
    State.setCur (State.setCur s n) m = State.setCur s m := by
  simp [State.setCur]

@[simp] theorem State.setW_setW (s : State) (n : Instance) (w w' : Writer) :
    State.setW (State.setW s n w) { n with w := w } w' = State.setW s n w' := by
  simp [State.setW]

/-- Replacing the addressed instance leaves every other instance alone (60_exceptions.md R239). -/
theorem State.setCur_insts_other (s : State) (n : Instance) {k : Nat} (h : k ≠ s.sel) :
    (State.setCur s n).insts[k]? = s.insts[k]? := by
  simp [State.setCur, Ne.symm h]

/-- The draw keys of an engine never come back (log entry 9). -/
theorem DrawKey.next_ne (k : DrawKey) : k.next ≠ k := by
  intro h
  have := congrArg DrawKey.count h
  simp [DrawKey.next] at this

end Sys2Proof.Machine
end

