-- ==== Sys2Proof/Laws/Ops.lean ====
section
/-! SUPPORT. What each shared operation can do, said once: admission, raising a code, and the port operations. Later
proofs cite these and unfold none of the operations. -/

namespace Sys2Proof.Machine

open Sys2Proof.Config

/-! ### Raising a code -/

theorem Writer.raise_of_setsFault {c : Code} (h : Code.setsFault c = true) (v : Word64) (w : Writer) :
    Writer.raise c v w = Writer.takeFault (Writer.finish c v w) := if_pos h

theorem Writer.raise_of_not_setsFault {c : Code} (h : Code.setsFault c = false) (v : Word64) (w : Writer) :
    Writer.raise c v w = Writer.finish c v w := if_neg (by simp [h])

/-- Whatever the code, raising it leaves the registers of a finished command and sets the fault bit as the code says. -/
@[simp] theorem Writer.raise_regs (c : Code) (v : Word64) (w : Writer) :
    (Writer.raise c v w).regs = HostRegs.finish c v [] w.regs := by
  unfold Writer.raise; split <;> rfl

@[simp] theorem Writer.raise_fault (c : Code) (v : Word64) (w : Writer) :
    (Writer.raise c v w).fault = (Code.setsFault c || w.fault) := by
  unfold Writer.raise; cases h : Code.setsFault c <;> simp

@[simp] theorem Writer.raise_bound (c : Code) (v : Word64) (w : Writer) : (Writer.raise c v w).bound = w.bound := by
  unfold Writer.raise; split <;> rfl

@[simp] theorem Writer.raise_key (c : Code) (v : Word64) (w : Writer) : (Writer.raise c v w).key = w.key := by
  unfold Writer.raise; split <;> rfl

@[simp] theorem Writer.raise_ra (c : Code) (v : Word64) (w : Writer) : (Writer.raise c v w).ra = w.ra := by
  unfold Writer.raise; split <;> rfl

@[simp] theorem Writer.raise_compat (c : Code) (v : Word64) (w : Writer) : (Writer.raise c v w).compat = w.compat := by
  unfold Writer.raise; split <;> rfl

@[simp] theorem Writer.raise_closed (c : Code) (v : Word64) (w : Writer) : (Writer.raise c v w).closed = w.closed := by
  unfold Writer.raise; split <;> rfl

@[simp] theorem Writer.raise_sinkLen (c : Code) (v : Word64) (w : Writer) :
    (Writer.raise c v w).sinkLen = w.sinkLen := by
  unfold Writer.raise; split <;> rfl

@[simp] theorem Writer.raise_sink (c : Code) (v : Word64) (w : Writer) : (Writer.raise c v w).sink = w.sink := by
  unfold Writer.raise; split <;> rfl

theorem Reader.raise_of_setsFault {c : Code} (h : Code.setsFault c = true) (v : Word64) (d : List Byte) (r : Reader) :
    Reader.raise c v d r = Reader.takeFault c (Reader.finish c v d r) := if_pos h

theorem Reader.raise_of_not_setsFault {c : Code} (h : Code.setsFault c = false) (v : Word64) (d : List Byte)
    (r : Reader) : Reader.raise c v d r = Reader.finish c v d r := if_neg (by simp [h])

@[simp] theorem Reader.raise_regs (c : Code) (v : Word64) (d : List Byte) (r : Reader) :
    (Reader.raise c v d r).regs = HostRegs.finish c v d r.regs := by
  unfold Reader.raise; split <;> rfl

@[simp] theorem Reader.raise_fault (c : Code) (v : Word64) (d : List Byte) (r : Reader) :
    (Reader.raise c v d r).fault = (Code.setsFault c || r.fault) := by
  unfold Reader.raise; cases h : Code.setsFault c <;> simp

@[simp] theorem Reader.raise_bound (c : Code) (v : Word64) (d : List Byte) (r : Reader) :
    (Reader.raise c v d r).bound = r.bound := by
  unfold Reader.raise; split <;> rfl

@[simp] theorem Reader.raise_key (c : Code) (v : Word64) (d : List Byte) (r : Reader) :
    (Reader.raise c v d r).key = r.key := by
  unfold Reader.raise; split <;> rfl

@[simp] theorem Reader.raise_seek (c : Code) (v : Word64) (d : List Byte) (r : Reader) :
    (Reader.raise c v d r).seek = r.seek := by
  unfold Reader.raise; split <;> rfl

@[simp] theorem Reader.raise_source (c : Code) (v : Word64) (d : List Byte) (r : Reader) :
    (Reader.raise c v d r).source = r.source := by
  unfold Reader.raise; split <;> rfl

@[simp] theorem Reader.raise_stream (c : Code) (v : Word64) (d : List Byte) (r : Reader) :
    (Reader.raise c v d r).stream = r.stream ++ d := by
  unfold Reader.raise; split <;> rfl

/-- Raising a code other than UNDEFINED leaves `R.CUR` where the pseudocode put it (log entry 10). -/
theorem Reader.raise_cur {c : Code} (h : c ≠ Code.undefined) (v : Word64) (d : List Byte) (r : Reader) :
    (Reader.raise c v d r).cur = r.cur := by
  unfold Reader.raise; split <;> simp [h]

/-- Raising any code keeps the cursor in its range. -/
theorem Reader.raise_cur_range (c : Code) (v : Word64) (d : List Byte) (r : Reader) (h : -1 ≤ r.cur ∧ r.cur ≤ bs) :
    -1 ≤ (Reader.raise c v d r).cur ∧ (Reader.raise c v d r).cur ≤ bs := by
  by_cases hc : c = Code.undefined
  · subst hc
    rw [Reader.raise_of_setsFault rfl]
    have := (freeCur (Reader.finish Code.undefined v d r).draw).isLt
    simp only [Reader.takeFault_cur, if_pos]
    omega
  · rwa [Reader.raise_cur hc]

/-! ### Admission -/

/-- A writer command that is no bind, on an admitted writer with the right `DIN`, takes the next state of its rule. -/
theorem runWriter_of_ready {need : Nat} {f : Writer → Writer} {s : State} {n : Instance} (h : State.cur? s = some n)
    (hr : Writer.ready n.w need) : runWriter need f s = .next (State.setW s n (f n.w)) := by
  obtain ⟨hb, hf, hd⟩ := hr
  simp [runWriter, h, hb, hf, hd]

/-- All a writer command that is no bind can come to when it goes on. -/
theorem runWriter_next {need : Nat} {f : Writer → Writer} {s t : State} (h : runWriter need f s = .next t) :
    ∃ n, State.cur? s = some n ∧
      ((n.w.bound = false ∧ t = State.setW s n (Writer.raise .notBound 0 n.w)) ∨
       (n.w.bound = true ∧ n.w.fault = true ∧ t = State.setW s n (Writer.raise .faulted 0 n.w)) ∨
       (Writer.ready n.w need ∧ t = State.setW s n (f n.w))) := by
  unfold runWriter at h
  cases hc : State.cur? s with
  | none => simp [hc] at h
  | some n =>
    simp only [hc] at h
    refine ⟨n, rfl, ?_⟩
    split_ifs at h with hb hf hd
    · exact .inl ⟨hb, (by simpa using h.symm)⟩
    · exact .inr (.inl ⟨by simpa using hb, hf, by simpa using h.symm⟩)
    · exact .inr (.inr ⟨⟨by simpa using hb, by simpa using hf, hd⟩, by simpa using h.symm⟩)

/-- A writer's bind, with no `DIN`, takes the next state of its rule. -/
theorem bindWriter_of_din {f : Writer → Writer} {s : State} {n : Instance} (h : State.cur? s = some n)
    (hd : n.w.regs.din = []) : bindWriter f s = .next (State.setW s n (f n.w)) := by
  simp [bindWriter, h, hd]

/-- All a writer's bind can come to when it goes on. -/
theorem bindWriter_next {f : Writer → Writer} {s t : State} (h : bindWriter f s = .next t) :
    ∃ n, State.cur? s = some n ∧ n.w.regs.din = [] ∧ t = State.setW s n (f n.w) := by
  unfold bindWriter at h
  cases hc : State.cur? s with
  | none => simp [hc] at h
  | some n =>
    simp only [hc] at h
    split_ifs at h with hd
    exact ⟨n, rfl, by simpa using hd, by simpa using h.symm⟩

/-- A reader command that is no bind, on an admitted reader, takes the next state of its rule. -/
theorem runReader_of_ready {f : Reader → Reader} {s : State} {n : Instance} (h : State.cur? s = some n)
    (hr : Reader.ready n.r) : runReader f s = .next (State.setR s n (f n.r)) := by
  obtain ⟨hb, hf, hd⟩ := hr
  simp [runReader, h, hb, hf, hd]

/-- All a reader command that is no bind can come to when it goes on. -/
theorem runReader_next {f : Reader → Reader} {s t : State} (h : runReader f s = .next t) :
    ∃ n, State.cur? s = some n ∧
      ((n.r.bound = false ∧ t = State.setR s n (Reader.raise .notBound 0 [] n.r)) ∨
       (n.r.bound = true ∧ n.r.fault = true ∧ t = State.setR s n (Reader.raise .faulted 0 [] n.r)) ∨
       (Reader.ready n.r ∧ t = State.setR s n (f n.r))) := by
  unfold runReader at h
  cases hc : State.cur? s with
  | none => simp [hc] at h
  | some n =>
    simp only [hc] at h
    refine ⟨n, rfl, ?_⟩
    split_ifs at h with hb hf hd
    · exact .inl ⟨hb, (by simpa using h.symm)⟩
    · exact .inr (.inl ⟨by simpa using hb, hf, by simpa using h.symm⟩)
    · exact .inr (.inr ⟨⟨by simpa using hb, by simpa using hf, by simpa using hd⟩, by simpa using h.symm⟩)

/-- A reader's bind, with no `DIN`, takes the next state of its rule. -/
theorem bindReader_of_din {f : Reader → Reader} {s : State} {n : Instance} (h : State.cur? s = some n)
    (hd : n.r.regs.din = []) : bindReader f s = .next (State.setR s n (f n.r)) := by
  simp [bindReader, h, hd]

/-- All a reader's bind can come to when it goes on. -/
theorem bindReader_next {f : Reader → Reader} {s t : State} (h : bindReader f s = .next t) :
    ∃ n, State.cur? s = some n ∧ n.r.regs.din = [] ∧ t = State.setR s n (f n.r) := by
  unfold bindReader at h
  cases hc : State.cur? s with
  | none => simp [hc] at h
  | some n =>
    simp only [hc] at h
    split_ifs at h with hd
    exact ⟨n, rfl, by simpa using hd, by simpa using h.symm⟩

/-! ### The ports -/

theorem obeysNext.nextAnswer {plan : List PortAnswer} {m : Nat} (h : obeysNext plan m) (hm : 0 < m) :
    nextAnswer plan = .obey := by
  obtain ⟨m, rfl⟩ : ∃ k, m = k + 1 := ⟨m - 1, by omega⟩
  cases plan with
  | nil => rfl
  | cons a plan => exact h a (by simp)

theorem obeysNext.tail {plan : List PortAnswer} {m : Nat} (h : obeysNext plan (m + 1)) : obeysNext plan.tail m := by
  intro a ha
  cases plan with
  | nil => simp at ha
  | cons b plan => exact h a (by simp only [List.take_succ_cons, List.mem_cons]; exact .inr ha)

theorem obeysNext.mono {plan : List PortAnswer} {m k : Nat} (h : obeysNext plan m) (hk : k ≤ m) : obeysNext plan k :=
  fun a ha => h a (by
    rw [show plan.take k = (plan.take m).take k by rw [List.take_take, min_eq_left hk]] at ha
    exact List.mem_of_mem_take ha)

theorem obeysNext.drop {plan : List PortAnswer} {m k : Nat} (h : obeysNext plan (m + k)) : obeysNext (plan.drop m) k := by
  induction m generalizing plan with
  | zero => simpa using h
  | succ m ih =>
    have := ih (plan := plan.tail) (obeysNext.tail (by simpa [Nat.add_right_comm] using h))
    simpa using this

/-- `SinkWrite` over a sink that obeys (20_memory.md R52). -/
theorem Writer.sinkWrite_obey {w : Writer} (h : nextAnswer w.sink.plan = .obey) (s : List Byte) :
    Writer.sinkWrite w s = .go { w with
      sink := { w.sink with
        mem := Memory.write w.sink.mem w.sink.pos s
        pos := w.sink.pos + s.length
        plan := w.sink.plan.drop 1 }
      sinkLen := w.sinkLen + s.length } := by
  simp [Writer.sinkWrite, h]

/-- `SinkWriteAt` over a sink that obeys (20_memory.md R53). -/
theorem Writer.sinkWriteAt_obey {w : Writer} (h : nextAnswer w.sink.plan = .obey) (off : Nat) (s : List Byte) :
    Writer.sinkWriteAt w off s = .go { w with
      sink := { w.sink with mem := Memory.writeAt w.sink.mem off s, plan := w.sink.plan.drop 1 } } := by
  simp [Writer.sinkWriteAt, h]

/-- `SinkWrite` over a sink that fails raises IO_ERROR (20_memory.md R52; 60_exceptions.md R222). -/
theorem Writer.sinkWrite_fail {w : Writer} (h : nextAnswer w.sink.plan = .fail) (s : List Byte) :
    Writer.sinkWrite w s = .stop .ioError { w with
      sink := { w.sink with
        mem := Memory.ofCells (freeCells w.draw)
        pos := freePos w.draw
        plan := w.sink.plan.drop 1 }
      draw := w.draw.next } := by
  simp [Writer.sinkWrite, h]

/-- `SinkWriteAt` over a sink that fails raises IO_ERROR (20_memory.md R53; 60_exceptions.md R222). -/
theorem Writer.sinkWriteAt_fail {w : Writer} (h : nextAnswer w.sink.plan = .fail) (off : Nat) (s : List Byte) :
    Writer.sinkWriteAt w off s = .stop .ioError { w with
      sink := { w.sink with
        mem := Memory.scramble w.sink.mem off s.length (freeCells w.draw)
        plan := w.sink.plan.drop 1 }
      draw := w.draw.next } := by
  simp [Writer.sinkWriteAt, h]

theorem nextAnswer_cases (plan : List PortAnswer) : nextAnswer plan = .obey ∨ nextAnswer plan = .fail := by
  cases nextAnswer plan <;> simp

end Sys2Proof.Machine
end

