-- ==== Sys2Proof/Laws/Exec.lean ====
section
/-! SUPPORT. What `exec` is for every command: a bind, or a command that passes admission and runs its rule. Statements
about all commands cite `exec_cases` and unfold no meaning. -/

namespace Sys2Proof.Machine

open Sys2Proof.Config

/-- The rule of a writer command that is no bind (41_writer.md). -/
def writerRule : Instr → Writer → Writer
  | .wWrite _ => fun w => Writer.write w.regs.din w
  | .wWriteU8 | .wWriteI8 => Writer.writeValue .w8
  | .wWriteU16 | .wWriteI16 => Writer.writeValue .w16
  | .wWriteU32 | .wWriteI32 => Writer.writeValue .w32
  | .wWriteU64 | .wWriteI64 => Writer.writeValue .w64
  | .wFlush => Writer.flushCommand
  | .wClose => Writer.close
  | .wReserve => Writer.reserve
  | .wPatchBlock => fun w => Writer.patch w.regs.din w
  | .wPatchU8 => Writer.patchValue .w8
  | .wPatchU16 => Writer.patchValue .w16
  | .wPatchU32 => Writer.patchValue .w32
  | .wPatchU64 => Writer.patchValue .w64
  | .wChecksum => fun w => Writer.finish .ok ((crcVisible w.crc).setWidth 64) w
  | .wResetChecksum => fun w => Writer.finish .ok 0 { w with crc := crcInit }
  | .wBytesWritten => fun w => Writer.finish .ok w.ofs w
  | _ => id

/-- The rule of a reader command that is no bind (42_reader.md). -/
def readerRule : Instr → Reader → Reader
  | .rRead n => Reader.read n
  | .rReadU8 => Reader.readValue .w8 false
  | .rReadI8 => Reader.readValue .w8 true
  | .rReadU16 => Reader.readValue .w16 false
  | .rReadI16 => Reader.readValue .w16 true
  | .rReadU32 => Reader.readValue .w32 false
  | .rReadI32 => Reader.readValue .w32 true
  | .rReadU64 => Reader.readValue .w64 false
  | .rReadI64 => Reader.readValue .w64 true
  | .rBuffered => fun r => Reader.finish .ok (BitVec.ofNat 64 (Reader.buffered r)) [] r
  | .rAlign => Reader.align
  | .rReadAligned => Reader.readAligned
  | .rSeekSet => Reader.seekTo .start
  | .rSeekCur => Reader.seekTo .current
  | .rSeekEnd => Reader.seekTo .fromEnd
  | _ => id

/-- Every command is a bind of its engine, or an admitted command of its engine with its own rule. -/
theorem exec_cases (i : Instr) :
    (∃ c, i = .wBind c ∧ ∀ s, exec i s = bindWriter (Writer.bind c) s) ∨
    (Instr.engine i = .writer ∧ isBind i = false ∧ ∀ s, exec i s = runWriter (Instr.dinBytes i) (writerRule i) s) ∨
    (i = .rBind ∧ ∀ s, exec i s = bindReader Reader.bind s) ∨
    (Instr.engine i = .reader ∧ isBind i = false ∧ Instr.dinBytes i = 0 ∧
      ∀ s, exec i s = runReader (readerRule i) s) := by
  cases i
  case wBind c => exact .inl ⟨c, rfl, fun _ => rfl⟩
  case rBind => exact .inr (.inr (.inl ⟨rfl, fun _ => rfl⟩))
  all_goals first
    | exact .inr (.inl ⟨rfl, rfl, fun _ => rfl⟩)
    | exact .inr (.inr (.inr ⟨rfl, rfl, rfl, fun _ => rfl⟩))

/-- A writer command that is no bind, admitted with its `DIN`, takes the next state of its rule. -/
theorem exec_writer_of_ready {i : Instr} {s : State} {n : Instance} (he : Instr.engine i = .writer)
    (hb : isBind i = false) (hc : State.cur? s = some n) (hr : Writer.ready n.w (Instr.dinBytes i)) :
    exec i s = .next (State.setW s n (writerRule i n.w)) := by
  rcases exec_cases i with ⟨c, rfl, -⟩ | ⟨-, -, h⟩ | ⟨rfl, -⟩ | ⟨he', -⟩
  · cases hb
  · rw [h, runWriter_of_ready hc hr]
  · cases he
  · rw [he] at he'; cases he'

/-- A reader command that is no bind, admitted, takes the next state of its rule. -/
theorem exec_reader_of_ready {i : Instr} {s : State} {n : Instance} (he : Instr.engine i = .reader)
    (hb : isBind i = false) (hc : State.cur? s = some n) (hr : Reader.ready n.r) :
    exec i s = .next (State.setR s n (readerRule i n.r)) := by
  rcases exec_cases i with ⟨c, rfl, -⟩ | ⟨he', -⟩ | ⟨rfl, -⟩ | ⟨-, -, -, h⟩
  · cases hb
  · rw [he] at he'; cases he'
  · cases hb
  · rw [h, runReader_of_ready hc hr]

/-! ### The addressed instance after a change -/

/-- The instance put in the addressed place stands there. -/
theorem cur?_setCur {s : State} {n : Instance} (h : State.cur? s = some n) (m : Instance) :
    State.cur? (State.setCur s m) = some m := by
  have hlt : s.sel < s.insts.length := by
    by_contra hc
    simp only [State.cur?, List.getElem?_eq_none (Nat.le_of_not_lt hc)] at h
    cases h
  simp [State.cur?, State.setCur, hlt]

theorem cur?_setW {s : State} {n : Instance} (h : State.cur? s = some n) (m : Instance) (w : Writer) :
    State.cur? (State.setW s m w) = some { m with w := w } := cur?_setCur h _

theorem cur?_setR {s : State} {n : Instance} (h : State.cur? s = some n) (m : Instance) (r : Reader) :
    State.cur? (State.setR s m r) = some { m with r := r } := cur?_setCur h _

end Sys2Proof.Machine
end

