-- ==== Sys2Proof/Laws/Memory.lean ====
section
/-! SUPPORT. The laws of the byte spaces: what reads back after a write, that a write leaves every other offset alone,
and that every operation keeps the canonical form. -/

namespace Sys2Proof.Machine

/-! ### Reading after a write -/

@[simp] theorem Memory.read_set_same (m : Memory) (a : Nat) (b : Byte) : Memory.read (Memory.set m a b) a = some b := by
  induction m with
  | nil => simp [Memory.set, Memory.read]
  | cons c rest ih =>
    obtain ⟨c, x⟩ := c
    simp only [Memory.set]
    split_ifs with h1 h2
    · simp [Memory.read]
    · simp [Memory.read]
    · simp [Memory.read, h2, ih]

theorem Memory.read_set_other (m : Memory) {a c : Nat} (b : Byte) (h : c ≠ a) :
    Memory.read (Memory.set m a b) c = Memory.read m c := by
  induction m with
  | nil => simp [Memory.set, Memory.read, h]
  | cons d rest ih =>
    obtain ⟨d, x⟩ := d
    simp only [Memory.set]
    split_ifs with h1 h2
    · simp [Memory.read, h]
    · subst h2; simp [Memory.read, h]
    · by_cases hd : c = d
      · simp [Memory.read, hd]
      · simp [Memory.read, hd, ih]

theorem Memory.read_write_outside (bytes : List Byte) (m : Memory) {a c : Nat} (h : c < a ∨ a + bytes.length ≤ c) :
    Memory.read (Memory.write m a bytes) c = Memory.read m c := by
  induction bytes generalizing m a with
  | nil => rfl
  | cons b bytes ih =>
    simp only [List.length_cons] at h
    rw [Memory.write, ih _ (by omega), Memory.read_set_other _ _ (by omega)]

theorem Memory.read_write_inside (bytes : List Byte) (m : Memory) (a j : Nat) (h : j < bytes.length) :
    Memory.read (Memory.write m a bytes) (a + j) = bytes[j]? := by
  induction bytes generalizing m a j with
  | nil => simp at h
  | cons b bytes ih =>
    rw [Memory.write]
    cases j with
    | zero => rw [Memory.read_write_outside _ _ (by omega)]; simp
    | succ j =>
      have := ih (Memory.set m a b) (a + 1) j (by simpa using h)
      simpa [show a + 1 + j = a + (j + 1) by omega] using this

theorem Memory.write_append (bytes more : List Byte) (m : Memory) (a : Nat) :
    Memory.write m a (bytes ++ more) = Memory.write (Memory.write m a bytes) (a + bytes.length) more := by
  induction bytes generalizing m a with
  | nil => rfl
  | cons b bytes ih =>
    simp only [List.cons_append, Memory.write, ih, List.length_cons]
    congr 1
    omega

@[simp] theorem Memory.write_nil (m : Memory) (a : Nat) : Memory.write m a [] = m := rfl

/-! ### The canonical form -/

@[simp] theorem Memory.wf_nil : Memory.wf [] = true := rfl

/-- Canonical form, cell by cell: the tail is canonical and every later offset is larger. -/
theorem Memory.wf_cons (c : Host.Cell) (m : Memory) :
    Memory.wf (c :: m) = true ↔ (∀ d ∈ m, c.1 < d.1) ∧ Memory.wf m = true := by
  induction m generalizing c with
  | nil => simp [Memory.wf]
  | cons d rest ih =>
    obtain ⟨a, x⟩ := c
    obtain ⟨b, y⟩ := d
    simp only [Memory.wf, Bool.and_eq_true, decide_eq_true_eq, List.mem_cons, forall_eq_or_imp]
    constructor
    · rintro ⟨hab, hwf⟩
      exact ⟨⟨hab, fun d hd => lt_trans hab ((ih (b, y)).1 hwf |>.1 d hd)⟩, hwf⟩
    · rintro ⟨⟨hab, -⟩, hwf⟩
      exact ⟨hab, hwf⟩

theorem Memory.mem_set {m : Memory} {a : Nat} {b : Byte} {d : Host.Cell} (h : d ∈ Memory.set m a b) :
    d = (a, b) ∨ d ∈ m := by
  induction m with
  | nil => simpa [Memory.set] using h
  | cons c rest ih =>
    obtain ⟨c, x⟩ := c
    simp only [Memory.set] at h
    split_ifs at h with h1 h2
    · simpa using h
    · rcases List.mem_cons.1 h with h | h
      · exact .inl h
      · exact .inr (List.mem_cons_of_mem _ h)
    · rcases List.mem_cons.1 h with h | h
      · exact .inr (by simp [h])
      · rcases ih h with h | h
        · exact .inl h
        · exact .inr (List.mem_cons_of_mem _ h)

theorem Memory.wf_set {m : Memory} (a : Nat) (b : Byte) (h : Memory.wf m = true) :
    Memory.wf (Memory.set m a b) = true := by
  induction m with
  | nil => simp [Memory.set, Memory.wf]
  | cons c rest ih =>
    obtain ⟨c, x⟩ := c
    obtain ⟨hlt, hrest⟩ := (Memory.wf_cons _ _).1 h
    simp only [Memory.set]
    split_ifs with h1 h2
    · refine (Memory.wf_cons _ _).2 ⟨?_, h⟩
      intro d hd
      rcases List.mem_cons.1 hd with hd | hd
      · simpa [hd] using h1
      · exact lt_trans h1 (hlt d hd)
    · subst h2
      exact (Memory.wf_cons _ _).2 ⟨fun d hd => hlt d hd, hrest⟩
    · refine (Memory.wf_cons _ _).2 ⟨?_, ih hrest⟩
      intro d hd
      rcases Memory.mem_set hd with hd | hd
      · subst hd; simp only; omega
      · exact hlt d hd

theorem Memory.wf_write {m : Memory} (a : Nat) (bytes : List Byte) (h : Memory.wf m = true) :
    Memory.wf (Memory.write m a bytes) = true := by
  induction bytes generalizing m a with
  | nil => exact h
  | cons b bytes ih => exact ih _ (Memory.wf_set a b h)

theorem Memory.wf_padTo {m : Memory} (a : Nat) (h : Memory.wf m = true) : Memory.wf (Memory.padTo m a) = true :=
  Memory.wf_write _ _ h

theorem Memory.wf_writeAt {m : Memory} (a : Nat) (bytes : List Byte) (h : Memory.wf m = true) :
    Memory.wf (Memory.writeAt m a bytes) = true := by
  unfold Memory.writeAt
  split
  · exact Memory.wf_write _ _ (Memory.wf_padTo _ h)
  · exact Memory.wf_write _ _ h

theorem Memory.wf_setAll {m : Memory} (cells : List Host.Cell) (h : Memory.wf m = true) :
    Memory.wf (Memory.setAll m cells) = true := by
  induction cells generalizing m with
  | nil => exact h
  | cons c cells ih => exact ih (Memory.wf_set c.1 c.2 h)

theorem Memory.wf_ofCells (cells : List Host.Cell) : Memory.wf (Memory.ofCells cells) = true :=
  Memory.wf_setAll cells rfl

theorem Memory.wf_ofBytes (bytes : List Byte) : Memory.wf (Memory.ofBytes bytes) = true := Memory.wf_write 0 bytes rfl

theorem Memory.wf_filter {m : Memory} (p : Host.Cell → Bool) (h : Memory.wf m = true) :
    Memory.wf (m.filter p) = true := by
  induction m with
  | nil => rfl
  | cons c rest ih =>
    obtain ⟨hlt, hrest⟩ := (Memory.wf_cons _ _).1 h
    rw [List.filter_cons]
    split
    · exact (Memory.wf_cons _ _).2 ⟨fun d hd => hlt d (List.mem_of_mem_filter hd), ih hrest⟩
    · exact ih hrest

theorem Memory.wf_scramble {m : Memory} (a n : Nat) (cells : List Host.Cell) (h : Memory.wf m = true) :
    Memory.wf (Memory.scramble m a n cells) = true :=
  Memory.wf_setAll _ (Memory.wf_filter _ h)

/-- Equal reads everywhere are equal byte spaces, in canonical form. -/
theorem Memory.ext_of_read {m k : Memory} (hm : Memory.wf m = true) (hk : Memory.wf k = true)
    (h : ∀ a, Memory.read m a = Memory.read k a) : m = k := by
  induction m generalizing k with
  | nil =>
    cases k with
    | nil => rfl
    | cons c k => simpa [Memory.read] using h c.1
  | cons c m ih =>
    obtain ⟨a, x⟩ := c
    obtain ⟨hlt, hm'⟩ := (Memory.wf_cons _ _).1 hm
    have none_below : ∀ {k : Memory} {e : Nat}, (∀ d ∈ k, e < d.1) → Memory.read k e = none := by
      intro k
      induction k with
      | nil => intros; rfl
      | cons d k ih =>
        intro e hd
        obtain ⟨d, y⟩ := d
        have := hd (d, y) (by simp)
        simp only [Memory.read]
        rw [if_neg (by simp only at this; omega)]
        exact ih fun d hd' => hd d (List.mem_cons_of_mem _ hd')
    cases k with
    | nil => simpa [Memory.read] using h a
    | cons d k =>
      obtain ⟨b, y⟩ := d
      obtain ⟨hlt', hk'⟩ := (Memory.wf_cons _ _).1 hk
      have hab : a = b := by
        rcases Nat.lt_trichotomy a b with hab | hab | hab
        · have h1 := h a
          rw [none_below (k := (b, y) :: k)
            (by intro d hd; rcases List.mem_cons.1 hd with hd | hd
                · simpa [hd] using hab
                · exact lt_trans hab (hlt' d hd))] at h1
          simp [Memory.read] at h1
        · exact hab
        · have h1 := h b
          rw [none_below (k := (a, x) :: m)
            (by intro d hd; rcases List.mem_cons.1 hd with hd | hd
                · simpa [hd] using hab
                · exact lt_trans hab (hlt d hd))] at h1
          simp [Memory.read] at h1
      subst hab
      have hxy : x = y := by simpa [Memory.read] using h a
      subst hxy
      congr 1
      refine ih hm' hk' fun e => ?_
      by_cases he : e = a
      · subst he
        rw [none_below fun d hd => hlt d hd, none_below fun d hd => hlt' d hd]
      · simpa [Memory.read, he] using h e

/-! ### The length, and reading a run of bytes -/

/-- In canonical form nothing stands at or past the length. -/
theorem Memory.lt_length_of_mem {m : Memory} (h : Memory.wf m = true) {d : Host.Cell} (hd : d ∈ m) :
    d.1 < Memory.length m := by
  induction m generalizing d with
  | nil => cases hd
  | cons c rest ih =>
    obtain ⟨hlt, hrest⟩ := (Memory.wf_cons _ _).1 h
    cases rest with
    | nil =>
      obtain rfl : d = c := by simpa using hd
      simp [Memory.length]
    | cons e rest =>
      rw [Memory.length]
      rcases List.mem_cons.1 hd with hd | hd
      · subst hd
        exact lt_trans (hlt e (by simp)) (ih hrest (by simp))
      · exact ih hrest hd

theorem Memory.read_eq_none_of_length_le {m : Memory} (h : Memory.wf m = true) {a : Nat}
    (ha : Memory.length m ≤ a) : Memory.read m a = none := by
  have key : ∀ {k : Memory}, (∀ d ∈ k, d.1 ≠ a) → Memory.read k a = none := by
    intro k
    induction k with
    | nil => intros; rfl
    | cons c k ih =>
      intro hk
      obtain ⟨c, x⟩ := c
      have := hk (c, x) (by simp)
      simp only [Memory.read]
      rw [if_neg (by simp only at this; omega)]
      exact ih fun d hd => hk d (List.mem_cons_of_mem _ hd)
  refine key fun d hd => ?_
  have := Memory.lt_length_of_mem h hd
  omega

theorem Memory.readUpTo_length_le (m : Memory) (a n : Nat) : (Memory.readUpTo m a n).length ≤ n := by
  induction n generalizing a with
  | zero => simp [Memory.readUpTo]
  | succ n ih =>
    rw [Memory.readUpTo]
    split
    · simp
    · simpa using ih (a + 1)

/-- Two runs of bytes, the second starting where the first ends. -/
theorem Memory.readUpTo_add {m : Memory} {a n : Nat} (h : (Memory.readUpTo m a n).length = n) (k : Nat) :
    Memory.readUpTo m a (n + k) = Memory.readUpTo m a n ++ Memory.readUpTo m (a + n) k := by
  induction n generalizing a with
  | zero => simp [Memory.readUpTo]
  | succ n ih =>
    rw [Nat.add_right_comm, Memory.readUpTo, Memory.readUpTo]
    rw [Memory.readUpTo] at h
    split at h
    · simp at h
    · next b hb =>
      simp only [List.length_cons, Nat.add_right_cancel_iff] at h
      rw [List.cons_append, ih h, show a + 1 + n = a + (n + 1) by omega]

/-- A run that ends early is the same run whatever more is asked for. -/
theorem Memory.readUpTo_add_of_short {m : Memory} {a n : Nat} (h : (Memory.readUpTo m a n).length < n) (k : Nat) :
    Memory.readUpTo m a (n + k) = Memory.readUpTo m a n := by
  induction n generalizing a with
  | zero => simp at h
  | succ n ih =>
    rw [Nat.add_right_comm, Memory.readUpTo, Memory.readUpTo]
    rw [Memory.readUpTo] at h
    split at h
    · rfl
    · simp only [List.length_cons] at h
      rw [ih (by omega)]

/-- A run of fewer bytes is the start of the longer run. -/
theorem Memory.readUpTo_take (m : Memory) (a n k : Nat) (h : k ≤ n) :
    (Memory.readUpTo m a n).take k = Memory.readUpTo m a k := by
  induction k generalizing a n with
  | zero => simp [Memory.readUpTo]
  | succ k ih =>
    obtain ⟨n, rfl⟩ : ∃ n', n = n' + 1 := ⟨n - 1, by omega⟩
    rw [Memory.readUpTo, Memory.readUpTo]
    cases Memory.read m a with
    | none => simp
    | some b => simpa using ih (a + 1) n (by omega)

/-- Bytes written are read back. -/
theorem Memory.readUpTo_write (bytes : List Byte) (m : Memory) (a : Nat) :
    Memory.readUpTo (Memory.write m a bytes) a bytes.length = bytes := by
  induction bytes generalizing m a with
  | nil => rfl
  | cons b bytes ih =>
    rw [List.length_cons, Memory.readUpTo, Memory.write, Memory.read_write_outside _ _ (by omega),
      Memory.read_set_same]
    simp only [ih]

end Sys2Proof.Machine
end

