-- ==== Sys2Proof/Laws/PerInstr.lean ====
section
/-! SUPPORT. The family `EncodedReservedBitsZero`: the command word of a well-formed command has `RSV`, bits 15 and 14,
zero (30_encoding.md R80, R81), one lemma per command. -/

namespace Sys2Proof.Laws.EncodedReservedBitsZero

open Sys2Proof

/-- The reserved bits 15 and 14 of the command's word are zero (30_encoding.md R81). -/
def Statement (i : Instr) : Prop := Instr.wellFormed i = true → (encode i).extractLsb' 14 2 = 0#2

/-- Whatever the fields, the word built from them has zero reserved bits. -/
theorem commandWord_reserved (len : BitVec 16) (c : Bool) (wh : BitVec 2) (s : Bool) (wc unit : BitVec 2)
    (op : BitVec 6) : (commandWord len c wh s wc unit op).extractLsb' 14 2 = 0#2 := by
  have h : ∀ k, k < 2 → ((commandWord len c wh s wc unit op).extractLsb' 14 2).getLsbD k = false := by
    intro k hk
    rcases (show k = 0 ∨ k = 1 by omega) with rfl | rfl <;>
      simp only [commandWord, BitVec.getLsbD_extractLsb', BitVec.getLsbD_setWidth, BitVec.getLsbD_append] <;> rfl
  exact BitVec.eq_of_getLsbD_eq fun k hk => (h k hk).trans (by simp)

theorem wBind (c : Bool) : Statement (.wBind c) := fun _ => commandWord_reserved _ _ _ _ _ _ _

theorem wWrite (n : Nat) : Statement (.wWrite n) := fun _ => commandWord_reserved _ _ _ _ _ _ _

theorem wWriteU8 : Statement .wWriteU8 := fun _ => commandWord_reserved _ _ _ _ _ _ _

theorem wWriteI8 : Statement .wWriteI8 := fun _ => commandWord_reserved _ _ _ _ _ _ _

theorem wWriteU16 : Statement .wWriteU16 := fun _ => commandWord_reserved _ _ _ _ _ _ _

theorem wWriteI16 : Statement .wWriteI16 := fun _ => commandWord_reserved _ _ _ _ _ _ _

theorem wWriteU32 : Statement .wWriteU32 := fun _ => commandWord_reserved _ _ _ _ _ _ _

theorem wWriteI32 : Statement .wWriteI32 := fun _ => commandWord_reserved _ _ _ _ _ _ _

theorem wWriteU64 : Statement .wWriteU64 := fun _ => commandWord_reserved _ _ _ _ _ _ _

theorem wWriteI64 : Statement .wWriteI64 := fun _ => commandWord_reserved _ _ _ _ _ _ _

theorem wFlush : Statement .wFlush := fun _ => commandWord_reserved _ _ _ _ _ _ _

theorem wClose : Statement .wClose := fun _ => commandWord_reserved _ _ _ _ _ _ _

theorem wReserve : Statement .wReserve := fun _ => commandWord_reserved _ _ _ _ _ _ _

theorem wPatchBlock : Statement .wPatchBlock := fun _ => commandWord_reserved _ _ _ _ _ _ _

theorem wPatchU8 : Statement .wPatchU8 := fun _ => commandWord_reserved _ _ _ _ _ _ _

theorem wPatchU16 : Statement .wPatchU16 := fun _ => commandWord_reserved _ _ _ _ _ _ _

theorem wPatchU32 : Statement .wPatchU32 := fun _ => commandWord_reserved _ _ _ _ _ _ _

theorem wPatchU64 : Statement .wPatchU64 := fun _ => commandWord_reserved _ _ _ _ _ _ _

theorem wChecksum : Statement .wChecksum := fun _ => commandWord_reserved _ _ _ _ _ _ _

theorem wResetChecksum : Statement .wResetChecksum := fun _ => commandWord_reserved _ _ _ _ _ _ _

theorem wBytesWritten : Statement .wBytesWritten := fun _ => commandWord_reserved _ _ _ _ _ _ _

theorem rBind : Statement .rBind := fun _ => commandWord_reserved _ _ _ _ _ _ _

theorem rRead (n : Nat) : Statement (.rRead n) := fun _ => commandWord_reserved _ _ _ _ _ _ _

theorem rReadU8 : Statement .rReadU8 := fun _ => commandWord_reserved _ _ _ _ _ _ _

theorem rReadI8 : Statement .rReadI8 := fun _ => commandWord_reserved _ _ _ _ _ _ _

theorem rReadU16 : Statement .rReadU16 := fun _ => commandWord_reserved _ _ _ _ _ _ _

theorem rReadI16 : Statement .rReadI16 := fun _ => commandWord_reserved _ _ _ _ _ _ _

theorem rReadU32 : Statement .rReadU32 := fun _ => commandWord_reserved _ _ _ _ _ _ _

theorem rReadI32 : Statement .rReadI32 := fun _ => commandWord_reserved _ _ _ _ _ _ _

theorem rReadU64 : Statement .rReadU64 := fun _ => commandWord_reserved _ _ _ _ _ _ _

theorem rReadI64 : Statement .rReadI64 := fun _ => commandWord_reserved _ _ _ _ _ _ _

theorem rBuffered : Statement .rBuffered := fun _ => commandWord_reserved _ _ _ _ _ _ _

theorem rAlign : Statement .rAlign := fun _ => commandWord_reserved _ _ _ _ _ _ _

theorem rReadAligned : Statement .rReadAligned := fun _ => commandWord_reserved _ _ _ _ _ _ _

theorem rSeekSet : Statement .rSeekSet := fun _ => commandWord_reserved _ _ _ _ _ _ _

theorem rSeekCur : Statement .rSeekCur := fun _ => commandWord_reserved _ _ _ _ _ _ _

theorem rSeekEnd : Statement .rSeekEnd := fun _ => commandWord_reserved _ _ _ _ _ _ _

end Sys2Proof.Laws.EncodedReservedBitsZero
end

