-- ==== Sys2Proof/Laws/Reader.lean ====
section
/-! SUPPORT. What the reader's shared procedures can do, said once: the source port, fetch, the read loop and the
seek. -/

namespace Sys2Proof.Machine

open Sys2Proof.Config

/-! ### What no procedure of the reader touches -/

/-- The elements of the reader that only a bind or a finish changes (10_state.md R33, R36). -/
def Reader.sameControl (r r' : Reader) : Prop :=
  r'.regs = r.regs ∧ r'.bound = r.bound ∧ r'.key = r.key ∧ r'.seek = r.seek ∧ r'.fault = r.fault ∧
  r'.stream = r.stream ∧ r'.source.mem = r.source.mem ∧ r'.source.seek = r.source.seek ∧
  r'.source.reference = r.source.reference

/-- The result of a seek inside the range of offsets is its target. -/
theorem seekResult_of_le {target : Nat} (h : target ≤ maxOfs) : seekResult target = BitVec.ofNat 64 target := if_pos h

theorem Reader.sameControl.refl (r : Reader) : Reader.sameControl r r := ⟨rfl, rfl, rfl, rfl, rfl, rfl, rfl, rfl, rfl⟩

theorem Reader.sameControl.trans {r r' r'' : Reader} (h : Reader.sameControl r r') (h' : Reader.sameControl r' r'') :
    Reader.sameControl r r'' := by
  obtain ⟨a1, a2, a3, a4, a5, a6, a7, a8, a9⟩ := h
  obtain ⟨b1, b2, b3, b4, b5, b6, b7, b8, b9⟩ := h'
  exact ⟨b1.trans a1, b2.trans a2, b3.trans a3, b4.trans a4, b5.trans a5, b6.trans a6, b7.trans a7, b8.trans a8,
    b9.trans a9⟩

/-! ### Fetch -/

/-- A fetch over a source that obeys and holds a whole block (42_reader.md R171). -/
theorem Reader.fetch_ok {r : Reader} (ha : nextAnswer r.source.plan = .obey)
    (hl : (Source.nextBlocks r.source 1).length = bs) : Reader.fetch r = .go (Reader.loaded r) := by
  have hl' : (Memory.readUpTo r.source.mem r.source.pos bs).length = bs := by simpa [Source.nextBlocks] using hl
  simp [Reader.fetch, Reader.srcRead, ha, hl', Reader.loaded, Source.nextBlocks]

/-- A fetch over a source that obeys but does not hold a whole block (42_reader.md R171; 60_exceptions.md R223). -/
theorem Reader.fetch_short {r : Reader} (ha : nextAnswer r.source.plan = .obey)
    (hl : (Source.nextBlocks r.source 1).length < bs) :
    Reader.fetch r = .stop (if (Source.nextBlocks r.source 1).length = 0 then .endOfData else .shortRead)
      { r with
        buf := freeBuf r.draw
        cur := -1
        source := { r.source with
          pos := Source.posAfter r.source (Source.nextBlocks r.source 1).length
          plan := r.source.plan.drop 1 }
        draw := r.draw.next } := by
  have hl' : (Memory.readUpTo r.source.mem r.source.pos bs).length < bs := by simpa [Source.nextBlocks] using hl
  simp [Reader.fetch, Reader.srcRead, ha, Nat.ne_of_lt hl', Source.nextBlocks]

/-- A fetch over a source that fails (42_reader.md R171; 60_exceptions.md R222). -/
theorem Reader.fetch_fail {r : Reader} (ha : nextAnswer r.source.plan = .fail) :
    Reader.fetch r = .stop .ioError
      { r with
        buf := freeBuf r.draw.next
        cur := -1
        source := { r.source with pos := freePos r.draw, plan := r.source.plan.drop 1 }
        draw := r.draw.next.next } := by
  simp [Reader.fetch, Reader.srcRead, ha]

theorem Source.nextBlocks_length_le (c : Source) (m : Nat) : (Source.nextBlocks c m).length ≤ bs * m :=
  Memory.readUpTo_length_le _ _ _

/-- All a fetch can come to (42_reader.md R171). -/
theorem Reader.fetch_cases (r : Reader) :
    (nextAnswer r.source.plan = .obey ∧ (Source.nextBlocks r.source 1).length = bs ∧
      Reader.fetch r = .go (Reader.loaded r)) ∨
    ∃ c r', Reader.fetch r = .stop c r' ∧ Reader.sameControl r r' ∧ r'.cur = -1 ∧
      (c = .endOfData ∨ c = .shortRead ∨ c = .ioError) := by
  rcases nextAnswer_cases r.source.plan with ha | ha
  · have hle := Source.nextBlocks_length_le r.source 1
    by_cases hl : (Source.nextBlocks r.source 1).length = bs
    · exact .inl ⟨ha, hl, Reader.fetch_ok ha hl⟩
    · refine .inr ⟨_, _, Reader.fetch_short ha (by omega), ⟨rfl, rfl, rfl, rfl, rfl, rfl, rfl, rfl, rfl⟩, rfl, ?_⟩
      split <;> simp
  · exact .inr ⟨_, _, Reader.fetch_fail ha, ⟨rfl, rfl, rfl, rfl, rfl, rfl, rfl, rfl, rfl⟩, rfl, by simp⟩

theorem Reader.loaded_sameControl (r : Reader) : Reader.sameControl r (Reader.loaded r) :=
  ⟨rfl, rfl, rfl, rfl, rfl, rfl, rfl, rfl, rfl⟩

/-! ### Where a failed re-alignment leaves the source (70_reset_and_hazards.md R263) -/

theorem Reader.atBoundary_sameControl (boundary : Nat) (c : Code) (r : Reader) :
    Reader.sameControl r (Reader.atBoundary boundary c r) := by
  unfold Reader.atBoundary
  split <;> exact ⟨rfl, rfl, rfl, rfl, rfl, rfl, rfl, rfl, rfl⟩

@[simp] theorem Reader.atBoundary_cur (boundary : Nat) (c : Code) (r : Reader) :
    (Reader.atBoundary boundary c r).cur = r.cur := by
  unfold Reader.atBoundary
  split <;> rfl

@[simp] theorem Reader.atBoundary_endOfData_pos (boundary : Nat) (r : Reader) :
    (Reader.atBoundary boundary .endOfData r).source.pos = boundary := rfl

/-! ### The source's next blocks -/

theorem Source.nextBlocks_take (c : Source) (m k : Nat) (h : k ≤ m) :
    (Source.nextBlocks c m).take (bs * k) = Source.nextBlocks c k :=
  Memory.readUpTo_take _ _ _ _ (Nat.mul_le_mul_left _ h)

/-- A source that holds more blocks holds fewer. -/
theorem Source.nextBlocks_length_of_le {c : Source} {m k : Nat} (h : (Source.nextBlocks c m).length = bs * m)
    (hk : k ≤ m) : (Source.nextBlocks c k).length = bs * k := by
  rw [← Source.nextBlocks_take c m k hk, List.length_take, h]
  exact Nat.min_eq_left (Nat.mul_le_mul_left _ hk)

/-- The blocks after the first one. -/
theorem Source.nextBlocks_drop {c : Source} {m : Nat} (h : (Source.nextBlocks c 1).length = bs) (plan : List PortAnswer) :
    (Source.nextBlocks c (m + 1)).drop bs =
      Source.nextBlocks { c with pos := c.pos + bs, plan := plan } m := by
  unfold Source.nextBlocks at h ⊢
  rw [Nat.mul_add, Nat.add_comm, Nat.mul_one] at *
  rw [Memory.readUpTo_add (by simpa using h), List.drop_append, List.drop_eq_nil_of_le (by simpa using h.le)]
  simp [show (Memory.readUpTo c.mem c.pos bs).length = bs by simpa using h]

/-! ### The read loop -/

theorem Reader.unread_of_loaded {r : Reader} (h : 0 ≤ r.cur) :
    Reader.unread r = blockSlice r.buf r.cur.toNat bs := if_pos h

theorem Reader.unread_length {r : Reader} (h : 0 ≤ r.cur) : (Reader.unread r).length = bs - r.cur.toNat := by
  rw [Reader.unread_of_loaded h, blockSlice_length]; omega

theorem Reader.unread_eq_nil {r : Reader} (h : r.cur < 0 ∨ (bs : Int) ≤ r.cur) : Reader.unread r = [] := by
  rcases h with h | h
  · exact if_neg (by omega)
  · apply List.eq_nil_of_length_eq_zero
    rw [Reader.unread_length (by omega)]
    omega

/-- Delivering `n` bytes of the loaded block takes no fetch. -/
theorem Reader.advance_of_loaded {r : Reader} {n : Nat} (h : n ≤ (Reader.unread r).length) :
    Reader.advance r n = { r with cur := r.cur + n } := by
  have hm : Reader.blocksFor r n = 0 := by
    unfold Reader.blocksFor
    rw [Nat.sub_eq_zero_of_le h]
    decide
  unfold Reader.advance
  simp [hm]

/-- The bytes a fetched block leaves before the reader. -/
theorem Reader.unread_loaded (r : Reader) :
    Reader.unread (Reader.loaded r) = blockBytes (dec r.key (blockOfBytes (Source.nextBlocks r.source 1))) := by
  rw [Reader.unread_of_loaded (by simp [Reader.loaded])]
  simp only [Reader.loaded, blockSlice]
  rw [show (0 : Int).toNat = 0 from rfl, List.drop_zero, List.take_of_length_le (by simp)]

/-- Where no byte is loaded and one is owed, reading goes on from the block fetched. -/
theorem Reader.blocksFor_loaded {r : Reader} {n : Nat} (hu : Reader.unread r = []) (hn : 0 < n) :
    Reader.blocksFor r n = Reader.blocksFor (Reader.loaded r) n + 1 := by
  unfold Reader.blocksFor
  rw [Reader.unread_loaded, hu, blockBytes_length]
  show (n - 0 + 7) / 8 = (n - 8 + 7) / 8 + 1
  omega

theorem Reader.plaintext_loaded {r : Reader} (hu : Reader.unread r = [])
    (hl : (Source.nextBlocks r.source 1).length = bs) (m : Nat) :
    Reader.plaintext r (m + 1) = Reader.plaintext (Reader.loaded r) m := by
  unfold Reader.plaintext
  rw [hu, List.nil_append, Reader.unread_loaded, decBlocks, Source.nextBlocks_drop hl (r.source.plan.drop 1)]
  have := Source.nextBlocks_take r.source (m + 1) 1 (by omega)
  rw [Nat.mul_one] at this
  rw [this]
  rfl

theorem Reader.advance_of_exhausted {r : Reader} {n : Nat} (hu : Reader.unread r = []) (hn : 0 < n)
    (hl : (Source.nextBlocks r.source 1).length = bs) :
    Reader.advance r n = Reader.advance (Reader.loaded r) n := by
  have hm := Reader.blocksFor_loaded hu hn
  set m := Reader.blocksFor (Reader.loaded r) n with hmdef
  unfold Reader.advance
  simp only [hm, ← hmdef, Reader.plaintext_loaded hu hl]
  rw [if_neg (Nat.succ_ne_zero _), if_neg (Nat.succ_ne_zero _), Nat.add_sub_cancel]
  simp only [Reader.loaded]
  congr 1
  · split_ifs with h0
    · simp [h0]
    · obtain ⟨j, hj⟩ := Nat.exists_eq_succ_of_ne_zero h0
      rw [hj, ← Source.nextBlocks_drop hl (r.source.plan.drop 1), Nat.succ_sub_one, Nat.succ_eq_add_one, Nat.mul_add,
        List.drop_drop, Nat.add_comm, Nat.mul_one]
  · split_ifs with h0
    · have hl2 : (Reader.plaintext (Reader.loaded r) m).length = bs := by
        rw [h0, Reader.plaintext, Reader.unread_loaded]
        simp [decBlocks]
      simp only [Reader.loaded] at hl2
      rw [hl2]
      omega
    · rfl
  · congr 1
    · rw [Nat.mul_add]; omega
    · rw [List.drop_drop]
      congr 1
      omega

/-- Delivering the rest of the loaded block first changes nothing of what follows. -/
theorem Reader.advance_of_more {r : Reader} {n : Nat} (h : (Reader.unread r).length < n) :
    let r' : Reader := { r with cur := bs }
    Reader.advance r n = Reader.advance r' (n - (Reader.unread r).length) ∧
    Reader.blocksFor r' (n - (Reader.unread r).length) = Reader.blocksFor r n ∧
    (∀ m, Reader.plaintext r m = Reader.unread r ++ Reader.plaintext r' m) := by
  intro r'
  have hu' : Reader.unread r' = [] := Reader.unread_eq_nil (.inr (by simp [r']))
  have hm : Reader.blocksFor r' (n - (Reader.unread r).length) = Reader.blocksFor r n := by
    unfold Reader.blocksFor
    rw [hu']
    rfl
  have hp : ∀ m, Reader.plaintext r m = Reader.unread r ++ Reader.plaintext r' m := by
    intro m
    unfold Reader.plaintext
    rw [hu', List.nil_append]
  refine ⟨?_, hm, hp⟩
  have hpos : Reader.blocksFor r n ≠ 0 := by
    unfold Reader.blocksFor
    show (n - (Reader.unread r).length + 7) / 8 ≠ 0
    omega
  unfold Reader.advance
  simp only [hm]
  have hc : ((Reader.plaintext r (Reader.blocksFor r n)).length : Int) - n =
      (Reader.plaintext r' (Reader.blocksFor r n)).length - ((n - (Reader.unread r).length : Nat) : Int) := by
    rw [hp, List.length_append]
    omega
  rw [if_neg hpos, if_neg hpos, if_neg hpos, hc]

/-- The read loop over a source that obeys and holds the blocks it needs (42_reader.md R174). -/
theorem Reader.readLoop_ok {turns n : Nat} {out : List Byte} {r : Reader} (ht : n ≤ turns)
    (ha : obeysNext r.source.plan (Reader.blocksFor r n))
    (hl : (Source.nextBlocks r.source (Reader.blocksFor r n)).length = bs * Reader.blocksFor r n) :
    Reader.readLoop turns n out r =
      .go (out ++ (Reader.plaintext r (Reader.blocksFor r n)).take n, Reader.advance r n) := by
  induction turns generalizing n out r with
  | zero =>
    obtain rfl : n = 0 := by omega
    rw [Reader.advance_of_loaded (Nat.zero_le _)]
    simp [Reader.readLoop]
  | succ turns ih =>
    cases n with
    | zero =>
      rw [Reader.advance_of_loaded (Nat.zero_le _)]
      simp [Reader.readLoop]
    | succ owed =>
      -- reading on from a loaded block
      have loadedCase : ∀ {r : Reader}, 0 ≤ r.cur → r.cur < bs →
          obeysNext r.source.plan (Reader.blocksFor r (owed + 1)) →
          (Source.nextBlocks r.source (Reader.blocksFor r (owed + 1))).length = bs * Reader.blocksFor r (owed + 1) →
          Reader.readLoop turns (owed + 1 - min (bs - r.cur.toNat) (owed + 1))
            (out ++ blockSlice r.buf r.cur.toNat (min (bs - r.cur.toNat) (owed + 1)))
            { r with cur := r.cur + min (bs - r.cur.toNat) (owed + 1) } =
          .go (out ++ (Reader.plaintext r (Reader.blocksFor r (owed + 1))).take (owed + 1),
            Reader.advance r (owed + 1)) := by
        intro r h0 h8 ha hl
        have hul := Reader.unread_length h0
        have hslice : ∀ k, k ≤ bs → blockSlice r.buf r.cur.toNat k = (Reader.unread r).take k := by
          intro k hk
          rw [Reader.unread_of_loaded h0, blockSlice, blockSlice, List.take_take, min_eq_left hk]
        by_cases hle : owed + 1 ≤ bs - r.cur.toNat
        · have hk : min (bs - r.cur.toNat) (owed + 1) = owed + 1 := by omega
          have hm : Reader.blocksFor r (owed + 1) = 0 := by
            unfold Reader.blocksFor
            rw [Nat.sub_eq_zero_of_le (by omega)]
            decide
          rw [hk, Nat.sub_self, Reader.advance_of_loaded (by omega), hm]
          have h1 : Reader.plaintext r 0 = Reader.unread r := by simp [Reader.plaintext, decBlocks]
          rw [h1, hslice _ (by omega)]
          cases turns <;> rfl
        · have hk : min (bs - r.cur.toNat) (owed + 1) = bs - r.cur.toNat := by omega
          have hcur : r.cur + ((bs - r.cur.toNat : Nat) : Int) = (bs : Int) := by omega
          rw [hk, hcur, hslice _ (by omega), List.take_of_length_le (by omega)]
          obtain ⟨hadv, hm, hp⟩ := Reader.advance_of_more (r := r) (n := owed + 1) (by omega)
          rw [hul] at hadv hm
          rw [ih (by omega) (by rw [hm]; exact ha) (by rw [hm]; exact hl), hadv, hm, hp,
            List.take_append, List.take_of_length_le (l := Reader.unread r) (by omega), List.append_assoc, hul]
      rw [Reader.readLoop]
      by_cases hex : r.cur < 0 ∨ r.cur ≥ bs
      · rw [if_pos hex]
        have hu := Reader.unread_eq_nil hex
        have hm := Reader.blocksFor_loaded (n := owed + 1) hu (by omega)
        have hl1 : (Source.nextBlocks r.source 1).length = bs := by
          have := Source.nextBlocks_length_of_le hl (k := 1) (by omega)
          simpa using this
        rw [Reader.fetch_ok (ha.nextAnswer (by omega)) hl1]
        have ha' : obeysNext (Reader.loaded r).source.plan (Reader.blocksFor (Reader.loaded r) (owed + 1)) := by
          rw [hm] at ha
          have := ha.tail
          rwa [← List.drop_one] at this
        have hl' : (Source.nextBlocks (Reader.loaded r).source (Reader.blocksFor (Reader.loaded r) (owed + 1))).length =
            bs * Reader.blocksFor (Reader.loaded r) (owed + 1) := by
          have := Source.nextBlocks_drop (m := Reader.blocksFor (Reader.loaded r) (owed + 1)) hl1 (r.source.plan.drop 1)
          simp only [Reader.loaded] at this ⊢
          rw [← this, List.length_drop]
          simp only [Reader.loaded] at hm
          rw [hm, Nat.mul_add] at hl
          rw [hl]
          omega
        simp only
        rw [loadedCase (r := Reader.loaded r) (by simp [Reader.loaded]) (by simp [Reader.loaded]) ha' hl',
          Reader.advance_of_exhausted hu (by omega) hl1, hm, Reader.plaintext_loaded hu hl1]
      · rw [if_neg hex]
        simp only
        exact loadedCase (by omega) (by omega) ha hl

/-- The read loop up to a fetch that stops it, the first `j` of the blocks it needs being there (42_reader.md R174): the
bytes of those blocks were delivered, and the fetch's code is raised with what the fetch left. -/
theorem Reader.readLoop_stop {turns n j : Nat} {out : List Byte} {r : Reader} (ht : n ≤ turns)
    (hj : j < Reader.blocksFor r n) (ha : obeysNext r.source.plan j)
    (hl : (Source.nextBlocks r.source j).length = bs * j) :
    ∃ r1 : Reader, r1.source = Source.moved r.source (r.source.pos + bs * j) j ∧ Reader.sameControl r r1 ∧
      ∀ c r2, Reader.fetch r1 = .stop c r2 →
        Reader.readLoop turns n out r = .stop c (out ++ Reader.plaintext r j, r2) := by
  induction turns generalizing n j out r with
  | zero =>
    obtain rfl : n = 0 := by omega
    exact absurd hj (by rw [Reader.blocksFor, Nat.zero_sub]; exact Nat.not_lt_zero _)
  | succ turns ih =>
    cases n with
    | zero => exact absurd hj (by rw [Reader.blocksFor, Nat.zero_sub]; exact Nat.not_lt_zero _)
    | succ owed =>
      -- reading on from a loaded block
      have loadedCase : ∀ {r : Reader} {j : Nat}, 0 ≤ r.cur → r.cur < bs → j < Reader.blocksFor r (owed + 1) →
          obeysNext r.source.plan j → (Source.nextBlocks r.source j).length = bs * j →
          ∃ r1 : Reader, r1.source = Source.moved r.source (r.source.pos + bs * j) j ∧ Reader.sameControl r r1 ∧
            ∀ c r2, Reader.fetch r1 = .stop c r2 →
              Reader.readLoop turns (owed + 1 - min (bs - r.cur.toNat) (owed + 1))
                (out ++ blockSlice r.buf r.cur.toNat (min (bs - r.cur.toNat) (owed + 1)))
                { r with cur := r.cur + min (bs - r.cur.toNat) (owed + 1) } =
              .stop c (out ++ Reader.plaintext r j, r2) := by
        intro r j h0 h8 hj ha hl
        have hul := Reader.unread_length h0
        have hlt : (Reader.unread r).length < owed + 1 := by
          by_contra hge
          unfold Reader.blocksFor at hj
          rw [Nat.sub_eq_zero_of_le (by omega)] at hj
          revert hj
          show ¬ j < 0
          omega
        have hk : min (bs - r.cur.toNat) (owed + 1) = bs - r.cur.toNat := by omega
        have hcur : r.cur + ((bs - r.cur.toNat : Nat) : Int) = (bs : Int) := by omega
        obtain ⟨-, hm, hp⟩ := Reader.advance_of_more (r := r) (n := owed + 1) hlt
        rw [hul] at hm
        have hslice : blockSlice r.buf r.cur.toNat (bs - r.cur.toNat) = Reader.unread r := by
          have h1 : blockSlice r.buf r.cur.toNat (bs - r.cur.toNat) = (Reader.unread r).take (bs - r.cur.toNat) := by
            rw [Reader.unread_of_loaded h0, blockSlice, blockSlice, List.take_take, min_eq_left (Nat.sub_le _ _)]
          rw [h1, List.take_of_length_le (by omega)]
        obtain ⟨r1, hs, hc, hstop⟩ := ih (n := owed + 1 - (bs - r.cur.toNat)) (j := j) (out := out ++ Reader.unread r)
          (r := { r with cur := bs }) (by omega) (by rw [hm]; exact hj) ha hl
        refine ⟨r1, hs, .trans ⟨rfl, rfl, rfl, rfl, rfl, rfl, rfl, rfl, rfl⟩ hc, fun c r2 hf => ?_⟩
        rw [hk, hcur, hslice, hstop c r2 hf, hp, List.append_assoc]
      by_cases hex : r.cur < 0 ∨ r.cur ≥ bs
      · have hu := Reader.unread_eq_nil hex
        have hm := Reader.blocksFor_loaded (n := owed + 1) hu (by omega)
        cases j with
        | zero =>
          refine ⟨r, by simp [Source.moved], .refl r, fun c r2 hf => ?_⟩
          rw [Reader.readLoop, if_pos hex, hf]
          simp [Reader.plaintext, hu, decBlocks]
        | succ j =>
          have hl1 : (Source.nextBlocks r.source 1).length = bs := by
            have := Source.nextBlocks_length_of_le hl (k := 1) (by omega)
            simpa using this
          have ha' : obeysNext (Reader.loaded r).source.plan j := by
            have := ha.tail
            rwa [← List.drop_one] at this
          have hl' : (Source.nextBlocks (Reader.loaded r).source j).length = bs * j := by
            have := Source.nextBlocks_drop (m := j) hl1 (r.source.plan.drop 1)
            simp only [Reader.loaded] at this ⊢
            rw [← this, List.length_drop, hl, Nat.mul_add]
            omega
          obtain ⟨r1, hs, hc, hstop⟩ := loadedCase (r := Reader.loaded r) (j := j) (by simp [Reader.loaded])
            (by simp [Reader.loaded]) (by omega) ha' hl'
          refine ⟨r1, ?_, .trans (Reader.loaded_sameControl r) hc, fun c r2 hf => ?_⟩
          · rw [hs]
            simp only [Reader.loaded, Source.moved, List.drop_drop]
            congr 1
            · rw [Nat.mul_add]; omega
            · congr 1; omega
          · rw [Reader.readLoop, if_pos hex, Reader.fetch_ok (ha.nextAnswer (by omega)) hl1]
            simp only
            rw [hstop c r2 hf, Reader.plaintext_loaded hu hl1]
      · obtain ⟨r1, hs, hc, hstop⟩ := loadedCase (r := r) (j := j) (by omega) (by omega) hj ha hl
        refine ⟨r1, hs, hc, fun c r2 hf => ?_⟩
        rw [Reader.readLoop, if_neg hex]
        exact hstop c r2 hf

/-- The read loop over any source: it goes through, or a fetch's code is raised with no block loaded; the data path and
the source's position are all it touches. -/
theorem Reader.readLoop_frame (turns n : Nat) (out : List Byte) (r : Reader) :
    ∃ out' r', Reader.sameControl r r' ∧ ((-1 ≤ r.cur ∧ r.cur ≤ bs) → -1 ≤ r'.cur ∧ r'.cur ≤ bs) ∧
      (Reader.readLoop turns n out r = .go (out', r') ∨
       ∃ c, Reader.readLoop turns n out r = .stop c (out', r') ∧ r'.cur = -1 ∧
         (c = .endOfData ∨ c = .shortRead ∨ c = .ioError)) := by
  induction turns generalizing n out r with
  | zero => exact ⟨out, r, .refl r, id, .inl rfl⟩
  | succ turns ih =>
    cases n with
    | zero => exact ⟨out, r, .refl r, id, .inl rfl⟩
    | succ owed =>
      have go : ∀ r1 : Reader, Reader.sameControl r r1 → 0 ≤ r1.cur → r1.cur < bs →
          ∃ out' r', Reader.sameControl r r' ∧ ((-1 ≤ r.cur ∧ r.cur ≤ bs) → -1 ≤ r'.cur ∧ r'.cur ≤ bs) ∧
            (Reader.readLoop turns (owed + 1 - min (bs - r1.cur.toNat) (owed + 1))
                (out ++ blockSlice r1.buf r1.cur.toNat (min (bs - r1.cur.toNat) (owed + 1)))
                { r1 with cur := r1.cur + (min (bs - r1.cur.toNat) (owed + 1) : Nat) } = .go (out', r') ∨
              ∃ c, Reader.readLoop turns (owed + 1 - min (bs - r1.cur.toNat) (owed + 1))
                (out ++ blockSlice r1.buf r1.cur.toNat (min (bs - r1.cur.toNat) (owed + 1)))
                { r1 with cur := r1.cur + (min (bs - r1.cur.toNat) (owed + 1) : Nat) } = .stop c (out', r') ∧
                r'.cur = -1 ∧ (c = .endOfData ∨ c = .shortRead ∨ c = .ioError)) := by
        intro r1 hc h0 h8
        obtain ⟨out', r', hc', h1, h3⟩ := ih (owed + 1 - min (bs - r1.cur.toNat) (owed + 1))
          (out ++ blockSlice r1.buf r1.cur.toNat (min (bs - r1.cur.toNat) (owed + 1)))
          { r1 with cur := r1.cur + (min (bs - r1.cur.toNat) (owed + 1) : Nat) }
        exact ⟨out', r', hc.trans (.trans ⟨rfl, rfl, rfl, rfl, rfl, rfl, rfl, rfl, rfl⟩ hc'), fun _ => h1 (by simp only; omega), h3⟩
      rw [Reader.readLoop]
      by_cases hex : r.cur < 0 ∨ r.cur ≥ bs
      · rw [if_pos hex]
        rcases Reader.fetch_cases r with ⟨-, -, hf⟩ | ⟨c, r', hf, hc, hcur, hcode⟩
        · rw [hf]
          exact go _ (Reader.loaded_sameControl r) (by simp [Reader.loaded]) (by simp [Reader.loaded])
        · rw [hf]
          exact ⟨out, r', hc, by omega, .inr ⟨c, rfl, hcur, hcode⟩⟩
      · rw [if_neg hex]
        exact go r (.refl r) (by omega) (by omega)

/-! ### The seek port -/

/-- `SrcSeek` over a source that obeys, to a target that is not negative (20_memory.md R56). -/
theorem Reader.srcSeek_ok {r : Reader} {off : Int} {wh : Origin} (ha : nextAnswer r.source.plan = .obey)
    (h : 0 ≤ (Source.base r.source wh : Int) + off) :
    Reader.srcSeek r off wh = (some ((Source.base r.source wh : Int) + off).toNat,
      { r with source := { r.source with
          pos := ((Source.base r.source wh : Int) + off).toNat
          plan := r.source.plan.drop 1 } }) := by
  simp [Reader.srcSeek, ha, h]

/-- `SrcSeek` that fails: the source says so, or the target is negative (20_memory.md R56). -/
theorem Reader.srcSeek_fail {r : Reader} {off : Int} {wh : Origin}
    (h : nextAnswer r.source.plan = .fail ∨ (Source.base r.source wh : Int) + off < 0) :
    Reader.srcSeek r off wh = (none,
      { r with
        source := { r.source with pos := freePos r.draw, plan := r.source.plan.drop 1 }
        draw := r.draw.next }) := by
  unfold Reader.srcSeek
  rw [if_neg (by rintro ⟨h1, h2⟩; rcases h with h | h <;> [simp [h1] at h; omega])]
  simp

/-- All `SrcSeek` can come to (20_memory.md R56). -/
theorem Reader.srcSeek_cases (r : Reader) (off : Int) (wh : Origin) :
    ∃ o r', Reader.srcSeek r off wh = (o, r') ∧ Reader.sameControl r r' ∧ r'.cur = r.cur ∧ r'.buf = r.buf := by
  rcases nextAnswer_cases r.source.plan with ha | ha
  · by_cases h : 0 ≤ (Source.base r.source wh : Int) + off
    · exact ⟨_, _, Reader.srcSeek_ok ha h, ⟨rfl, rfl, rfl, rfl, rfl, rfl, rfl, rfl, rfl⟩, rfl, rfl⟩
    · exact ⟨_, _, Reader.srcSeek_fail (.inr (by omega)), ⟨rfl, rfl, rfl, rfl, rfl, rfl, rfl, rfl, rfl⟩, rfl, rfl⟩
  · exact ⟨_, _, Reader.srcSeek_fail (.inl ha), ⟨rfl, rfl, rfl, rfl, rfl, rfl, rfl, rfl, rfl⟩, rfl, rfl⟩

end Sys2Proof.Machine
end

