-- ==== Sys2Proof/Laws/Writer.lean ====
section
/-! SUPPORT. What the writer's shared procedures can do, said once: emission, flush and the write loop. -/

namespace Sys2Proof.Machine

open Sys2Proof.Config

/-! ### The checksum over a run of bytes (40_checksum.md R105) -/

theorem crcLegacy_append (poly c : Word32) (s t : List Byte) :
    crcLegacy poly c (s ++ t) = crcLegacy poly (crcLegacy poly c s) t := by
  induction s generalizing c with
  | nil => rfl
  | cons b s ih => exact ih _

/-! ### What no procedure of the writer touches -/

/-- The elements of the writer that only a bind or a finish changes (10_state.md R21 to R24, R29 to R31). -/
def Writer.sameControl (w w' : Writer) : Prop :=
  w'.regs = w.regs ∧ w'.bound = w.bound ∧ w'.key = w.key ∧ w'.ra = w.ra ∧ w'.compat = w.compat ∧
  w'.closed = w.closed ∧ w'.fault = w.fault ∧ w'.resv = w.resv ∧ w'.sink.ra = w.sink.ra

theorem Writer.sameControl.refl (w : Writer) : Writer.sameControl w w := ⟨rfl, rfl, rfl, rfl, rfl, rfl, rfl, rfl, rfl⟩

theorem Writer.sameControl.trans {w w' w'' : Writer} (h : Writer.sameControl w w') (h' : Writer.sameControl w' w'') :
    Writer.sameControl w w'' := by
  obtain ⟨a1, a2, a3, a4, a5, a6, a7, a8, a9⟩ := h
  obtain ⟨b1, b2, b3, b4, b5, b6, b7, b8, b9⟩ := h'
  exact ⟨b1.trans a1, b2.trans a2, b3.trans a3, b4.trans a4, b5.trans a5, b6.trans a6, b7.trans a7, b8.trans a8,
    b9.trans a9⟩

/-! ### Emission -/

/-- Emission over a sink that obeys (41_writer.md R121). -/
theorem Writer.emit_obey {w : Writer} (h : nextAnswer w.sink.plan = .obey) :
    Writer.emit w = .go (Writer.emitted w w.buf) := by
  unfold Writer.emit
  rw [Writer.sinkWrite_obey (by exact h)]
  simp [Writer.emitted]

/-- Emission over a sink that fails raises IO_ERROR (41_writer.md R121). -/
theorem Writer.emit_fail {w : Writer} (h : nextAnswer w.sink.plan = .fail) : ∃ w', Writer.emit w = .stop .ioError w' := by
  have he := Writer.sinkWrite_fail (w := { w with crc := crcLegacy crcPoly w.crc (blockBytes w.buf) })
    (by exact h) (blockBytes (enc w.key w.buf))
  exact ⟨_, by unfold Writer.emit; rw [he]⟩

/-- All emission can come to (41_writer.md R121): the block is at the sink, or IO_ERROR is raised. -/
theorem Writer.emit_cases (w : Writer) :
    Writer.emit w = .go (Writer.emitted w w.buf) ∨
    ∃ w', Writer.emit w = .stop .ioError w' ∧ Writer.sameControl w w' ∧
      (Memory.wf w.sink.mem = true → Memory.wf w'.sink.mem = true) := by
  rcases nextAnswer_cases w.sink.plan with h | h
  · exact .inl (Writer.emit_obey h)
  · have he := Writer.sinkWrite_fail (w := { w with crc := crcLegacy crcPoly w.crc (blockBytes w.buf) })
      (by exact h) (blockBytes (enc w.key w.buf))
    refine .inr ⟨_, by unfold Writer.emit; rw [he], ?_, ?_⟩
    · exact ⟨rfl, rfl, rfl, rfl, rfl, rfl, rfl, rfl, rfl⟩
    · intro; exact Memory.wf_ofCells _

/-! ### Flush -/

/-- The block a flush emits, as the pseudocode builds it (41_writer.md R133). -/
theorem Writer.padded_eq {w : Writer} (h : w.fill ≤ bs) :
    (if w.compat then w.buf else blockPut w.buf w.fill (List.replicate (bs - w.fill) 0)) = Writer.padded w := by
  apply blockBytes_injective
  have hl : (Writer.pending w).length = w.fill := by simp [Writer.pending, blockSlice]; omega
  rw [Writer.padded, blockBytes_blockOfBytes (by
    rw [List.length_append, hl]
    split <;> simp <;> omega)]
  have hp : Writer.pending w = (blockBytes w.buf).take w.fill := by simp [Writer.pending, blockSlice]
  split
  · rw [hp, List.take_append_drop]
  · rw [blockBytes_blockPut _ _ _ (by simp; omega), hp]
    simp [Nat.add_sub_cancel' h]

/-- All a flush can come to (41_writer.md R133). -/
theorem Writer.flush_cases (w : Writer) (hf : w.fill ≤ bs) :
    (w.fill = 0 ∧ Writer.flush w = .go w) ∨
    (0 < w.fill ∧ w.ofs.toNat + (bs - w.fill) > maxOfs ∧ Writer.flush w = .stop .undefined w) ∨
    (0 < w.fill ∧ w.ofs.toNat + (bs - w.fill) ≤ maxOfs ∧
      Writer.flush w = .go { Writer.emitted w (Writer.padded w) with ofs := w.ofs + BitVec.ofNat 64 (bs - w.fill) }) ∨
    (0 < w.fill ∧ w.ofs.toNat + (bs - w.fill) ≤ maxOfs ∧
      ∃ w', Writer.flush w = .stop .ioError w' ∧ Writer.sameControl w w' ∧
      (Memory.wf w.sink.mem = true → Memory.wf w'.sink.mem = true)) := by
  unfold Writer.flush
  by_cases h0 : w.fill = 0
  · exact .inl ⟨h0, by simp [h0]⟩
  · simp only [h0, if_false]
    by_cases ho : w.ofs.toNat + (bs - w.fill) > maxOfs
    · exact .inr (.inl ⟨by omega, ho, by rw [if_pos ho]⟩)
    · rw [if_neg ho, Writer.padded_eq hf]
      rcases Writer.emit_cases { w with buf := Writer.padded w, fill := bs } with h | ⟨w', h, hc, hm⟩
      · refine .inr (.inr (.inl ⟨by omega, by omega, ?_⟩))
        rw [h]
        rfl
      · refine .inr (.inr (.inr ⟨by omega, by omega, w', ?_, ?_, ?_⟩))
        · rw [h]
        · exact hc
        · exact hm

/-- A flush of pending bytes over a sink that obeys (41_writer.md R133). -/
theorem Writer.flush_obey {w : Writer} (h0 : 0 < w.fill) (hf : w.fill ≤ bs)
    (ho : w.ofs.toNat + (bs - w.fill) ≤ maxOfs) (h : nextAnswer w.sink.plan = .obey) :
    Writer.flush w =
      .go { Writer.emitted w (Writer.padded w) with ofs := w.ofs + BitVec.ofNat 64 (bs - w.fill) } := by
  unfold Writer.flush
  simp only [show w.fill ≠ 0 by omega, if_false]
  rw [if_neg (by omega), Writer.padded_eq hf, Writer.emit_obey (by exact h)]
  rfl

/-! ### The write loop -/

theorem Writer.pending_length {w : Writer} (h : w.fill ≤ bs) : (Writer.pending w).length = w.fill := by
  simp [Writer.pending, blockSlice]; omega

/-- Bytes that do not fill the block only join the pending ones. -/
theorem Writer.advance_of_short {w : Writer} {s : List Byte} (hf : w.fill < bs) (h : w.fill + s.length < bs) :
    Writer.advance w s = { w with
      buf := blockPut w.buf w.fill s
      fill := w.fill + s.length
      ofs := w.ofs + BitVec.ofNat 64 s.length } := by
  have hp := Writer.pending_length (w := w) (by omega)
  have hlen : (Writer.pending w ++ s).length = w.fill + s.length := by simp [hp]
  have hm : (Writer.pending w ++ s).length / bs = 0 := by rw [hlen]; exact Nat.div_eq_of_lt h
  have hr : (Writer.pending w ++ s).length % bs = w.fill + s.length := by rw [hlen]; exact Nat.mod_eq_of_lt h
  have hb : blockOfBytes (Writer.pending w ++ s ++ (blockBytes w.buf).drop (w.fill + s.length)) =
      blockPut w.buf w.fill s := by
    apply blockBytes_injective
    rw [blockBytes_blockOfBytes (by simp [hp]; omega), blockBytes_blockPut _ _ _ (by omega)]
    simp [Writer.pending, blockSlice]
  unfold Writer.advance
  simp only [hm, hr]
  simp only [if_true, Nat.mul_zero, List.drop_zero, List.take_zero, encBlocks, Memory.write_nil, Nat.add_zero, hb]
  rfl

/-- Bytes that fill the block emit it, and the rest goes on from an empty buffer. -/
theorem Writer.advance_of_full {w : Writer} {s : List Byte} (hf : w.fill < bs) (h : bs ≤ w.fill + s.length) :
    Writer.advance w s =
      Writer.advance
        (Writer.emitted { w with ofs := w.ofs + BitVec.ofNat 64 (bs - w.fill) }
          (blockPut w.buf w.fill (s.take (bs - w.fill))))
        (s.drop (bs - w.fill)) := by
  have hp := Writer.pending_length (w := w) (by omega)
  set k := bs - w.fill with hk
  set blk := blockPut w.buf w.fill (s.take k) with hblk
  have htake : (s.take k).length = k := by simp; omega
  have hbytes : blockBytes blk = Writer.pending w ++ s.take k := by
    rw [hblk, blockBytes_blockPut _ _ _ (by omega)]
    rw [List.drop_eq_nil_of_le (by simp; omega)]
    simp [Writer.pending, blockSlice]
  have hsplit : Writer.pending w ++ s = blockBytes blk ++ s.drop k := by
    rw [hbytes, List.append_assoc, List.take_append_drop]
  have hlen : (Writer.pending w ++ s).length = bs + (s.drop k).length := by rw [hsplit]; simp
  set q := (s.drop k).length with hq
  have hdiv : (Writer.pending w ++ s).length / bs = q / bs + 1 := by rw [hlen]; exact Nat.add_div_left q (by decide)
  have hmod : (Writer.pending w ++ s).length % bs = q % bs := by rw [hlen]; exact Nat.add_mod_left bs q
  have hpe : Writer.pending (Writer.emitted { w with ofs := w.ofs + BitVec.ofNat 64 k } blk) = [] := by
    simp [Writer.pending, Writer.emitted, blockSlice]
  have htk : ∀ j, (Writer.pending w ++ s).take (bs * (j + 1)) = blockBytes blk ++ (s.drop k).take (bs * j) := by
    intro j
    rw [hsplit, List.take_append, List.take_of_length_le (by simp [Nat.mul_add])]
    simp [Nat.mul_add]
  have hdr : ∀ j, (Writer.pending w ++ s).drop (bs * (j + 1)) = (s.drop k).drop (bs * j) := by
    intro j
    rw [hsplit, List.drop_append, List.drop_eq_nil_of_le (by simp [Nat.mul_add]), List.nil_append]
    simp [Nat.mul_add]
  unfold Writer.advance
  simp only [hpe, List.nil_append, hdiv, hmod, ← hq]
  have hlast : (if q / bs + 1 = 0 then blockBytes w.buf
      else ((Writer.pending w ++ s).drop (bs * (q / bs + 1 - 1))).take bs) =
      (if q / bs = 0 then blockBytes blk else ((s.drop k).drop (bs * (q / bs - 1))).take bs) := by
    rw [if_neg (Nat.succ_ne_zero _), Nat.add_sub_cancel]
    split_ifs with hz
    · rw [hz, Nat.mul_zero, List.drop_zero, hsplit, List.take_append, List.take_of_length_le (by simp)]
      simp
    · obtain ⟨j, hj⟩ : ∃ j, q / bs = j + 1 := Nat.exists_eq_succ_of_ne_zero hz
      rw [hj, hdr, Nat.add_sub_cancel]
  rw [hlast, hdr, htk]
  simp only [Writer.emitted]
  congr 1
  · rw [BitVec.add_assoc, ← BitVec.ofNat_add]
    congr 2
    simp [q]
    omega
  · rw [Nat.mul_add]; omega
  · congr 1
    · rw [encBlocks, Memory.write_append]
      simp only [blockBytes_length]
      have h1 : (Writer.pending w ++ s).take bs = blockBytes blk := by simpa using htk 0
      have h2 : (Writer.pending w ++ s).drop bs = s.drop k := by simpa using hdr 0
      rw [h1, h2, blockOfBytes_blockBytes]
    · rw [Nat.mul_add]; omega
    · rw [List.drop_drop]
      congr 1
      omega

/-- The write loop over a sink that obeys (41_writer.md R123). -/
theorem Writer.writeLoop_obey {turns : Nat} {w : Writer} {s : List Byte} (ht : s.length ≤ turns) (hf : w.fill < bs)
    (h : obeysNext w.sink.plan ((w.fill + s.length) / bs)) :
    Writer.writeLoop turns w s = .go (Writer.advance w s) := by
  induction turns generalizing w s with
  | zero =>
    obtain rfl : s = [] := List.length_eq_zero_iff.1 (by omega)
    rw [Writer.advance_of_short hf (by simpa using hf)]
    simp [Writer.writeLoop, blockPut]
  | succ turns ih =>
    cases s with
    | nil =>
      rw [Writer.advance_of_short hf (by simpa using hf)]
      simp [Writer.writeLoop, blockPut]
    | cons b rest =>
      have hlen : (b :: rest).length = rest.length + 1 := rfl
      rw [Writer.writeLoop]
      by_cases hs : w.fill + (b :: rest).length < bs
      · have hk : min (bs - w.fill) (rest.length + 1) = (b :: rest).length := by omega
        simp only [hk]
        rw [if_neg (by omega), List.drop_length, List.take_length, Writer.advance_of_short hf hs]
        cases turns <;> rfl
      · have hk : min (bs - w.fill) (rest.length + 1) = bs - w.fill := by omega
        simp only [hk]
        rw [if_pos (by omega)]
        have hm : (w.fill + (b :: rest).length) / bs = ((b :: rest).drop (bs - w.fill)).length / bs + 1 := by
          rw [show w.fill + (b :: rest).length = bs + ((b :: rest).drop (bs - w.fill)).length by
            simp only [List.length_drop]; omega]
          exact Nat.add_div_left _ (by decide)
        rw [hm] at h
        rw [Writer.emit_obey (by exact h.nextAnswer (Nat.succ_pos _))]
        simp only
        rw [Writer.advance_of_full hf (by omega)]
        refine ih ?_ ?_ ?_
        · simp only [List.length_drop]; omega
        · exact Nat.succ_pos _
        · simp only [Writer.emitted, Nat.zero_add]
          rw [List.drop_one]
          exact h.tail

/-- The write loop over a sink that fails one of the blocks it emits raises IO_ERROR (41_writer.md R123). -/
theorem Writer.writeLoop_fail {turns : Nat} {w : Writer} {s : List Byte} (ht : s.length ≤ turns) (hf : w.fill < bs)
    (h : ¬ obeysNext w.sink.plan ((w.fill + s.length) / bs)) :
    ∃ w', Writer.writeLoop turns w s = .stop .ioError w' := by
  induction turns generalizing w s with
  | zero =>
    obtain rfl : s = [] := List.length_eq_zero_iff.1 (by omega)
    exact absurd (by rw [Nat.div_eq_of_lt (by simpa using hf)]; simp [obeysNext]) h
  | succ turns ih =>
    cases s with
    | nil => exact absurd (by rw [Nat.div_eq_of_lt (by simpa using hf)]; simp [obeysNext]) h
    | cons b rest =>
      have hlen : (b :: rest).length = rest.length + 1 := rfl
      rw [Writer.writeLoop]
      by_cases hs : w.fill + (b :: rest).length < bs
      · exact absurd (by rw [Nat.div_eq_of_lt hs]; simp [obeysNext]) h
      · have hk : min (bs - w.fill) (rest.length + 1) = bs - w.fill := by omega
        simp only [hk]
        rw [if_pos (by omega)]
        have hm : (w.fill + (b :: rest).length) / bs = ((b :: rest).drop (bs - w.fill)).length / bs + 1 := by
          rw [show w.fill + (b :: rest).length = bs + ((b :: rest).drop (bs - w.fill)).length by
            simp only [List.length_drop]; omega]
          exact Nat.add_div_left _ (by decide)
        rw [hm] at h
        rcases nextAnswer_cases w.sink.plan with ha | ha
        · rw [Writer.emit_obey (by exact ha)]
          simp only
          refine ih ?_ ?_ ?_
          · simp only [List.length_drop]; omega
          · exact Nat.succ_pos _
          · simp only [Writer.emitted, Nat.zero_add]
            intro hc
            apply h
            intro a hmem
            cases hp : w.sink.plan with
            | nil => simp [hp] at hmem
            | cons x plan =>
              rw [hp] at hmem hc ha
              rcases List.mem_cons.1 (by simpa using hmem) with rfl | hmem
              · exact ha
              · exact hc a (by simpa using hmem)
        · obtain ⟨w', he⟩ := Writer.emit_fail (w := { w with
            buf := blockPut w.buf w.fill ((b :: rest).take (bs - w.fill))
            fill := w.fill + (bs - w.fill)
            ofs := w.ofs + BitVec.ofNat 64 (bs - w.fill) }) (by exact ha)
          exact ⟨w', by rw [he]⟩

/-- The write loop over any sink: it goes through or raises IO_ERROR, and touches the data path only. -/
theorem Writer.writeLoop_frame (turns : Nat) (w : Writer) (s : List Byte) :
    ∃ w', Writer.sameControl w w' ∧ (Memory.wf w.sink.mem = true → Memory.wf w'.sink.mem = true) ∧
      (Writer.writeLoop turns w s = .go w' ∨ Writer.writeLoop turns w s = .stop .ioError w') := by
  induction turns generalizing w s with
  | zero => exact ⟨w, .refl w, id, .inl rfl⟩
  | succ turns ih =>
    cases s with
    | nil => exact ⟨w, .refl w, id, .inl rfl⟩
    | cons b rest =>
      rw [Writer.writeLoop]
      set k := min (bs - w.fill) (rest.length + 1)
      set w1 : Writer := { w with
        buf := blockPut w.buf w.fill ((b :: rest).take k)
        fill := w.fill + k
        ofs := w.ofs + BitVec.ofNat 64 k }
      have h1 : Writer.sameControl w w1 := ⟨rfl, rfl, rfl, rfl, rfl, rfl, rfl, rfl, rfl⟩
      split
      · rcases Writer.emit_cases w1 with he | ⟨w2, he, hc, hm⟩
        · rw [he]
          obtain ⟨w3, hc3, hm3, h3⟩ := ih (Writer.emitted w1 w1.buf) ((b :: rest).drop k)
          refine ⟨w3, (h1.trans ?_).trans hc3, fun hw => hm3 (Memory.wf_write _ _ hw), h3⟩
          exact ⟨rfl, rfl, rfl, rfl, rfl, rfl, rfl, rfl, rfl⟩
        · rw [he]
          exact ⟨w2, h1.trans hc, hm, .inr rfl⟩
      · obtain ⟨w3, hc3, hm3, h3⟩ := ih w1 ((b :: rest).drop k)
        exact ⟨w3, h1.trans hc3, hm3, h3⟩

end Sys2Proof.Machine
end

