-- ==== Sys2Proof/Laws/Stream.lean ====
section
/-! SUPPORT. The block-level reading of byte strings: lengths, prefixes, and decryption after encryption; what follows for
the writer that has taken bytes and the reader that has delivered them. -/

namespace Sys2Proof.Machine

open Sys2Proof.Config

@[simp] theorem encBlocks_length (key : Word64) (m : Nat) (p : List Byte) : (encBlocks key m p).length = bs * m := by
  induction m generalizing p with
  | zero => rfl
  | succ m ih =>
    rw [encBlocks, List.length_append, ih, blockBytes_length, Nat.mul_add]
    omega

@[simp] theorem decBlocks_length (key : Word64) (m : Nat) (c : List Byte) : (decBlocks key m c).length = bs * m := by
  induction m generalizing c with
  | zero => rfl
  | succ m ih =>
    rw [decBlocks, List.length_append, ih, blockBytes_length, Nat.mul_add]
    omega

/-- The blocks of a byte string, then those of what follows them. -/
theorem encBlocks_add (key : Word64) (m k : Nat) (p : List Byte) :
    encBlocks key (m + k) p = encBlocks key m p ++ encBlocks key k (p.drop (bs * m)) := by
  induction m generalizing p with
  | zero => simp [encBlocks]
  | succ m ih =>
    rw [Nat.add_right_comm, encBlocks, encBlocks, ih, List.append_assoc, List.drop_drop]
    congr 3
    rw [Nat.mul_add]
    congr 1
    omega

/-- Only the first bytes matter. -/
theorem encBlocks_take (key : Word64) (m k : Nat) (p : List Byte) (h : bs * m ≤ k) :
    encBlocks key m (p.take k) = encBlocks key m p := by
  induction m generalizing p k with
  | zero => rfl
  | succ m ih =>
    rw [Nat.mul_add, Nat.mul_one] at h
    rw [encBlocks, encBlocks, List.take_take, min_eq_left (by omega), List.drop_take, ih _ _ (by omega)]

/-- Decryption with a key the cipher accepts gives back whole encrypted blocks (00_scope.md R9). -/
theorem decBlocks_encBlocks {key : Word64} (hk : keyValid key = true) (m : Nat) (p : List Byte)
    (h : bs * m ≤ p.length) :
    decBlocks key m (encBlocks key m p) = p.take (bs * m) := by
  induction m generalizing p with
  | zero => rfl
  | succ m ih =>
    rw [Nat.mul_add, Nat.mul_one] at h
    rw [encBlocks, decBlocks, List.take_append_of_le_length (by simp), List.take_of_length_le (by simp),
      blockOfBytes_blockBytes, dec_enc hk, List.drop_append_of_le_length (by simp), List.drop_of_length_le (by simp),
      List.nil_append, ih _ (by simp only [List.length_drop]; omega),
      blockBytes_blockOfBytes (by rw [List.length_take]; omega), Nat.mul_add, Nat.mul_one, Nat.add_comm (bs * m),
      ← List.take_add]

theorem decBlocks_add (key : Word64) (m k : Nat) (c : List Byte) :
    decBlocks key (m + k) c = decBlocks key m c ++ decBlocks key k (c.drop (bs * m)) := by
  induction m generalizing c with
  | zero => simp [decBlocks]
  | succ m ih =>
    rw [Nat.add_right_comm, decBlocks, decBlocks, ih, List.append_assoc, List.drop_drop]
    congr 3
    rw [Nat.mul_add]
    congr 1
    omega

theorem decBlocks_take (key : Word64) (m k : Nat) (c : List Byte) (h : bs * m ≤ k) :
    decBlocks key m (c.take k) = decBlocks key m c := by
  induction m generalizing c k with
  | zero => rfl
  | succ m ih =>
    rw [Nat.mul_add, Nat.mul_one] at h
    rw [decBlocks, decBlocks, List.take_take, min_eq_left (by omega), List.drop_take, ih _ _ (by omega)]

/-! ### Taking bytes in two parts (41_writer.md R147) -/

theorem blockPut_append (b : Block) (f : Nat) (s t : List Byte) :
    blockPut b f (s ++ t) = blockPut (blockPut b f s) (f + s.length) t := by
  induction s generalizing b f with
  | nil => rfl
  | cons x s ih =>
    rw [List.cons_append, blockPut, blockPut, ih, List.length_cons]
    congr 1
    omega

/-- Taking `a` and then `b` is taking `a ++ b`. -/
theorem Writer.advance_append {w : Writer} {a : List Byte} (hf : w.fill < bs) (b : List Byte) :
    Writer.advance (Writer.advance w a) b = Writer.advance w (a ++ b) := by
  induction hn : a.length using Nat.strong_induction_on generalizing w a with
  | _ n ih =>
    by_cases hs : w.fill + a.length < bs
    · have hofs : ∀ k, w.ofs + BitVec.ofNat 64 a.length + BitVec.ofNat 64 k = w.ofs + BitVec.ofNat 64 (a.length + k) := by
        intro k; rw [BitVec.add_assoc, ← BitVec.ofNat_add]
      rw [Writer.advance_of_short hf hs]
      by_cases hs2 : w.fill + a.length + b.length < bs
      · rw [Writer.advance_of_short (by exact hs) (by exact hs2), Writer.advance_of_short hf (by simp; omega)]
        simp only [blockPut_append, hofs, List.length_append, Nat.add_assoc]
      · rw [Writer.advance_of_full (by exact hs) (by simp only; omega), Writer.advance_of_full hf (by simp; omega)]
        simp only
        have htake : (a ++ b).take (bs - w.fill) = a ++ b.take (bs - (w.fill + a.length)) := by
          rw [List.take_append, List.take_of_length_le (by omega)]
          congr 2
          omega
        have hdrop : (a ++ b).drop (bs - w.fill) = b.drop (bs - (w.fill + a.length)) := by
          rw [List.drop_append, List.drop_of_length_le (by omega), List.nil_append]
          congr 1
          omega
        rw [htake, hdrop, blockPut_append, hofs, show a.length + (bs - (w.fill + a.length)) = bs - w.fill by omega]
        rfl
    · have hk : (a ++ b).take (bs - w.fill) = a.take (bs - w.fill) := List.take_append_of_le_length (by omega)
      have hd : (a ++ b).drop (bs - w.fill) = a.drop (bs - w.fill) ++ b := List.drop_append_of_le_length (by omega)
      rw [Writer.advance_of_full hf (by omega), Writer.advance_of_full hf (by simp; omega), hk, hd]
      exact ih _ (by rw [List.length_drop]; omega) (Nat.succ_pos _) rfl

/-! ### Delivering bytes in two parts (42_reader.md R193) -/

/-- The next blocks, then the ones after them. -/
theorem Source.nextBlocks_add {c : Source} {m : Nat} (h : (Source.nextBlocks c m).length = bs * m) (k calls : Nat) :
    Source.nextBlocks c (m + k) =
      Source.nextBlocks c m ++ Source.nextBlocks (Source.moved c (c.pos + bs * m) calls) k := by
  unfold Source.nextBlocks
  rw [Nat.mul_add]
  exact Memory.readUpTo_add h _

/-- The block count of a longer delivery (42_reader.md R174). -/
theorem Reader.le_blocksFor (r : Reader) (n : Nat) :
    n ≤ (Reader.unread r).length + bs * Reader.blocksFor r n ∧
    (0 < Reader.blocksFor r n → (Reader.unread r).length + bs * Reader.blocksFor r n < n + bs) := by
  unfold Reader.blocksFor
  show n ≤ (Reader.unread r).length + 8 * ((n - (Reader.unread r).length + 7) / 8) ∧
    (0 < (n - (Reader.unread r).length + 7) / 8 →
      (Reader.unread r).length + 8 * ((n - (Reader.unread r).length + 7) / 8) < n + 8)
  omega

theorem Reader.plaintext_length (r : Reader) (m : Nat) :
    (Reader.plaintext r m).length = (Reader.unread r).length + bs * m := by
  rw [Reader.plaintext, List.length_append, decBlocks_length]

/-- The last of the first blocks of a ciphertext, decrypted. -/
theorem decBlocks_drop_last (key : Word64) (m : Nat) (c : List Byte) (hc : c.length = bs * (m + 1)) :
    (decBlocks key (m + 1) c).drop (bs * m) = blockBytes (dec key (blockOfBytes (c.drop (bs * m)))) := by
  rw [decBlocks_add, List.drop_append_of_le_length (by simp), List.drop_of_length_le (by simp), List.nil_append,
    decBlocks, decBlocks, List.append_nil, List.take_of_length_le
    (by rw [List.length_drop, hc, Nat.mul_add]; omega)]

/-- What is left of the loaded block once `n` bytes were delivered: the plaintext fetched for them but not delivered. -/
theorem Reader.unread_advance {r : Reader} {n : Nat}
    (hl : (Source.nextBlocks r.source (Reader.blocksFor r n)).length = bs * Reader.blocksFor r n) :
    Reader.unread (Reader.advance r n) = (Reader.plaintext r (Reader.blocksFor r n)).drop n := by
  obtain ⟨h1, h2⟩ := Reader.le_blocksFor r n
  by_cases hm : Reader.blocksFor r n = 0
  · have hn : n ≤ (Reader.unread r).length := by rw [hm] at h1; simpa using h1
    rw [Reader.advance_of_loaded hn, hm]
    simp only [Reader.plaintext, decBlocks, List.append_nil]
    by_cases h0 : 0 ≤ r.cur
    · rw [Reader.unread_of_loaded h0, Reader.unread_of_loaded (by simp only; omega)]
      simp only [blockSlice]
      rw [List.take_of_length_le (by simp), List.take_of_length_le (by simp), List.drop_drop]
      congr 1
      omega
    · have hu : Reader.unread r = [] := Reader.unread_eq_nil (.inl (by omega))
      rw [hu] at hn ⊢
      obtain rfl : n = 0 := by simpa using hn
      rw [Reader.unread_eq_nil (.inl (by simp only; omega))]
      rfl
  · obtain ⟨m, hm'⟩ := Nat.exists_eq_succ_of_ne_zero hm
    have hlen := Reader.plaintext_length r (Reader.blocksFor r n)
    have hb := h2 (by omega)
    have hbuf : (Reader.advance r n).buf =
        dec r.key (blockOfBytes ((Source.nextBlocks r.source (Reader.blocksFor r n)).drop (bs * m))) := by
      simp only [Reader.advance, if_neg hm]
      rw [hm', Nat.succ_sub_one]
    have hcur : (Reader.advance r n).cur = bs - (((Reader.plaintext r (Reader.blocksFor r n)).length : Int) - n) := by
      simp only [Reader.advance, if_neg hm]
    rw [Reader.unread_of_loaded (by rw [hcur]; omega), hbuf, blockSlice]
    rw [List.take_of_length_le (by simp)]
    rw [hm'] at hl h1 hb hlen hcur ⊢
    rw [← decBlocks_drop_last r.key m _ hl, List.drop_drop, Reader.plaintext, List.drop_append, List.drop_of_length_le
      (l := Reader.unread r) (by rw [Nat.succ_eq_add_one, Nat.mul_add] at hb; omega), List.nil_append]
    congr 1
    rw [hcur, hlen]
    rw [Nat.succ_eq_add_one, Nat.mul_add] at *
    omega

/-- The blocks of a delivery are the blocks of its parts. -/
theorem Reader.blocksFor_add {r : Reader} {a : Nat} (b : Nat)
    (hl : (Source.nextBlocks r.source (Reader.blocksFor r a)).length = bs * Reader.blocksFor r a) :
    Reader.blocksFor r (a + b) = Reader.blocksFor r a + Reader.blocksFor (Reader.advance r a) b := by
  obtain ⟨h1, h2⟩ := Reader.le_blocksFor r a
  have hu : (Reader.unread (Reader.advance r a)).length = (Reader.unread r).length + bs * Reader.blocksFor r a - a := by
    rw [Reader.unread_advance hl, List.length_drop, Reader.plaintext_length]
  conv => rhs; rhs; unfold Reader.blocksFor
  rw [hu]
  unfold Reader.blocksFor at h1 h2 ⊢
  change a ≤ _ + 8 * ((a - _ + 7) / 8) at h1
  change 0 < (a - _ + 7) / 8 → _ + 8 * ((a - _ + 7) / 8) < a + 8 at h2
  show (a + b - _ + 7) / 8 = (a - _ + 7) / 8 + (b - (_ + 8 * ((a - _ + 7) / 8) - a) + 7) / 8
  omega

/-- The plaintext of a delivery is that of its parts. -/
theorem Reader.plaintext_add {r : Reader} {a : Nat} (b : Nat)
    (hl : (Source.nextBlocks r.source (Reader.blocksFor r (a + b))).length = bs * Reader.blocksFor r (a + b)) :
    Reader.plaintext r (Reader.blocksFor r (a + b)) = (Reader.plaintext r (Reader.blocksFor r a)).take a ++
      Reader.plaintext (Reader.advance r a) (Reader.blocksFor (Reader.advance r a) b) := by
  have hle : Reader.blocksFor r a ≤ Reader.blocksFor r (a + b) := by
    unfold Reader.blocksFor
    exact Nat.div_le_div_right (by omega)
  have hl1 := Source.nextBlocks_length_of_le hl hle
  rw [Reader.blocksFor_add b hl1]
  set m1 := Reader.blocksFor r a with hm1
  set m2 := Reader.blocksFor (Reader.advance r a) b
  have hsrc : (Reader.advance r a).source = Source.moved r.source (r.source.pos + bs * m1) m1 := rfl
  have hkey : (Reader.advance r a).key = r.key := rfl
  conv => rhs; rhs; rw [Reader.plaintext, hsrc, hkey, Reader.unread_advance hl1]
  rw [← List.append_assoc, List.take_append_drop, Reader.plaintext, Source.nextBlocks_add hl1 m2 m1, decBlocks_add,
    List.drop_append_of_le_length (by omega), List.drop_of_length_le (by omega), List.nil_append, Reader.plaintext,
    List.append_assoc]
  congr 2
  rw [← decBlocks_take r.key m1 (bs * m1) _ (le_refl _), List.take_append_of_le_length (by omega),
    List.take_of_length_le (by omega)]

/-- Delivering `a` bytes and then `b` is delivering `a + b`. -/
theorem Reader.advance_add {r : Reader} {a : Nat} (b : Nat)
    (hl : (Source.nextBlocks r.source (Reader.blocksFor r (a + b))).length = bs * Reader.blocksFor r (a + b)) :
    Reader.advance (Reader.advance r a) b = Reader.advance r (a + b) := by
  have hle : Reader.blocksFor r a ≤ Reader.blocksFor r (a + b) := by
    unfold Reader.blocksFor
    exact Nat.div_le_div_right (by omega)
  have hl1 := Source.nextBlocks_length_of_le hl hle
  have hp := congrArg List.length (Reader.plaintext_add b hl)
  have hsum := Reader.blocksFor_add b hl1
  obtain ⟨hge, -⟩ := Reader.le_blocksFor r a
  rw [List.length_append, List.length_take, Reader.plaintext_length, Reader.plaintext_length] at hp
  rw [min_eq_left hge] at hp
  have hlen2 := Reader.plaintext_length (Reader.advance r a) (Reader.blocksFor (Reader.advance r a) b)
  have hsrc : (Reader.advance r a).source =
    Source.moved r.source (r.source.pos + bs * Reader.blocksFor r a) (Reader.blocksFor r a) := rfl
  have hnext := Source.nextBlocks_add hl1 (Reader.blocksFor (Reader.advance r a) b) (Reader.blocksFor r a)
  rw [← hsrc, ← hsum] at hnext
  generalize hM : Reader.blocksFor r (a + b) = M at *
  generalize hM2 : Reader.blocksFor (Reader.advance r a) b = m2 at *
  have hL := Reader.plaintext_length r M
  have hL1 := Reader.plaintext_length r (Reader.blocksFor r a)
  have unfolded : ∀ (x : Reader) (k : Nat), Reader.advance x k = { x with
      buf := if Reader.blocksFor x k = 0 then x.buf
        else dec x.key (blockOfBytes ((Source.nextBlocks x.source (Reader.blocksFor x k)).drop
          (bs * (Reader.blocksFor x k - 1))))
      cur := if Reader.blocksFor x k = 0 then x.cur + k
        else bs - (((Reader.plaintext x (Reader.blocksFor x k)).length : Int) - k)
      source := Source.moved x.source (x.source.pos + bs * Reader.blocksFor x k) (Reader.blocksFor x k) } :=
    fun _ _ => rfl
  rw [unfolded (Reader.advance r a) b, unfolded r (a + b), hM, hM2]
  by_cases h2 : m2 = 0
  · obtain rfl : M = Reader.blocksFor r a := by omega
    rw [if_pos h2, if_pos h2, h2, unfolded r a]
    simp only [Source.moved, Nat.mul_zero, Nat.add_zero, List.drop_zero]
    congr 1
    split <;> push_cast <;> omega
  · have hM' : M ≠ 0 := by omega
    rw [if_neg h2, if_neg h2, if_neg hM', if_neg hM', hlen2, hL]
    have hbuf : (Source.nextBlocks (Reader.advance r a).source m2).drop (bs * (m2 - 1)) =
        (Source.nextBlocks r.source M).drop (bs * (M - 1)) := by
      rw [show bs * (M - 1) = (Source.nextBlocks r.source (Reader.blocksFor r a)).length + bs * (m2 - 1) by
        rw [hl1, ← Nat.mul_add]; congr 1; omega, hnext, List.drop_length_add_append]
    rw [hbuf, hsrc]
    simp only [Source.moved, List.drop_drop, ← hsum]
    have hpos : r.source.pos + bs * Reader.blocksFor r a + bs * m2 = r.source.pos + bs * M := by
      rw [hsum, Nat.mul_add, Nat.add_assoc]
    rw [hpos]
    have hcur : (bs : Int) - ((((Reader.unread (Reader.advance r a)).length + bs * m2 : Nat) : Int) - (b : Nat)) =
        bs - ((((Reader.unread r).length + bs * M : Nat) : Int) - ((a + b : Nat) : Int)) := by omega
    rw [hcur]
    rfl

end Sys2Proof.Machine
end

