-- ==== Sys2Proof/Tests/Slice0.lean ====
section
/-! SUPPORT. The model's own tests: ill-formed commands refused, every command word written out bit by bit from its row
of 30_encoding.md R91 or R92, single steps whose expected results are rows of 95_test_vectors.md, and for every
statement with premises a state and operands that meet them. -/

open Sys2Proof Sys2Proof.Machine Sys2Proof.Config

set_option maxRecDepth 20000

namespace Sys2Proof.Tests

/-! ### Well-formedness (00_scope.md R11) -/

theorem test_wWrite_len_65536_refused : Instr.wellFormed (.wWrite 65536) = false := by decide
theorem test_rRead_len_65536_refused : Instr.wellFormed (.rRead 65536) = false := by decide
theorem test_longest_len_accepted :
    Instr.wellFormed (.wWrite 65535) = true ∧ Instr.wellFormed (.rRead 65535) = true := by decide

/-! ### Decoding: LEN, RSV, C, WH, S, WC, UNIT, OP, most significant first (30_encoding.md R80, R91, R92) -/

theorem test_decode_writer_words : ∀ p ∈ ([
    (0b0000000000000000_00_0_00_0_00_00_000000#32, .wBind false),
    (0b0000000000000000_00_1_00_0_00_00_000000#32, .wBind true),
    (0b0000000000000011_00_0_00_0_00_00_000001#32, .wWrite 3),
    (0b1111111111111111_00_0_00_0_00_00_000001#32, .wWrite 65535),
    (0b0000000000000000_00_0_00_0_00_00_000010#32, .wWriteU8),
    (0b0000000000000000_00_0_00_1_00_00_000010#32, .wWriteI8),
    (0b0000000000000000_00_0_00_0_01_00_000010#32, .wWriteU16),
    (0b0000000000000000_00_0_00_1_01_00_000010#32, .wWriteI16),
    (0b0000000000000000_00_0_00_0_10_00_000010#32, .wWriteU32),
    (0b0000000000000000_00_0_00_1_10_00_000010#32, .wWriteI32),
    (0b0000000000000000_00_0_00_0_11_00_000010#32, .wWriteU64),
    (0b0000000000000000_00_0_00_1_11_00_000010#32, .wWriteI64),
    (0b0000000000000000_00_0_00_0_00_00_000011#32, .wFlush),
    (0b0000000000000000_00_0_00_0_00_00_000100#32, .wClose),
    (0b0000000000000000_00_0_00_0_00_00_000101#32, .wReserve),
    (0b0000000000000000_00_0_00_0_00_00_000110#32, .wPatchBlock),
    (0b0000000000000000_00_0_00_0_00_00_000111#32, .wPatchU8),
    (0b0000000000000000_00_0_00_0_01_00_000111#32, .wPatchU16),
    (0b0000000000000000_00_0_00_0_10_00_000111#32, .wPatchU32),
    (0b0000000000000000_00_0_00_0_11_00_000111#32, .wPatchU64),
    (0b0000000000000000_00_0_00_0_00_00_001000#32, .wChecksum),
    (0b0000000000000000_00_0_00_0_00_00_001001#32, .wResetChecksum),
    (0b0000000000000000_00_0_00_0_00_00_001010#32, .wBytesWritten)] : List (Word32 × Instr)),
    decode p.1 = some p.2 ∧ encode p.2 = p.1 := by decide

theorem test_decode_reader_words : ∀ p ∈ ([
    (0b0000000000000000_00_0_00_0_00_01_000000#32, .rBind),
    (0b0000000000010100_00_0_00_0_00_01_000001#32, .rRead 20),
    (0b0000000000000000_00_0_00_0_00_01_000010#32, .rReadU8),
    (0b0000000000000000_00_0_00_1_00_01_000010#32, .rReadI8),
    (0b0000000000000000_00_0_00_0_01_01_000010#32, .rReadU16),
    (0b0000000000000000_00_0_00_1_01_01_000010#32, .rReadI16),
    (0b0000000000000000_00_0_00_0_10_01_000010#32, .rReadU32),
    (0b0000000000000000_00_0_00_1_10_01_000010#32, .rReadI32),
    (0b0000000000000000_00_0_00_0_11_01_000010#32, .rReadU64),
    (0b0000000000000000_00_0_00_1_11_01_000010#32, .rReadI64),
    (0b0000000000000000_00_0_00_0_00_01_000011#32, .rBuffered),
    (0b0000000000000000_00_0_00_0_00_01_000100#32, .rAlign),
    (0b0000000000000000_00_0_00_0_00_01_000101#32, .rReadAligned),
    (0b0000000000000000_00_0_00_0_00_01_000110#32, .rSeekSet),
    (0b0000000000000000_00_0_01_0_00_01_000110#32, .rSeekCur),
    (0b0000000000000000_00_0_10_0_00_01_000110#32, .rSeekEnd)] : List (Word32 × Instr)),
    decode p.1 = some p.2 ∧ encode p.2 = p.1 := by decide

/-- Words that 95_test_vectors.md section 2.2 calls ILLEGAL, and one of each reserved opcode's ends. -/
theorem test_decode_illegal_words : ∀ w ∈ ([
    0x00000407#32, 0x00000203#32, 0x00010003#32, 0x00004001#32, 0x00002001#32, 0x00010000#32, 0x0000000B#32,
    0x0000003F#32, 0x00002040#32, 0x00000842#32, 0x00000245#32, 0x00008045#32, 0x00001846#32, 0x00000047#32,
    0x0000007F#32, 0x00000080#32, 0x000000C1#32] : List Word32), decode w = none := by
  intro w hw; fin_cases hw <;> rfl

/-! ### Small states -/

/-- A writer bound with key 7 over the reference sink. -/
def writer : Writer := { Writer.resetWith Sink.initial ⟨0, false, 0⟩ with bound := true, key := 7, ra := true }

/-- A writer with the bytes `20 21 .. 26`, the first `fill` of them pending, and the offset `fill`. -/
def filled (fill : Nat) : Writer :=
  { writer with
    buf := #v[0x20, 0x21, 0x22, 0x23, 0x24, 0x25, 0x26, 0], fill := fill, ofs := BitVec.ofNat 64 fill }

/-- A reader bound with key 7 and the block `20 21 .. 27` loaded, over a source of `len` bytes. -/
def reader (len : Nat) (cur : Int) (pos : Nat) : Reader :=
  { Reader.resetWith Source.initial [] ⟨0, true, 0⟩ with
    source := { Source.initial with mem := Memory.ofBytes (List.replicate len 0), pos := pos }
    bound := true, key := 7, seek := true, buf := #v[0x20, 0x21, 0x22, 0x23, 0x24, 0x25, 0x26, 0x27], cur := cur }

/-- A reader over the 16 bytes `E(P0) E(P1)` of 95_test_vectors.md section 2.7, at its start. -/
def cipherReader : Reader :=
  let bytes := blockBytes (enc 7 #v[0x20, 0x21, 0x22, 0x23, 0x24, 0x25, 0x26, 0x27]) ++
    blockBytes (enc 7 #v[0x28, 0x29, 0x2A, 0x2B, 0x2C, 0x2D, 0x2E, 0x2F])
  { reader 0 (-1) 0 with source := { Source.initial with mem := Memory.ofBytes bytes } }

/-- The operands of the next command. -/
def regs (arg0 arg1 : Word64) (din : List Byte) : HostRegs := { HostRegs.reset with arg0 := arg0, arg1 := arg1, din := din }

def Instance.of (w : Writer) (r : Reader) : Instance := { w := w, r := r }

def machine (w : Writer) (r : Reader) (host : List HostOp) : State :=
  { insts := [Instance.of w r], sel := 0, host := host, hostData := 0 }

/-- The writer after one command with its operands. -/
def runW (i : Instr) (w : Writer) (arg0 arg1 : Word64) (din : List Byte) : Option Writer :=
  match exec i (machine { w with regs := regs arg0 arg1 din } (reader 0 (-1) 0) []) with
  | .next t => (State.cur? t).map fun n => n.w
  | _ => none

/-- The reader after one command with its operand. -/
def runR (i : Instr) (r : Reader) (arg0 : Word64) : Option Reader :=
  match exec i (machine writer { r with regs := regs arg0 0 [] } []) with
  | .next t => (State.cur? t).map fun n => n.r
  | _ => none

/-- `STATUS` and `RESULT` of a writer. -/
def wSays (o : Option Writer) : Option (Word32 × Word64) := o.map fun w => (Writer.status w, w.regs.result)

/-- `STATUS`, `RESULT`, the cursor and the source's position of a reader. -/
def rSays (o : Option Reader) : Option (Word32 × Word64 × Int × Nat) :=
  o.map fun r => (Reader.status r, r.regs.result, r.cur, r.source.pos)

/-! ### Writer commands: 95_test_vectors.md sections 1 and 2.3 to 2.6, 2.10 -/

theorem test_wBind_accepted (h : keyValid 7 = true) :
    wSays (runW (.wBind true) (filled 3) 7 0 []) = some (0x20, 0) := by
  show wSays (some (Writer.bind true { filled 3 with regs := regs 7 0 [] })) = _
  unfold Writer.bind
  rw [if_pos (by exact h)]
  decide
theorem test_wBind_rejected (h : keyValid 7 = false) :
    wSays (runW (.wBind true) (filled 3) 7 0 []) = some (0x01, 0) := by
  show wSays (some (Writer.bind true { filled 3 with regs := regs 7 0 [] })) = _
  unfold Writer.bind
  rw [if_neg (by show ¬ keyValid 7 = true; rw [h]; decide)]
  decide

/-- Section 2.3, row "5, 5": the block is emitted and the last byte starts the next one. -/
theorem test_wWrite_across_block :
    (runW (.wWrite 4) (filled 5) 0 0 [0xA, 0xB, 0xC, 0xD]).map
      (fun w => (w.fill, w.ofs, w.sink.mem)) =
    some (1, 9, Memory.ofBytes (blockBytes (enc 7 #v[0x20, 0x21, 0x22, 0x23, 0x24, 0xA, 0xB, 0xC]))) := by rfl
/-- Section 2.10: the offset would pass 2^63 - 1. -/
theorem test_wWrite_past_last_offset :
    wSays (runW (.wWrite 2) { filled 6 with ofs := 0x7FFFFFFFFFFFFFFE } 0 0 [1, 2]) = some (0x39, 0) := by decide

theorem test_wWriteU8 : (runW .wWriteU8 writer 0x1FF 0 []).map (fun w => (w.regs.result, w.fill, w.ofs, w.buf[0])) =
    some (1, 1, 1, 0xFF) := by decide
theorem test_wWriteI8 : (runW .wWriteI8 writer 0xFFFFFFFFFFFFFF80 0 []).map
    (fun w => (w.regs.result, w.fill, w.ofs, w.buf[0])) = some (1, 1, 1, 0x80) := by decide
theorem test_wWriteU16 : (runW .wWriteU16 writer 0x1234 0 []).map
    (fun w => (w.regs.result, w.fill, blockSlice w.buf 0 3)) = some (2, 2, [0x34, 0x12, 0]) := by decide
theorem test_wWriteI16 : (runW .wWriteI16 writer (-2) 0 []).map
    (fun w => (w.regs.result, w.fill, blockSlice w.buf 0 3)) = some (2, 2, [0xFE, 0xFF, 0]) := by decide
theorem test_wWriteU32 : (runW .wWriteU32 writer 0xFFFFFFFF11223344 0 []).map
    (fun w => (w.regs.result, w.fill, blockSlice w.buf 0 5)) = some (4, 4, [0x44, 0x33, 0x22, 0x11, 0]) := by decide
theorem test_wWriteI32 : (runW .wWriteI32 writer (-1) 0 []).map
    (fun w => (w.regs.result, w.fill, blockSlice w.buf 0 5)) = some (4, 4, [0xFF, 0xFF, 0xFF, 0xFF, 0]) := by decide
theorem test_wWriteU64 : (runW .wWriteU64 writer 0x0807060504030201 0 []).map
    (fun w => (w.regs.result, w.fill, w.ofs, w.crc)) =
    some (8, 0, 8, crcLegacy crcPoly crcInit [1, 2, 3, 4, 5, 6, 7, 8]) := by rfl
theorem test_wWriteI64 : (runW .wWriteI64 writer (-2) 0 []).map
    (fun w => (w.regs.result, w.fill, w.ofs, w.crc)) =
    some (8, 0, 8, crcLegacy crcPoly crcInit [0xFE, 0xFF, 0xFF, 0xFF, 0xFF, 0xFF, 0xFF, 0xFF]) := by rfl

/-- The visible checksums of the blocks of the writer's tests, for the spec's default polynomial (section 2.1). -/
theorem test_checksums_of_test_blocks : ∀ p ∈ ([
    ([1, 2, 3, 4, 5, 6, 7, 8], 0x3FCA88C5#32), ([0xFE, 0xFF, 0xFF, 0xFF, 0xFF, 0xFF, 0xFF, 0xFF], 0xEDEEDF82#32),
    ([1, 2, 3, 0, 0, 0, 0, 0], 0xB883BC70#32), ([1, 0, 0, 0, 0, 0, 0, 0], 0xA988DFF7#32)] : List (List Byte × Word32)),
    crcVisible (crcLegacy crcPolyDefault crcInit p.1) = p.2 := by decide

/-- Section 2.4: the zero-padded block of a flush. -/
theorem test_wFlush_pads :
    (runW .wFlush { writer with buf := #v[1, 2, 3, 9, 9, 9, 9, 9], fill := 3, ofs := 3 } 0 0 []).map
      (fun w => (w.fill, w.ofs, w.crc, w.sink.mem)) =
    some (0, 8, crcLegacy crcPoly crcInit [1, 2, 3, 0, 0, 0, 0, 0], Memory.ofBytes (blockBytes (enc 7 #v[1, 2, 3, 0, 0, 0, 0, 0]))) := by rfl
/-- Section 3.4: with the compatibility flag the tail keeps its bytes. -/
theorem test_wFlush_stale_tail :
    (runW .wFlush { writer with
        compat := true, buf := #v[0xAA, 0x12, 0x13, 0x14, 0x15, 0x16, 0x17, 0x18], fill := 1, ofs := 9 } 0 0 []).map
      (fun w => (w.ofs, w.sink.mem)) =
    some (16, Memory.ofBytes (blockBytes (enc 7 #v[0xAA, 0x12, 0x13, 0x14, 0x15, 0x16, 0x17, 0x18]))) := by rfl

theorem test_wClose : (runW .wClose { writer with buf := #v[1, 9, 9, 9, 9, 9, 9, 9], fill := 1, ofs := 1 } 0 0 []).map
    (fun w => (Writer.status w, w.ofs, w.crc)) =
    some (0x60, 8, crcLegacy crcPoly crcInit [1, 0, 0, 0, 0, 0, 0, 0]) := by rfl
theorem test_wClose_again : wSays (runW .wClose { writer with closed := true } 0 0 []) = some (0x60, 0) := by decide

/-- Section 2.4, row "`W.FILL = 3`": the padded block, then eight plain zeros. -/
theorem test_wReserve : (runW .wReserve (filled 3) 0 0 []).map
    (fun w => (w.regs.result, w.ofs, w.resv, w.sink.mem)) =
    some (8, 16, [8], Memory.ofBytes (blockBytes (enc 7 #v[0x20, 0x21, 0x22, 0, 0, 0, 0, 0]) ++
      [0, 0, 0, 0, 0, 0, 0, 0])) := by rfl
theorem test_wReserve_closed : wSays (runW .wReserve { writer with closed := true } 0 0 []) = some (0x79, 0) := by decide

/-- A writer after one reserve that returned 0 (section 2.5). -/
def reservedWriter : Writer :=
  { writer with
    ofs := 8, resv := [0], sinkLen := 8
    sink := { Sink.initial with mem := Memory.ofBytes [0, 0, 0, 0, 0, 0, 0, 0], pos := 8 } }

theorem test_wPatchBlock : (runW .wPatchBlock reservedWriter 0 0 (List.replicate 8 0xAA)).map
    (fun w => (w.ofs, w.sink.pos, w.sink.mem)) =
    some (8, 8, Memory.ofBytes (blockBytes (enc 7 #v[0xAA, 0xAA, 0xAA, 0xAA, 0xAA, 0xAA, 0xAA, 0xAA]))) := by rfl
/-- UNSUPPORTED comes before the closed check (section 2.5, last row). -/
theorem test_wPatchBlock_capability_first :
    wSays (runW .wPatchBlock { reservedWriter with ra := false, closed := true } 0 0 (List.replicate 8 0xAA)) =
    some (0x65, 0) := by decide
theorem test_wPatchU8 : (runW .wPatchU8 reservedWriter 0 0x5A []).map (fun w => w.sink.mem) =
    some (Memory.ofBytes (blockBytes (enc 7 #v[0x5A, 0, 0, 0, 0, 0, 0, 0]))) := by rfl
theorem test_wPatchU8_unreserved : wSays (runW .wPatchU8 reservedWriter 8 1 []) = some (0x39, 0) := by decide
theorem test_wPatchU16 : (runW .wPatchU16 reservedWriter 0 0xBEEF []).map (fun w => w.sink.mem) =
    some (Memory.ofBytes (blockBytes (enc 7 #v[0xEF, 0xBE, 0, 0, 0, 0, 0, 0]))) := by rfl
theorem test_wPatchU32 : (runW .wPatchU32 reservedWriter 0 0x10 []).map (fun w => w.sink.mem) =
    some (Memory.ofBytes (blockBytes (enc 7 #v[0x10, 0, 0, 0, 0, 0, 0, 0]))) := by rfl
theorem test_wPatchU64 : (runW .wPatchU64 reservedWriter 0 0xAAAAAAAAAAAAAAAA []).map (fun w => w.sink.mem) =
    some (Memory.ofBytes (blockBytes (enc 7 #v[0xAA, 0xAA, 0xAA, 0xAA, 0xAA, 0xAA, 0xAA, 0xAA]))) := by rfl

/-- Section 2.1, the accumulator after "12345678". -/
theorem test_wChecksum : wSays (runW .wChecksum { writer with crc := 0x651F2550 } 0 0 []) = some (0x20, 0x9AE0DAAF) := by
  decide
theorem test_wChecksum_faulted : wSays (runW .wChecksum { writer with closed := true, fault := true } 0 0 []) =
    some (0x78, 0) := by decide
theorem test_wResetChecksum : (runW .wResetChecksum { writer with crc := 0x651F2550 } 0 0 []).map (fun w => w.crc) =
    some 0xFFFFFFFF := by decide
theorem test_wBytesWritten : wSays (runW .wBytesWritten (filled 3) 0 0 []) = some (0x20, 3) := by decide

/-! ### Reader commands: 95_test_vectors.md sections 2.7 to 2.9 -/

theorem test_rBind_accepted (h : keyValid 7 = true) :
    rSays (runR .rBind (reader 24 3 8) 7) = some (0x20, 0, -1, 8) := by
  show rSays (some (Reader.bind { reader 24 3 8 with regs := regs 7 0 [] })) = _
  unfold Reader.bind
  rw [if_pos (by exact h)]
  decide

theorem test_rRead_loaded : (runR (.rRead 5) (reader 24 3 8) 0).map (fun r => (r.regs.dout, r.cur, r.source.pos)) =
    some ([0x23, 0x24, 0x25, 0x26, 0x27], 8, 8) := by decide
/-- Section 2.7: what a fetch of `E(P0)` loads is `P0`. -/
theorem test_fetch_decrypts (hk : keyValid 7 = true) : Reader.fetch cipherReader = .go { cipherReader with
    buf := #v[0x20, 0x21, 0x22, 0x23, 0x24, 0x25, 0x26, 0x27], cur := 0
    source := { cipherReader.source with pos := 8 } } := by
  have h : Source.nextBlocks cipherReader.source 1 =
      blockBytes (enc 7 #v[0x20, 0x21, 0x22, 0x23, 0x24, 0x25, 0x26, 0x27]) := rfl
  rw [Reader.fetch_ok rfl (by rw [h]; exact blockBytes_length _), Reader.loaded, h, blockOfBytes_blockBytes]
  exact congrArg (fun b => Flow.go { Reader.loaded cipherReader with buf := b }) (dec_enc hk _)
theorem test_rRead_past_end : rSays (runR (.rRead 30) (reader 24 (-1) 0) 0) = some (0x23, 24, -1, 24) := by decide

theorem test_rReadU8 : rSays (runR .rReadU8 (reader 24 0 8) 0) = some (0x20, 0x20, 1, 8) := by decide
theorem test_rReadI8_negative : rSays (runR .rReadI8 { reader 24 7 8 with buf := #v[0, 0, 0, 0, 0, 0, 0, 0xFF] } 0) =
    some (0x20, 0xFFFFFFFFFFFFFFFF, 8, 8) := by decide
theorem test_rReadI8_positive : rSays (runR .rReadI8 { reader 24 0 8 with buf := #v[0x7F, 0xFF, 0, 0, 0, 0, 0, 0] } 0) =
    some (0x20, 0x7F, 1, 8) := by decide
theorem test_rReadU16 : rSays (runR .rReadU16 (reader 24 0 8) 0) = some (0x20, 0x2120, 2, 8) := by decide
theorem test_rReadI16 : rSays (runR .rReadI16 { reader 24 0 8 with buf := #v[0xFE, 0xFF, 0, 0, 0, 0, 0, 0] } 0) =
    some (0x20, 0xFFFFFFFFFFFFFFFE, 2, 8) := by decide
theorem test_rReadU32 : rSays (runR .rReadU32 { reader 24 2 8 with buf := #v[9, 9, 0, 0, 0, 0x80, 9, 9] } 0) =
    some (0x20, 0x80000000, 6, 8) := by decide
theorem test_rReadI32 : rSays (runR .rReadI32 { reader 24 2 8 with buf := #v[9, 9, 0, 0, 0, 0x80, 9, 9] } 0) =
    some (0x20, 0xFFFFFFFF80000000, 6, 8) := by decide
theorem test_rReadU64 : rSays (runR .rReadU64 (reader 24 0 8) 0) = some (0x20, 0x2726252423222120, 8, 8) := by decide
theorem test_rReadI64 :
    rSays (runR .rReadI64 { reader 24 0 8 with buf := #v[0xFE, 0xFF, 0xFF, 0xFF, 0xFF, 0xFF, 0xFF, 0xFF] } 0) =
    some (0x20, 0xFFFFFFFFFFFFFFFE, 8, 8) := by decide

theorem test_rBuffered : rSays (runR .rBuffered (reader 24 3 8) 0) = some (0x20, 5, 3, 8) := by decide
theorem test_rBuffered_exhausted : rSays (runR .rBuffered (reader 24 8 8) 0) = some (0x20, 0, 8, 8) := by decide
theorem test_rAlign_refills : rSays (runR .rAlign (reader 24 3 8) 0) = some (0x20, 0, 0, 16) := by decide
theorem test_rAlign_at_end : rSays (runR .rAlign (reader 24 4 24) 0) = some (0x23, 0, -1, 24) := by decide
theorem test_rReadAligned : (runR .rReadAligned (reader 24 0 8) 0).map (fun r => (r.regs.dout, r.cur, r.source.pos)) =
    some ([0x20, 0x21, 0x22, 0x23, 0x24, 0x25, 0x26, 0x27], 8, 8) := by decide
theorem test_rReadAligned_shortfall : (runR .rReadAligned (reader 24 8 24) 0).map (fun r => (Reader.status r, r.cur)) =
    some (0x34, -1) := by decide

theorem test_rSeekSet : rSays (runR .rSeekSet (reader 24 (-1) 0) 11) = some (0x20, 11, 3, 16) := by decide
theorem test_rSeekSet_past_end : rSays (runR .rSeekSet (reader 24 3 8) 30) = some (0x23, 0, -1, 24) := by decide
theorem test_rSeekCur_back : rSays (runR .rSeekCur (reader 24 3 8) 0) = some (0x20, 3, 3, 8) := by decide
theorem test_rSeekCur_underflow : (runR .rSeekCur (reader 24 1 8) 0x8000000000000000).map (fun r => Reader.status r) =
    some 0x39 := by decide
theorem test_rSeekEnd : rSays (runR .rSeekEnd (reader 24 3 8) (-1)) = some (0x20, 23, 7, 24) := by decide
theorem test_rSeekEnd_before_start : (runR .rSeekEnd (reader 24 3 8) (-25)).map (fun r => Reader.status r) =
    some 0x32 := by decide

/-! ### The host: reset, ILLEGAL and register reads (95_test_vectors.md sections 2.10 and 3.5) -/

/-- What the writer's `STATUS` is after one host action. -/
def statusAfter (s : State) : Option Word32 :=
  match step s with
  | .next t => (State.cur? t).map fun n => Writer.status n.w
  | _ => none

theorem test_flush_after_reset : statusAfter { State.reset with host := [.command 0 .writer 0x00000003 []] } = some 0x06 := by
  decide
theorem test_illegal_after_reset : statusAfter { State.reset with host := [.command 0 .writer 0x0000000B []] } = some 0x07 := by
  decide
theorem test_illegal_before_faulted :
    statusAfter (machine { writer with fault := true } (reader 0 (-1) 0) [.command 0 .writer 0x0000000B []]) =
    some 0x37 := by decide
theorem test_read_config :
    (match step (machine { writer with compat := true } (reader 0 (-1) 0) [.read 0 .writer 5]) with
      | .next t => some t.hostData
      | _ => none) = some 3 := by decide
/-- 30_encoding.md R94: the second piece of a long read is taken off the queue without running after END_OF_DATA, and
runs after OK. -/
theorem test_later_piece :
    (let s := machine writer { reader 24 3 8 with regs := { regs 0 0 [] with code := .endOfData } }
       [.resume 0 .reader 0x00010041#32 []]
     step s = .next { s with host := [] }) ∧
    (let s := machine writer (reader 24 3 8) [.resume 0 .reader 0x00010041#32 []]
     step s = step { s with host := [.command 0 .reader 0x00010041#32 []] }) := ⟨rfl, rfl⟩

/-- The source's position after a read past its end: the reference source returns to its end (20_memory.md R73), any
other stays (R55). -/
theorem test_position_past_end : ∀ b : Bool,
    Source.posAfter { Source.initial with pos := 32, reference := b } 0 = if b then 0 else 32 := by decide

/-- A seek into a block past the end leaves the source at that block's boundary, the reference source too
(70_reset_and_hazards.md R263); after `R.SEEK_SET 30` of 95_test_vectors.md section 2.9 it stands at 24. -/
theorem test_failed_realignment_stands_at_the_boundary :
    ∀ p ∈ ([(30, 24), (37, 32)] : List (Word64 × Nat)),
      (runR .rSeekSet (reader 24 3 8) p.1).map (fun r => (r.regs.code, r.fault, r.cur, r.source.pos)) =
        some (.endOfData, false, -1, p.2) := by decide

theorem test_wrong_din_refused :
    (match exec (.wWrite 3) (machine writer (reader 0 (-1) 0) []) with
      | .refused .dinLength => true
      | _ => false) = true := by decide

/-! ### Witnesses: for every statement with premises, states and operands that meet all of them

Each theorem is named after its statement and says its premises of concrete terms, clause by clause where the clauses
differ, at boundary values. No witness depends on what the cipher or `KEY_VALID` is. -/

/-- The machine the witnesses start from, its engines bound, the writer's `DIN` and the operands given. -/
def bench (w : Writer) (r : Reader) (arg0 : Word64) (din : List Byte) : State :=
  machine { w with regs := regs arg0 0 din } { r with regs := regs arg0 0 [] } []

theorem witness_DecodeOfEncodeIsTheCommand :
    Instr.wellFormed (.wWrite 65535) = true ∧ Instr.wellFormed (.rRead 0) = true ∧
    Instr.wellFormed (.wBind true) = true := by decide

theorem witness_DecodedWordIsTheEncoding :
    decode 0xFFFF0041#32 = some (.rRead 65535) ∧ decode 0x00001046#32 = some .rSeekEnd := by decide

theorem witness_FreeFieldsAreRead : 0 < 65536 ∧ 65535 < 65536 := by decide

theorem witness_ReservedFieldsAreIllegal :
    BitVec.getLsbD 0x00000080#32 7 = true ∧ BitVec.getLsbD 0x00004001#32 14 = true ∧
    BitVec.getLsbD 0x00008045#32 15 = true := by decide

/-- A word for the reader, written to `CMD` of the writer: its `UNIT` routes it. -/
theorem witness_StepRunsTheDecodedCommand :
    let s := machine writer (reader 24 3 8) [.command 0 .writer 0x00030041#32 []]
    s.host = .command 0 .writer 0x00030041#32 [] :: [] ∧
    s.insts[0]? = some (Instance.of writer (reader 24 3 8)) ∧ decode 0x00030041#32 = some (.rRead 3) := ⟨rfl, rfl, by decide⟩

theorem witness_RegisterZeroWriteStartsTheCommand :
    let s := machine writer (reader 24 3 8) [.write 0 .writer 0 0xFFFFFFFF00000003]
    s.host = .write 0 .writer 0#4 0xFFFFFFFF00000003 :: [] ∧
    s.insts[0]? = some (Instance.of writer (reader 24 3 8)) ∧
    decode (BitVec.setWidth 32 0xFFFFFFFF00000003#64) = some .wFlush := ⟨rfl, rfl, by decide⟩

theorem witness_PlacedWordIsTheNextCommand :
    (State.cur? State.reset).isSome = true ∧ decode (BitVec.ofNat 32 (0x00030001 % 2 ^ 32)) = some (.wWrite 3) := by decide

/-- Illegal words of each of the four units. -/
theorem witness_IllegalWordChangesOnlyCodeAndResult :
    (∀ w ∈ ([0x0000000B#32, 0x00000047#32, 0x00000080#32, 0x000000C1#32] : List Word32), decode w = none) ∧
    unitField 0x0000000B#32 = 0#2 ∧ unitField 0x00000047#32 = 1#2 ∧
    (machine writer (reader 24 3 8) [.command 0 .reader 0x0000000B#32 []]).insts[0]? =
      some (Instance.of writer (reader 24 3 8)) := by
  refine ⟨?_, by decide, by decide, rfl⟩
  intro w hw; fin_cases hw <;> rfl

/-- Registers 0 to 5 and, of the rest, 6 and 15. -/
theorem witness_WriterRegistersRead : ∀ reg ∈ ([0, 1, 2, 3, 4, 5, 6, 15] : List (BitVec 4)),
    let s := machine writer (reader 24 3 8) [.read 0 .writer reg]
    s.host = .read 0 .writer reg :: [] ∧ s.insts[0]? = some (Instance.of writer (reader 24 3 8)) :=
  fun _ _ => ⟨rfl, rfl⟩

theorem witness_ReaderRegistersRead : ∀ reg ∈ ([0, 1, 2, 3, 4, 5, 6, 15] : List (BitVec 4)),
    let s := machine writer (reader 24 3 8) [.read 0 .reader reg]
    s.host = .read 0 .reader reg :: [] ∧ s.insts[0]? = some (Instance.of writer (reader 24 3 8)) :=
  fun _ _ => ⟨rfl, rfl⟩

theorem witness_RegisterWritesReachOnlyTheArguments : ∀ reg ∈ ([1, 2, 3, 4, 5, 6, 15] : List (BitVec 4)),
    let s := machine writer (reader 24 3 8) [.write 0 .reader reg (-1)]
    s.host = .write 0 .reader reg (-1) :: [] ∧ s.insts[0]? = some (Instance.of writer (reader 24 3 8)) ∧ reg ≠ 0#4 := by
  intro reg h
  exact ⟨rfl, rfl, by revert reg; decide⟩

theorem witness_HardwareResetGivesTheResetValues :
    let s := machine { writer with fault := true } (reader 24 3 8) [.reset]
    s.host = .reset :: [] ∧ s.insts[0]? = some (Instance.of { writer with fault := true } (reader 24 3 8)) := ⟨rfl, rfl⟩

theorem witness_AttachingReachesOnlyThePort :
    Memory.wf (Memory.ofBytes [1, 2, 3]) = true ∧ Memory.wf [] = true ∧
    (machine writer (reader 24 3 8) [.attachSink 0 Sink.initial]).insts[0]? =
      some (Instance.of writer (reader 24 3 8)) ∧
    (machine writer (reader 24 3 8) []).host = [] := ⟨by decide, by decide, rfl, rfl⟩

theorem inv_of_parts {w : Writer} {r : Reader} {host : List HostOp} (hw : Writer.inv w) (hr : Reader.inv r) :
    State.inv (machine w r host) := by
  intro n hn
  simp only [machine, List.mem_singleton] at hn
  subst hn
  exact ⟨hw, hr⟩

/-- A bound writer with seven bytes pending, a reserved block behind it and its last byte coming, and a loaded reader. -/
theorem witness_StepKeepsTheInvariant :
    let w := { filled 7 with ofs := 15, sinkLen := 8, resv := [0] }
    let s := machine w (reader 24 8 8) [.command 0 .writer 0x00010001#32 [0xFF]]
    State.inv s ∧ ∃ t, step s = .next t := by
  refine ⟨inv_of_parts ?_ ?_, ⟨_, rfl⟩⟩
  · unfold Writer.inv; decide
  · unfold Reader.inv; decide

theorem witness_StepKeepsBoundKeysValid :
    (State.keysValid State.reset ∧ ∃ t, step State.reset = .next t) ∧
    (keyValid 7 = true → State.keysValid (machine writer (reader 24 3 8) [.command 0 .writer 0x00000003#32 []])) := by
  refine ⟨⟨?_, ⟨_, rfl⟩⟩, fun h => ?_⟩
  · intro n hn
    simp only [State.reset, nInst, List.range_one, List.map_cons, List.map_nil, List.mem_singleton] at hn
    subst hn
    exact ⟨fun h => Bool.noConfusion h, fun h => Bool.noConfusion h⟩
  · intro n hn
    simp only [machine, List.mem_singleton] at hn
    subst hn
    exact ⟨fun _ => h, fun _ => h⟩

theorem witness_UnboundEngineAnswersNotBound :
    isBind .wFlush = false ∧ isBind (.rRead 1) = false ∧ Instr.engine .wFlush = .writer ∧
    Instr.engine (.rRead 1) = .reader ∧ (State.cur? State.reset = some (Instance.initial 0)) ∧
    (Instance.initial 0).w.bound = false ∧ (Instance.initial 0).r.bound = false :=
  ⟨rfl, rfl, rfl, rfl, rfl, rfl, rfl⟩

theorem witness_FaultedEngineAnswersFaulted :
    let w := { writer with fault := true, closed := true }
    let r := { reader 24 3 8 with fault := true }
    isBind .wChecksum = false ∧ isBind (.rRead 1) = false ∧ State.cur? (machine w r []) = some (Instance.of w r) ∧
    w.bound = true ∧ w.fault = true ∧ r.bound = true ∧ r.fault = true := ⟨rfl, rfl, rfl, rfl, rfl, rfl, rfl⟩

/-- One command of each engine, a reset, and a host action that is neither. -/
theorem witness_FaultBitFollowsTheCode :
    (∃ t n', exec .wChecksum (machine writer (reader 24 3 8) []) = .next t ∧ State.cur? t = some n') ∧
    (∃ t n', exec .rBuffered (machine writer (reader 24 3 8) []) = .next t ∧ State.cur? t = some n') ∧
    (∃ t, step (machine writer (reader 24 3 8) [.reset]) = .next t) ∧
    (∃ t : State, (machine writer (reader 24 3 8) [.read 0 .writer 1]).host.head? ≠ some .reset ∧
      fetchHost (machine writer (reader 24 3 8) [.read 0 .writer 1]) = .done (.next t)) :=
  ⟨⟨_, _, rfl, rfl⟩, ⟨_, _, rfl, rfl⟩, ⟨_, rfl⟩, ⟨_, fun h => HostOp.noConfusion (Option.some.inj h), rfl⟩⟩

theorem witness_MissingCapabilityAnswersUnsupported :
    let w := { reservedWriter with ra := false, regs := regs 0 0 (List.replicate 8 0) }
    let r := { reader 24 3 8 with seek := false }
    State.cur? (machine w r []) = some (Instance.of w r) ∧ Writer.ready w (Instr.dinBytes .wPatchBlock) ∧ w.ra = false ∧
    Writer.ready { w with regs := regs 0 0 [] } (Instr.dinBytes .wPatchU8) ∧ Reader.ready r ∧ r.seek = false :=
  ⟨rfl, ⟨rfl, rfl, rfl⟩, rfl, ⟨rfl, rfl, rfl⟩, ⟨rfl, rfl, rfl⟩, rfl⟩

theorem witness_WriterCommandsTouchOnlyTheirEngine :
    Instr.engine .wFlush = .writer ∧ ∃ t, exec .wFlush (machine (filled 3) (reader 24 3 8) []) = .next t :=
  ⟨rfl, ⟨_, rfl⟩⟩

theorem witness_ReaderCommandsTouchOnlyTheirEngine :
    Instr.engine .rSeekEnd = .reader ∧ ∃ t, exec .rSeekEnd (machine writer (reader 24 3 8) []) = .next t :=
  ⟨rfl, ⟨_, rfl⟩⟩

theorem witness_LittleEndianBytesRoundTrip : 8 ≤ 8 ∧ 7 < 8 := by decide

theorem witness_WrittenBytesReadBack :
    Memory.wf (Memory.ofBytes [1, 2]) = true ∧ Memory.wf (Memory.write [(1, 2)] 0 [1]) = true ∧
    0 < [1, 2].length ∧ ∀ c < 3, Memory.read (Memory.ofBytes [1, 2]) c = Memory.read (Memory.write [(1, 2)] 0 [1]) c := by
  decide

theorem witness_WriterBindResetsAndLoads :
    State.cur? (machine writer (reader 24 3 8) []) = some (Instance.of writer (reader 24 3 8)) ∧ writer.regs.din = [] :=
  ⟨rfl, rfl⟩

/-- The three clauses: the last offset reached; one past it, and closed; the second of two blocks failing. -/
theorem witness_WriteTakesTheBytes :
    (let w := { filled 7 with ofs := 0x7FFFFFFFFFFFFFFE, regs := regs 0 0 [1] }
     Writer.ready w 1 ∧ w.fill < bs ∧ w.closed = false ∧ w.ofs.toNat + 1 ≤ maxOfs ∧
      obeysNext w.sink.plan ((w.fill + 1) / bs)) ∧
    (let w := { filled 7 with ofs := 0x7FFFFFFFFFFFFFFE, regs := regs 0 0 [1, 2] }
     Writer.ready w 2 ∧ w.ofs.toNat + 2 > maxOfs) ∧
    (let w := { writer with closed := true }
     Writer.ready w 0 ∧ w.fill < bs ∧ w.closed = true) ∧
    (let w := { filled 7 with
       regs := regs 0 0 (List.replicate 9 0), sink := { Sink.initial with plan := [.obey, .fail] } }
     Writer.ready w 9 ∧ w.fill < bs ∧ w.closed = false ∧ w.ofs.toNat + 9 ≤ maxOfs ∧
      ¬ obeysNext w.sink.plan ((w.fill + 9) / bs)) := by
  unfold Writer.ready obeysNext
  decide

theorem witness_ValueWritesTakeTheirBytes :
    (Instr.wWriteI64, Width.w64) ∈ valueWrites ∧ (Instr.wWriteU8, Width.w8) ∈ valueWrites ∧
    (let w := { filled 7 with ofs := 0x7FFFFFFFFFFFFFF7 }
     Writer.ready w 0 ∧ w.fill < bs ∧ w.closed = false ∧ w.ofs.toNat + Width.bytes .w64 ≤ maxOfs ∧
      obeysNext w.sink.plan ((w.fill + Width.bytes .w64) / bs)) ∧
    (let w := { filled 7 with ofs := 0x7FFFFFFFFFFFFFF8 }
     Writer.ready w 0 ∧ w.ofs.toNat + Width.bytes .w64 > maxOfs) ∧
    (let w := { filled 7 with sink := { Sink.initial with plan := [.fail] } }
     Writer.ready w 0 ∧ w.fill < bs ∧ w.closed = false ∧ w.ofs.toNat + Width.bytes .w8 ≤ maxOfs ∧
      ¬ obeysNext w.sink.plan ((w.fill + Width.bytes .w8) / bs)) := by
  unfold Writer.ready obeysNext
  decide

/-- For a flush and a close: nothing pending at a failing sink, one byte pending, seven pending past the last offset,
and a sink that fails. -/
theorem witness_FlushEmitsThePaddedBlock :
    (let w := { writer with sink := { Sink.initial with plan := [.fail] } }
     Writer.ready w 0 ∧ w.fill < bs ∧ (w.ofs.toNat + Writer.pad w ≤ maxOfs ∨ w.fill = 0) ∧
      obeysNext w.sink.plan (Writer.flushBlocks w)) ∧
    (let w := filled 1
     Writer.ready w 0 ∧ w.fill < bs ∧ (w.ofs.toNat + Writer.pad w ≤ maxOfs ∨ w.fill = 0) ∧
      obeysNext w.sink.plan (Writer.flushBlocks w)) ∧
    (let w := { filled 7 with ofs := 0x7FFFFFFFFFFFFFFF }
     Writer.ready w 0 ∧ 0 < w.fill ∧ w.ofs.toNat + Writer.pad w > maxOfs) ∧
    (let w := { filled 7 with sink := { Sink.initial with plan := [.fail] } }
     Writer.ready w 0 ∧ 0 < w.fill ∧ w.ofs.toNat + Writer.pad w ≤ maxOfs ∧
      ¬ obeysNext w.sink.plan (Writer.flushBlocks w)) := by
  unfold Writer.ready obeysNext Writer.pad Writer.flushBlocks
  decide

theorem witness_CloseFlushesAndCloses :
    (let w := { writer with closed := true }
     Writer.ready w 0 ∧ w.fill < bs ∧ (w.ofs.toNat + Writer.pad w ≤ maxOfs ∨ w.fill = 0) ∧
      obeysNext w.sink.plan (Writer.flushBlocks w)) ∧
    (let w := { filled 7 with ofs := 0x7FFFFFFFFFFFFFFF }
     Writer.ready w 0 ∧ w.fill < bs ∧ 0 < w.fill ∧ w.ofs.toNat + Writer.pad w > maxOfs) ∧
    (let w := { filled 7 with sink := { Sink.initial with plan := [.fail] } }
     Writer.ready w 0 ∧ 0 < w.fill ∧ w.ofs.toNat + Writer.pad w ≤ maxOfs ∧
      ¬ obeysNext w.sink.plan (Writer.flushBlocks w)) := by
  unfold Writer.ready obeysNext Writer.pad Writer.flushBlocks
  decide

/-- The placeholder ends at the last offset; it would end past it, and the writer is closed; the flush obeys and the
placeholder fails. -/
theorem witness_ReserveWritesAPlaceholder :
    (let w := { filled 1 with ofs := 0x7FFFFFFFFFFFFFF0 }
     Writer.ready w 0 ∧ w.fill < bs ∧ w.closed = false ∧ w.ofs.toNat + Writer.pad w + bs ≤ maxOfs ∧
      obeysNext w.sink.plan (Writer.flushBlocks w + 1)) ∧
    (let w := { filled 1 with ofs := 0x7FFFFFFFFFFFFFF1 }
     Writer.ready w 0 ∧ w.fill < bs ∧ w.ofs.toNat + Writer.pad w + bs > maxOfs) ∧
    (let w := { writer with closed := true }
     Writer.ready w 0 ∧ w.fill < bs ∧ w.closed = true) ∧
    (let w := { filled 1 with sink := { Sink.initial with plan := [.obey, .fail] } }
     Writer.ready w 0 ∧ w.fill < bs ∧ w.closed = false ∧ w.ofs.toNat + Writer.pad w + bs ≤ maxOfs ∧
      ¬ obeysNext w.sink.plan (Writer.flushBlocks w + 1)) := by
  unfold Writer.ready obeysNext Writer.pad Writer.flushBlocks
  decide

/-- A write that emits a block, and a flush with nothing to emit. -/
theorem witness_StreamCommandsAppendToTheSink :
    (∃ t n', exec .wWriteU8 (machine (filled 7) (reader 24 3 8) []) = .next t ∧ State.cur? t = some n' ∧
      n'.w.regs.code = .ok) ∧
    (∃ t n', exec .wFlush (machine writer (reader 24 3 8) []) = .next t ∧ State.cur? t = some n' ∧
      n'.w.regs.code = .ok) ∧
    Writer.ready (filled 7) (Instr.dinBytes .wWriteU8) ∧ (filled 7).fill < bs ∧
    .wWriteU8 ∉ ([.wPatchBlock, .wPatchU8, .wPatchU16, .wPatchU32, .wPatchU64] : List Instr) :=
  ⟨⟨_, _, rfl, rfl, rfl⟩, ⟨_, _, rfl, rfl, rfl⟩, ⟨rfl, rfl, rfl⟩, by decide, by decide⟩

/-- A reserved offset, an offset that is none, no capability, a negative offset, a closed writer, a sink that fails. -/
theorem witness_PatchBlockOverwritesTheReservedBlock :
    (let w := { reservedWriter with regs := regs 0 0 (List.replicate 8 0) }
     Writer.ready w bs ∧ w.ra = true ∧ 0 ∈ w.resv ∧ w.regs.arg0.toInt = (0 : Nat) ∧ w.closed = false ∧
      nextAnswer w.sink.plan = .obey) ∧
    (let w := { reservedWriter with regs := regs 8 0 (List.replicate 8 0) }
     Writer.ready w bs ∧ w.ra = true ∧ ∀ off ∈ w.resv, w.regs.arg0.toInt ≠ off) ∧
    (let w := { reservedWriter with ra := false, regs := regs 0 0 (List.replicate 8 0) }
     Writer.ready w bs ∧ w.ra = false) ∧
    (let w := { reservedWriter with regs := regs (-8) 0 (List.replicate 8 0) }
     Writer.ready w bs ∧ w.ra = true ∧ ∀ off ∈ w.resv, w.regs.arg0.toInt ≠ off) ∧
    (let w := { reservedWriter with closed := true, regs := regs 0 0 (List.replicate 8 0) }
     Writer.ready w bs ∧ w.ra = true ∧ w.closed = true) ∧
    (let w := { reservedWriter with
       regs := regs 0 0 (List.replicate 8 0), sink := { Sink.initial with plan := [.fail] } }
     Writer.ready w bs ∧ w.ra = true ∧ 0 ∈ w.resv ∧ w.regs.arg0.toInt = (0 : Nat) ∧ w.closed = false ∧
      nextAnswer w.sink.plan = .fail) := by
  unfold Writer.ready
  decide

theorem witness_ValuePatchesOverwriteTheReservedBlock :
    (Instr.wPatchU8, Width.w8) ∈ valuePatches ∧ (Instr.wPatchU64, Width.w64) ∈ valuePatches ∧
    (let w := reservedWriter
     Writer.ready w 0 ∧ w.ra = true ∧ 0 ∈ w.resv ∧ w.regs.arg0.toInt = (0 : Nat) ∧ w.closed = false ∧
      nextAnswer w.sink.plan = .obey) ∧
    (let w := { reservedWriter with regs := regs 1 0 [] }
     Writer.ready w 0 ∧ w.ra = true ∧ ∀ off ∈ w.resv, w.regs.arg0.toInt ≠ off) ∧
    (let w := { reservedWriter with ra := false }
     Writer.ready w 0 ∧ w.ra = false) ∧
    (let w := { reservedWriter with sink := { Sink.initial with plan := [.fail] } }
     Writer.ready w 0 ∧ w.ra = true ∧ 0 ∈ w.resv ∧ w.regs.arg0.toInt = (0 : Nat) ∧ w.closed = false ∧
      nextAnswer w.sink.plan = .fail) := by
  unfold Writer.ready
  decide

/-- The patch that finishes OK, the one that finishes IO_ERROR, and one whose block lies past the sink's end. -/
theorem witness_PatchesOverwriteOneBlock :
    (∃ t n', exec .wPatchU32 (machine reservedWriter (reader 24 3 8) []) = .next t ∧ State.cur? t = some n' ∧
      n'.w.regs.code = .ok) ∧
    (∃ t n', exec .wPatchU32 (machine { reservedWriter with sink := { Sink.initial with plan := [.fail] } }
      (reader 24 3 8) []) = .next t ∧ State.cur? t = some n' ∧ n'.w.regs.code = .ioError) ∧
    Writer.ready reservedWriter (Instr.dinBytes .wPatchU32) ∧
    (let w := { reservedWriter with regs := regs 16 0 [], resv := [0, 16] }
     (∃ t n', exec .wPatchU32 (machine w (reader 24 3 8) []) = .next t ∧ State.cur? t = some n' ∧
       n'.w.regs.code = .ok) ∧ Writer.ready w (Instr.dinBytes .wPatchU32) ∧
     12 < w.regs.arg0.toInt.toNat ∧ Memory.length w.sink.mem ≤ 12) :=
  ⟨⟨_, _, rfl, rfl, rfl⟩, ⟨_, _, rfl, rfl, rfl⟩, ⟨rfl, rfl, rfl⟩, ⟨_, _, rfl, rfl, rfl⟩, ⟨rfl, rfl, rfl⟩, by decide⟩

theorem witness_WriterQueriesAnswer :
    Writer.ready { writer with closed := true } 0 ∧
    State.cur? (machine { writer with closed := true } (reader 24 3 8) []) =
      some (Instance.of { writer with closed := true } (reader 24 3 8)) := ⟨⟨rfl, rfl, rfl⟩, rfl⟩

/-- A split inside a block, and a sink that obeys the one block and may fail the next. -/
theorem witness_WritesMayBeSplit :
    let w := { filled 7 with sink := { Sink.initial with plan := [.obey, .fail] } }
    w.bound = true ∧ w.fault = false ∧ w.closed = false ∧ w.fill < bs ∧ w.ofs.toNat + (1 + 3) ≤ maxOfs ∧
    obeysNext w.sink.plan ((w.fill + (1 + 3)) / bs) := by
  unfold obeysNext
  decide

/-- A reserve at a block boundary, and one with three bytes pending. -/
theorem witness_PatchedBlockEqualsWrittenBlock :
    ∀ w ∈ ([{ reservedWriter with regs := regs 8 0 [] }, { filled 3 with regs := regs 8 0 [] }] : List Writer),
      w.bound = true ∧ w.fault = false ∧ w.closed = false ∧ w.ra = true ∧ w.fill < bs ∧ w.sink.plan = [] ∧
      Memory.wf w.sink.mem = true ∧ w.sink.pos + w.fill = w.ofs.toNat ∧
      w.regs.arg0 = w.ofs + BitVec.ofNat 64 (Writer.pad w) ∧
      (List.replicate 8 (1 : Byte)).length = bs ∧ (List.replicate 16 (2 : Byte)).length % bs = 0 ∧
      w.ofs.toNat + Writer.pad w + bs + (List.replicate 16 (2 : Byte)).length ≤ maxOfs := by decide

/-- The states of the writer's machine, a command that completes, and its outcome: opened by a close, closed by a write,
closed by a patch without the capability, closed by a flush. -/
theorem witness_WriterFollowsItsStateMachine :
    (∀ w ∈ ([filled 3, { writer with closed := true }, { writer with closed := true, ra := false },
        { writer with bound := false }, { writer with fault := true }] : List Writer), Writer.inv w) ∧
    (runW .wClose (filled 3) 0 0 []).map Writer.mode = some .closed ∧
    (runW .wWriteU8 { writer with closed := true } 0 0 []).map Writer.mode = some .faulted ∧
    (runW .wPatchU8 { writer with closed := true, ra := false } 0 0 []).map Writer.mode = some .closed ∧
    (runW .wFlush { writer with closed := true } 0 0 []).map Writer.mode = some .closed := by
  refine ⟨?_, rfl, rfl, rfl, rfl⟩
  unfold Writer.inv
  decide

theorem witness_ReaderBindResetsAndLoads :
    State.cur? (machine writer (reader 24 3 8) []) = some (Instance.of writer (reader 24 3 8)) ∧
    (reader 24 3 8).regs.din = [] := ⟨rfl, rfl⟩

/-- The three clauses of a read of `len` bytes by the reader `r`, as premises. -/
def readWhole (r : Reader) (len : Nat) : Prop :=
  obeysNext r.source.plan (Reader.blocksFor r len) ∧
  (Source.nextBlocks r.source (Reader.blocksFor r len)).length = bs * Reader.blocksFor r len

def readShort (r : Reader) (len : Nat) : Prop :=
  (Source.nextBlocks r.source (Reader.blocksFor r len)).length < bs * Reader.blocksFor r len ∧
  obeysNext r.source.plan ((Source.nextBlocks r.source (Reader.blocksFor r len)).length / bs + 1)

def readFails (r : Reader) (len j : Nat) : Prop :=
  j < Reader.blocksFor r len ∧ obeysNext r.source.plan j ∧ r.source.plan[j]? = some .fail ∧
  (Source.nextBlocks r.source j).length = bs * j

/-- Inside the loaded block; to the source's end; one byte past it, the reference source holding what it held and another
standing past its end; into a block cut short; the second fetch failing. -/
theorem witness_ReadDeliversTheBytes :
    Reader.ready (reader 24 3 8) ∧ readWhole (reader 24 3 8) 5 ∧ readWhole (reader 24 3 8) 21 ∧
    readShort (reader 24 3 8) 22 ∧ (Source.nextBlocks (reader 24 3 8).source 3).length = 16 ∧
    (reader 24 3 8).source.pos + 16 ≤ Memory.length (reader 24 3 8).source.mem ∧
    (let r := { reader 24 8 32 with source := { (reader 24 8 32).source with reference := false } }
     readShort r 1 ∧ r.source.reference = false) ∧ readShort (reader 12 (-1) 0) 10 ∧
    readFails { reader 24 (-1) 0 with
      source := { (reader 24 (-1) 0).source with plan := [.obey, .fail] } } 10 1 := by
  unfold Reader.ready readWhole readShort readFails obeysNext
  decide

theorem witness_ValueReadsDeliverTheValue :
    (Instr.rReadI16, Width.w16) ∈ signedReads ∧ (Instr.rReadU64, Width.w64) ∈ unsignedReads ∧
    Reader.ready (reader 24 6 8) ∧ readWhole (reader 24 6 8) (Width.bytes .w16) ∧
    readWhole (reader 24 6 8) (Width.bytes .w64) ∧ readShort (reader 24 8 24) (Width.bytes .w16) ∧
    (reader 24 8 24).source.pos + 0 ≤ Memory.length (reader 24 8 24).source.mem ∧
    readShort (reader 12 8 8) (Width.bytes .w16) ∧
    readFails { reader 24 8 8 with source := { (reader 24 8 8).source with plan := [.fail] } }
      (Width.bytes .w16) 0 := by
  unfold Reader.ready readWhole readShort readFails obeysNext
  decide

theorem witness_BufferedCountsTheLoadedBytes : ∀ c ∈ ([-1, 0, 7, 8] : List Int), Reader.ready (reader 24 c 8) :=
  fun _ _ => ⟨rfl, rfl, rfl⟩

/-- The cursor at 0, at 8 and, partly consumed, at 1 and 7; the next block whole, absent, cut short; the source
failing. -/
theorem witness_AlignDropsThePartlyReadBlock :
    Reader.ready (reader 24 1 8) ∧ ((reader 24 0 8).cur ≤ 0 ∨ bs ≤ (reader 24 0 8).cur) ∧
    ((reader 24 8 8).cur ≤ 0 ∨ bs ≤ (reader 24 8 8).cur) ∧ 0 < (reader 24 1 8).cur ∧ (reader 24 7 8).cur < bs ∧
    nextAnswer (reader 24 1 8).source.plan = .obey ∧ (Source.nextBlocks (reader 24 1 8).source 1).length = bs ∧
    (Source.nextBlocks (reader 24 7 24).source 1).length = 0 ∧
    (reader 24 7 24).source.pos + 0 ≤ Memory.length (reader 24 7 24).source.mem ∧
    (Source.nextBlocks (reader 12 7 8).source 1).length < bs ∧
    nextAnswer [PortAnswer.fail] = .fail := by
  unfold Reader.ready
  decide

theorem witness_ReadAlignedDeliversABlock :
    Reader.ready (reader 24 0 8) ∧ (reader 24 0 8).cur = 0 ∧ (reader 24 5 8).cur ≠ 0 ∧ (reader 24 8 8).cur ≠ 0 ∧
    nextAnswer (reader 24 5 8).source.plan = .obey ∧ (Source.nextBlocks (reader 24 5 8).source 1).length = bs ∧
    0 < (reader 24 2 24).cur ∧ (reader 24 2 24).cur < bs ∧ (Source.nextBlocks (reader 24 2 24).source 1).length = 0 ∧
    (reader 24 2 24).source.pos + 0 ≤ Memory.length (reader 24 2 24).source.mem ∧
    (bs : Int) ≤ (reader 24 8 24).cur ∧ (Source.nextBlocks (reader 24 8 24).source 1).length < bs ∧
    (reader 0 (-1) 0).cur < 0 ∧ nextAnswer [PortAnswer.fail] = .fail := by
  unfold Reader.ready
  decide

/-- A target at a block's boundary and, of each origin, one inside a block. -/
theorem witness_SeeksReachTheTarget :
    (let r := { reader 24 3 8 with regs := regs 16 0 [] }
     (Instr.rSeekSet, Origin.start) ∈ seeks ∧ Reader.ready r ∧ r.seek = true ∧ ¬ Reader.seekUnderflows r .start ∧
      Reader.seekTarget r .start = (16 : Nat) ∧ 16 % bs = 0 ∧ nextAnswer r.source.plan = .obey) ∧
    (let r := { reader 24 3 8 with regs := regs 0 0 [] }
     (Instr.rSeekCur, Origin.current) ∈ seeks ∧ ¬ Reader.seekUnderflows r .current ∧
      Reader.seekTarget r .current = (3 : Nat) ∧ 3 % bs ≠ 0 ∧ obeysNext r.source.plan 3 ∧
      (Source.nextBlocks (Source.moved r.source (3 - 3 % bs) 2) 1).length = bs) ∧
    (let r := { reader 24 3 8 with regs := regs (-1) 0 [] }
     (Instr.rSeekEnd, Origin.fromEnd) ∈ seeks ∧ ¬ Reader.seekUnderflows r .fromEnd ∧
      Reader.seekTarget r .fromEnd = (23 : Nat) ∧ 23 % bs ≠ 0 ∧ obeysNext r.source.plan 3 ∧
      (Source.nextBlocks (Source.moved r.source (23 - 23 % bs) 2) 1).length = bs) := by
  unfold Reader.ready Reader.seekUnderflows obeysNext
  decide

/-- An underflow; a negative target; a source that fails the first call, the fetch's absence of bytes, the second and the
third call. -/
theorem witness_SeeksFailAsTheirRuleSays :
    Reader.ready (reader 24 1 8) ∧ (reader 24 1 8).seek = true ∧
    Reader.seekUnderflows { reader 24 1 8 with regs := regs 0x8000000000000000 0 [] } .current ∧
    (let r := { reader 24 3 8 with regs := regs (-1) 0 [] }
     ¬ Reader.seekUnderflows r .start ∧ Reader.seekTarget r .start < 0) ∧
    nextAnswer [PortAnswer.fail] = .fail ∧
    (let r := { reader 24 3 8 with regs := regs 30 0 [] }
     ¬ Reader.seekUnderflows r .start ∧ Reader.seekTarget r .start = (30 : Nat) ∧ 30 % bs ≠ 0 ∧
      obeysNext r.source.plan 3 ∧ (Source.nextBlocks (Source.moved r.source (30 - 30 % bs) 2) 1).length < bs ∧
      (Source.nextBlocks (Source.moved r.source (30 - 30 % bs) 2) 1).length = 0) ∧
    (obeysNext [.obey, .fail] 1 ∧ ¬ obeysNext [.obey, .fail] 3) ∧
    (obeysNext [.obey, .obey, .fail] 1 ∧ ¬ obeysNext [.obey, .obey, .fail] 3) := by
  unfold Reader.ready Reader.seekUnderflows obeysNext
  decide

theorem witness_SeekRunsItsMicroStates :
    (Instr.rSeekCur, Origin.current) ∈ seeks ∧ Reader.ready (reader 24 3 8) ∧
    State.cur? (machine writer (reader 24 3 8) []) = some (Instance.of writer (reader 24 3 8)) :=
  ⟨by decide, ⟨rfl, rfl, rfl⟩, rfl⟩

/-- A split inside a block: the second read starts on what the first left loaded. -/
theorem witness_ReadsMayBeSplit : Reader.ready (reader 24 3 8) ∧ readWhole (reader 24 3 8) (7 + 14) := by
  unfold Reader.ready readWhole obeysNext
  decide

/-- A read, a value read, a seek, a query and an align, each finishing OK. -/
theorem witness_CommandsMoveTheLogicalPosition :
    ∀ i ∈ ([.rRead 5, .rReadU16, .rSeekSet, .rBuffered, .rAlign] : List Instr),
      Reader.ready (reader 24 3 8) ∧ (runR i (reader 24 3 8) 0).map (fun r => r.regs.code) = some .ok := by
  unfold Reader.ready
  decide

/-- The reader meets its invariant at each end of the cursor's range, and commands of each clause complete. -/
theorem witness_ReaderFollowsItsStateMachine :
    (∀ c ∈ ([-1, 0, 3, 8] : List Int), Reader.inv (reader 24 c 8)) ∧
    (runR .rSeekSet (reader 24 3 8) 16).map Reader.mode = some .empty ∧
    (runR .rSeekSet (reader 24 3 8) 17).map Reader.mode = some .loaded ∧
    (runR .rAlign (reader 24 3 8) 0).map Reader.mode = some .loaded ∧
    (runR (.rRead 5) (reader 24 3 8) 0).map Reader.mode = some .exhausted ∧
    (runR .rAlign (reader 24 3 24) 0).map Reader.mode = some .empty ∧
    (runR .rAlign (reader 12 3 8) 0).map Reader.mode = some .faulted := by
  refine ⟨?_, by decide, by decide, by decide, by decide, by decide, by decide⟩
  unfold Reader.inv
  decide

/-- The last byte of the stream, from an offset inside a block; and a boundary. -/
theorem witness_SeekingEqualsReadingAndDiscarding :
    let r := { reader 24 (-1) 0 with regs := regs 23 0 [] }
    Reader.ready r ∧ r.seek = true ∧ r.cur = -1 ∧ r.source.pos = 0 ∧ r.source.plan = [] ∧
    (Source.nextBlocks r.source 3).length = bs * 3 ∧ 23 < bs * 3 ∧ 23 + 1 ≤ bs * 3 ∧ r.regs.arg0.toInt = (23 : Nat) ∧
    16 < bs * 3 ∧ 16 + 8 ≤ bs * 3 := by
  unfold Reader.ready
  decide

/-- Three bytes written by a fresh writer, and a reader over the sink that holds them. Its last clause asks besides that
the cipher accepts the key, which is a parameter. -/
theorem witness_WrittenBytesAreReadBack :
    (writer.bound = true ∧ writer.fault = false ∧ writer.closed = false ∧ writer.compat = false ∧ writer.fill = 0 ∧
      writer.sink.plan = [] ∧ writer.ofs.toNat + [(1 : Byte), 2, 3].length + bs ≤ maxOfs) ∧
    (let mem := Memory.write [] 0 (blockBytes (enc 7 #v[1, 2, 3, 0, 0, 0, 0, 0]))
     let r := { reader 0 (-1) 0 with source := { Source.initial with mem := mem } }
     Reader.ready r ∧ r.key = writer.key ∧ r.cur = -1 ∧ r.source.plan = [] ∧ r.source.mem = mem ∧
      r.source.pos = writer.sink.pos) := by
  refine ⟨by decide, ⟨rfl, rfl, rfl⟩, rfl, rfl, rfl, rfl, rfl⟩

/-- A long read of two pieces, a line that stands for one, and a later piece at the head of the queue. -/
theorem witness_LongTransfersExpandToPieces :
    Line.expand (.rReadL 65540) = .rRead 65535 :: [.rRead 5] ∧ Line.expand (.rSkip 3) = .rSeek .current 3 :: [] ∧
    (let s := machine writer (reader 24 3 8) [.resume 0 .reader 0x00050041#32 []]
     s.host = HostOp.later (.command 0 .reader 0x00050041#32 []) :: [] ∧
      s.insts[0]? = some (Instance.of writer (reader 24 3 8))) := ⟨by decide, rfl, rfl, rfl⟩

end Sys2Proof.Tests
end

section
/-! The writer commands (41_writer.md): what the write, the flush and the reserve can do on an admitted writer, and the
settled statements about binds, writes, flushes, reserves and queries. -/

namespace Sys2Proof.Machine

open Sys2Proof.Config

/-! ### The words of `W.WRITE` (30_encoding.md R80, R83, R91) -/

/-- One bit that the mask keeps and the match has otherwise tells a word from a row (30_encoding.md R90). -/
theorem OpRow.matchesWord_eq_false_of_bit {r : OpRow} {w : Word32} {i : Nat} (hm : r.mask.getLsbD i = true)
    (h : w.getLsbD i ≠ r.pat.getLsbD i) : OpRow.matchesWord r w = false := by
  rw [OpRow.matchesWord, beq_eq_false_iff_ne]
  intro he
  exact h (by rw [← he, BitVec.getLsbD_and, hm, Bool.and_true])

/-- A word whose low half is 1 is the `W.WRITE` of its upper half. -/
theorem decode_of_lowHalf_one {w : Word32} (h : w &&& 0x0000FFFF#32 = 0x00000001#32) :
    decode w = some (.wWrite (lenField w)) := by
  have hbit : w.getLsbD 0 = true := by
    have := congrArg (fun x : Word32 => x.getLsbD 0) h
    simpa using this
  have hbind : OpRow.matchesWord ⟨0x00000000#32, 0xFFFFDFFF#32, fun w => .wBind (compatField w)⟩ w = false :=
    OpRow.matchesWord_eq_false_of_bit (i := 0) rfl (by rw [hbit]; decide)
  have hwrite : OpRow.matchesWord ⟨0x00000001#32, 0x0000FFFF#32, fun w => .wWrite (lenField w)⟩ w = true := by
    simpa [OpRow.matchesWord] using h
  simp [decode, opRows, writerRows, hbind, hwrite]

theorem decode_wWrite_word {len : Nat} (h : len < 65536) :
    decode (BitVec.ofNat 32 (65536 * len + 1)) = some (.wWrite len) := by
  have hlow : BitVec.ofNat 32 (65536 * len + 1) &&& 0x0000FFFF#32 = 0x00000001#32 := by
    apply BitVec.eq_of_toNat_eq
    rw [BitVec.toNat_and, BitVec.toNat_ofNat, show (0x0000FFFF#32).toNat = 2 ^ 16 - 1 from rfl,
      Nat.and_two_pow_sub_one_eq_mod]
    simp only [BitVec.toNat_ofNat]
    omega
  have hlen : lenField (BitVec.ofNat 32 (65536 * len + 1)) = len := by
    simp only [lenField, BitVec.extractLsb'_toNat, BitVec.toNat_ofNat, Nat.shiftRight_eq_div_pow]
    omega
  rw [decode_of_lowHalf_one hlow, hlen]

/-! ### A fault leaves the registers and the control elements (60_exceptions.md R230, R231) -/

theorem Writer.raise_faultsWith {c : Code} (hc : Code.setsFault c = true) (v : Word64) {w w' : Writer}
    (h : Writer.sameControl w w') : Writer.faultsWith w c v (Writer.raise c v w') := by
  obtain ⟨hregs, hbound, hkey, hra, hcompat, hclosed, -, -, hsinkRa⟩ := h
  refine ⟨?_, ?_, ?_, ?_, ?_, ?_, ?_, ?_⟩ <;>
    simp [HostRegs.finish, hc, hregs, hbound, hkey, hra, hcompat, hclosed, hsinkRa]

/-! ### Answers of the sink to a run of calls (20_memory.md R72) -/

theorem obeysNext_zero (plan : List PortAnswer) : obeysNext plan 0 := by simp [obeysNext]

theorem obeysNext_add (plan : List PortAnswer) (m k : Nat) :
    obeysNext plan (m + k) ↔ obeysNext plan m ∧ obeysNext (plan.drop m) k := by
  simp only [obeysNext, List.take_add, List.mem_append, or_imp, forall_and]

theorem obeysNext_one {plan : List PortAnswer} : obeysNext plan 1 ↔ nextAnswer plan = .obey := by
  cases plan <;> simp [obeysNext, nextAnswer]

theorem nextAnswer_eq_fail {plan : List PortAnswer} (h : ¬ obeysNext plan 1) : nextAnswer plan = .fail :=
  (nextAnswer_cases plan).resolve_left fun ho => h (obeysNext_one.2 ho)

/-! ### `W.WRITE` of a byte string (41_writer.md R123) -/

theorem Writer.write_obey {w : Writer} {s : List Byte} (hf : w.fill < bs) (hc : w.closed = false)
    (ho : w.ofs.toNat + s.length ≤ maxOfs) (h : obeysNext w.sink.plan ((w.fill + s.length) / bs)) :
    Writer.write s w = Writer.finish .ok (BitVec.ofNat 64 s.length) (Writer.advance w s) := by
  simp [Writer.write, hc, Nat.not_lt.2 ho, Writer.writeLoop_obey (Nat.le_succ _) hf h]

/-- A closed writer, and one the bytes would carry past the last offset, refuse them before the loop. -/
theorem Writer.write_undefined {w : Writer} {s : List Byte} (h : w.closed = true ∨ w.ofs.toNat + s.length > maxOfs) :
    Writer.write s w = Writer.raise .undefined 0 w := by
  unfold Writer.write
  by_cases hc : w.closed = true
  · rw [if_pos hc]
  · rw [if_neg hc, if_pos (h.resolve_left hc)]

/-- Over a sink that fails one of the blocks, `RESULT` is a draw within the length. -/
theorem Writer.write_fail {w : Writer} {s : List Byte} (hf : w.fill < bs) (hc : w.closed = false)
    (ho : w.ofs.toNat + s.length ≤ maxOfs) (h : ¬ obeysNext w.sink.plan ((w.fill + s.length) / bs)) :
    ∃ v ≤ s.length, ∃ w', Writer.sameControl w w' ∧
      Writer.write s w = Writer.raise .ioError (BitVec.ofNat 64 v) w' := by
  obtain ⟨w', hstop⟩ := Writer.writeLoop_fail (Nat.le_succ s.length) hf h
  obtain ⟨w'', hcontrol, -, hframe⟩ := Writer.writeLoop_frame (s.length + 1) w s
  obtain rfl : w' = w'' := by simpa [hstop] using hframe
  refine ⟨(freeCount w'.draw s.length).val, Nat.le_of_lt_succ (freeCount w'.draw s.length).isLt, w', hcontrol, ?_⟩
  simp [Writer.write, hc, Nat.not_lt.2 ho, hstop]

/-! ### A failing sink, emission and flush (20_memory.md R52; 41_writer.md R121, R133) -/

/-- What `Writer.sinkWrite_fail` leaves untouched. -/
theorem Writer.sinkWrite_fail_sameControl {w : Writer} (h : nextAnswer w.sink.plan = .fail) (s : List Byte) :
    ∃ w', Writer.sinkWrite w s = .stop .ioError w' ∧ Writer.sameControl w w' :=
  ⟨_, Writer.sinkWrite_fail h s, rfl, rfl, rfl, rfl, rfl, rfl, rfl, rfl, rfl⟩

/-- What `Writer.emit_fail` leaves untouched. -/
theorem Writer.emit_fail_sameControl {w : Writer} (h : nextAnswer w.sink.plan = .fail) :
    ∃ w', Writer.emit w = .stop .ioError w' ∧ Writer.sameControl w w' := by
  obtain ⟨w', hstop⟩ := Writer.emit_fail h
  rcases Writer.emit_cases w with hgo | ⟨w'', hstop', hcontrol, -⟩
  · rw [hstop] at hgo; cases hgo
  · exact ⟨w'', hstop', hcontrol⟩

theorem Writer.pad_of_pos {w : Writer} (h : 0 < w.fill) : Writer.pad w = bs - w.fill := if_neg (by omega)

theorem Writer.flushBlocks_of_pos {w : Writer} (h : 0 < w.fill) : Writer.flushBlocks w = 1 := if_neg (by omega)

theorem Writer.flushBlocks_of_empty {w : Writer} (h : w.fill = 0) : Writer.flushBlocks w = 0 := if_pos h

theorem Writer.flushed_of_empty {w : Writer} (h : w.fill = 0) : Writer.flushed w = w := if_pos h

theorem Writer.flushed_of_pos {w : Writer} (h : 0 < w.fill) :
    Writer.flushed w =
      { Writer.emitted w (Writer.padded w) with ofs := w.ofs + BitVec.ofNat 64 (Writer.pad w) } := if_neg (by omega)

/-- A flush uses up one answer of the sink for each block it emits. -/
theorem Writer.flushed_plan (w : Writer) :
    (Writer.flushed w).sink.plan = w.sink.plan.drop (Writer.flushBlocks w) := by
  rcases Nat.eq_zero_or_pos w.fill with h0 | h0
  · rw [Writer.flushed_of_empty h0, Writer.flushBlocks_of_empty h0, List.drop_zero]
  · rw [Writer.flushed_of_pos h0, Writer.flushBlocks_of_pos h0]
    rfl

theorem Writer.flushed_sameControl (w : Writer) : Writer.sameControl w (Writer.flushed w) := by
  rcases Nat.eq_zero_or_pos w.fill with h0 | h0
  · rw [Writer.flushed_of_empty h0]
    exact .refl w
  · rw [Writer.flushed_of_pos h0]
    exact ⟨rfl, rfl, rfl, rfl, rfl, rfl, rfl, rfl, rfl⟩

theorem Writer.flush_eq_flushed {w : Writer} (hf : w.fill ≤ bs)
    (ho : w.ofs.toNat + Writer.pad w ≤ maxOfs ∨ w.fill = 0) (h : obeysNext w.sink.plan (Writer.flushBlocks w)) :
    Writer.flush w = .go (Writer.flushed w) := by
  rcases Nat.eq_zero_or_pos w.fill with h0 | h0
  · rw [Writer.flushed_of_empty h0, Writer.flush, if_pos h0]
  · have hpad := Writer.pad_of_pos h0
    rw [Writer.flushBlocks_of_pos h0] at h
    rw [Writer.flushed_of_pos h0, Writer.flush_obey h0 hf (by omega) (obeysNext_one.1 h), hpad]

theorem Writer.flush_undefined {w : Writer} (h0 : 0 < w.fill) (ho : w.ofs.toNat + Writer.pad w > maxOfs) :
    Writer.flush w = .stop .undefined w := by
  rw [Writer.pad_of_pos h0] at ho
  rw [Writer.flush, if_neg (by omega)]
  exact if_pos ho

theorem Writer.flush_fail {w : Writer} (hf : w.fill ≤ bs) (ho : w.ofs.toNat + Writer.pad w ≤ maxOfs)
    (h : ¬ obeysNext w.sink.plan (Writer.flushBlocks w)) :
    ∃ w', Writer.flush w = .stop .ioError w' ∧ Writer.sameControl w w' := by
  rcases Nat.eq_zero_or_pos w.fill with h0 | h0
  · rw [Writer.flushBlocks_of_empty h0] at h
    exact absurd (obeysNext_zero _) h
  · rw [Writer.flushBlocks_of_pos h0] at h
    rw [Writer.pad_of_pos h0] at ho
    obtain ⟨w', hstop, hcontrol⟩ := Writer.emit_fail_sameControl
      (w := { w with buf := Writer.padded w, fill := bs }) (nextAnswer_eq_fail h)
    refine ⟨w', ?_, hcontrol⟩
    simp only [Writer.flush, if_neg (Nat.ne_of_gt h0), if_neg (Nat.not_lt.2 ho), Writer.padded_eq hf, hstop]

theorem Writer.flushCommand_of_go {w w' : Writer} (h : Writer.flush w = .go w') :
    Writer.flushCommand w = Writer.finish .ok 0 w' := by rw [Writer.flushCommand, h]

theorem Writer.flushCommand_of_stop {w w' : Writer} {c : Code} (h : Writer.flush w = .stop c w') :
    Writer.flushCommand w = Writer.raise c 0 w' := by rw [Writer.flushCommand, h]

/-! ### `W.RESERVE` (41_writer.md R136) -/

/-- The writer once the placeholder stands at the sink, behind what the flush left (41_writer.md R136). -/
def Writer.placeholderPut (w : Writer) : Writer :=
  { w with
    ofs := w.ofs + 8
    resv := addOffset w.resv w.ofs.toNat
    sinkLen := w.sinkLen + bs
    sink := { w.sink with
      mem := Memory.write w.sink.mem w.sink.pos (List.replicate bs 0)
      pos := w.sink.pos + bs
      plan := w.sink.plan.drop 1 } }

/-- The padding as the pseudocode of R136 writes it. -/
theorem Writer.pad_eq_ite (w : Writer) : Writer.pad w = if w.fill > 0 then bs - w.fill else 0 := by
  unfold Writer.pad
  split_ifs <;> omega

theorem Writer.reserve_undefined {w : Writer} (h : w.closed = true ∨ w.ofs.toNat + Writer.pad w + bs > maxOfs) :
    Writer.reserve w = Writer.raise .undefined 0 w := by
  unfold Writer.reserve
  rw [← Writer.pad_eq_ite]
  by_cases hc : w.closed = true
  · exact if_pos hc
  · rw [if_neg hc, if_pos (h.resolve_left hc)]

section
variable {w : Writer} (hc : w.closed = false) (ho : w.ofs.toNat + Writer.pad w + bs ≤ maxOfs)
include hc ho

theorem Writer.reserve_of_flush_stop {c : Code} {w' : Writer} (h : Writer.flush w = .stop c w') :
    Writer.reserve w = Writer.raise c 0 w' := by
  unfold Writer.reserve
  rw [← Writer.pad_eq_ite]
  simp only [hc, Nat.not_lt.2 ho, if_false, Bool.false_eq_true, h]

theorem Writer.reserve_of_flush_go {w' : Writer} (h : Writer.flush w = .go w') (hs : nextAnswer w'.sink.plan = .obey) :
    Writer.reserve w = Writer.finish .ok w'.ofs (Writer.placeholderPut w') := by
  unfold Writer.reserve
  rw [← Writer.pad_eq_ite]
  simp only [hc, Nat.not_lt.2 ho, if_false, Bool.false_eq_true, h, Writer.sinkWrite_obey hs]
  rfl

theorem Writer.reserve_of_sink_stop {c : Code} {w' w'' : Writer} (h : Writer.flush w = .go w')
    (hs : Writer.sinkWrite w' (blockBytes zeroBlock) = .stop c w'') : Writer.reserve w = Writer.raise c 0 w'' := by
  unfold Writer.reserve
  rw [← Writer.pad_eq_ite]
  simp only [hc, Nat.not_lt.2 ho, if_false, Bool.false_eq_true, h, hs]

/-- The placeholder is written over the sink that the flush left. -/
theorem Writer.reserve_obey (hf : w.fill ≤ bs) (h : obeysNext w.sink.plan (Writer.flushBlocks w + 1)) :
    Writer.reserve w =
      Writer.finish .ok (Writer.flushed w).ofs (Writer.placeholderPut (Writer.flushed w)) := by
  obtain ⟨hflush, hplaceholder⟩ := (obeysNext_add _ _ _).1 h
  rw [← Writer.flushed_plan] at hplaceholder
  exact Writer.reserve_of_flush_go hc ho (Writer.flush_eq_flushed hf (.inl (by omega)) hflush)
    (obeysNext_one.1 hplaceholder)

/-- Either the flush or the placeholder meets the failing answer. -/
theorem Writer.reserve_fail (hf : w.fill ≤ bs) (h : ¬ obeysNext w.sink.plan (Writer.flushBlocks w + 1)) :
    ∃ w', Writer.reserve w = Writer.raise .ioError 0 w' ∧ Writer.sameControl w w' := by
  have hpad : w.ofs.toNat + Writer.pad w ≤ maxOfs := by omega
  by_cases hflush : obeysNext w.sink.plan (Writer.flushBlocks w)
  · have hfail : nextAnswer (Writer.flushed w).sink.plan = .fail := by
      rw [Writer.flushed_plan]
      exact nextAnswer_eq_fail fun hone => h ((obeysNext_add _ _ _).2 ⟨hflush, hone⟩)
    obtain ⟨w', hstop, hcontrol⟩ := Writer.sinkWrite_fail_sameControl hfail (blockBytes zeroBlock)
    exact ⟨w', Writer.reserve_of_sink_stop hc ho (Writer.flush_eq_flushed hf (.inl hpad) hflush) hstop,
      (Writer.flushed_sameControl w).trans hcontrol⟩
  · obtain ⟨w', hstop, hcontrol⟩ := Writer.flush_fail hf hpad hflush
    exact ⟨w', Writer.reserve_of_flush_stop hc ho hstop, hcontrol⟩

end

/-! ### `W.BIND` (41_writer.md R122) -/

theorem Writer.bind_of_valid {w : Writer} (h : keyValid w.regs.arg0 = true) (c : Bool) :
    Writer.bind c w = Writer.finish .ok 0
      { Writer.unbind w with key := w.regs.arg0, ra := w.sink.ra, compat := c, bound := true } := by
  simp [Writer.bind, h]

/-- KEY_ERROR is no faulting code, so a rejected key leaves the writer unbound and without a fault (R221, R230). -/
theorem Writer.bind_of_rejected {w : Writer} (h : keyValid w.regs.arg0 = false) (c : Bool) :
    Writer.bind c w = Writer.finish .keyError 0
      { Writer.unbind w with key := freeKey w.draw, draw := w.draw.next } := by
  simp [Writer.bind, h, Writer.raise_of_not_setsFault (c := .keyError) rfl]

/-! ### The settled statements -/

/-- Settles O32: the three outcomes of `Writer.write` on an admitted writer. -/
theorem writeTakesTheBytes : Obligations.WriteTakesTheBytes := by
  refine ⟨fun _ => decode_wWrite_word, fun len s n hcur hready hfill => ?_⟩
  have hexec : exec (.wWrite len) s = .next (State.setW s n (Writer.write n.w.regs.din n.w)) :=
    exec_writer_of_ready rfl rfl hcur hready
  obtain ⟨-, -, rfl⟩ := hready
  refine ⟨fun hopen hrange hobey => ?_, fun hrefused => ?_, fun hopen hrange hfail => ?_⟩
  · rw [hexec, Writer.write_obey hfill hopen hrange hobey]
  · rw [Writer.write_undefined hrefused] at hexec
    exact ⟨_, hexec, Writer.raise_faultsWith rfl 0 (.refl n.w), Writer.raise_sink _ _ _⟩
  · obtain ⟨v, hv, w', hcontrol, hwrite⟩ := Writer.write_fail hfill hopen hrange hfail
    rw [hwrite] at hexec
    exact ⟨v, _, hv, hexec, Writer.raise_faultsWith rfl _ hcontrol⟩

/-- Settles O34: the flush goes through, passes the last offset, or meets a failing sink. -/
theorem flushEmitsThePaddedBlock : Obligations.FlushEmitsThePaddedBlock := by
  refine ⟨by decide, fun s n hcur hready hfill => ?_⟩
  have hexec : exec .wFlush s = .next (State.setW s n (Writer.flushCommand n.w)) :=
    exec_writer_of_ready rfl rfl hcur hready
  refine ⟨fun hrange hobey => ?_, fun hpending hpast => ?_, fun _ hrange hfail => ?_⟩
  · rw [hexec, Writer.flushCommand_of_go (Writer.flush_eq_flushed hfill.le hrange hobey)]
  · rw [Writer.flushCommand_of_stop (Writer.flush_undefined hpending hpast)] at hexec
    exact ⟨_, hexec, Writer.raise_faultsWith rfl 0 (.refl n.w), Writer.raise_sink _ _ _⟩
  · obtain ⟨w', hstop, hcontrol⟩ := Writer.flush_fail hfill.le hrange hfail
    rw [Writer.flushCommand_of_stop hstop] at hexec
    exact ⟨_, hexec, Writer.raise_faultsWith rfl 0 hcontrol⟩

/-- Settles O36: the checks, then the flush, then the placeholder. -/
theorem reserveWritesAPlaceholder : Obligations.ReserveWritesAPlaceholder := by
  refine ⟨by decide, fun s n hcur hready hfill => ?_⟩
  have hexec : exec .wReserve s = .next (State.setW s n (Writer.reserve n.w)) :=
    exec_writer_of_ready rfl rfl hcur hready
  refine ⟨fun hopen hrange hobey => ?_, fun hrefused => ?_, fun hopen hrange hfail => ?_⟩
  · rw [hexec, Writer.reserve_obey hopen hrange hfill.le hobey]
    rfl
  · rw [Writer.reserve_undefined hrefused] at hexec
    exact ⟨_, hexec, Writer.raise_faultsWith rfl 0 (.refl n.w), Writer.raise_sink _ _ _⟩
  · obtain ⟨w', hraise, hcontrol⟩ := Writer.reserve_fail hopen hrange hfill.le hfail
    rw [hraise] at hexec
    exact ⟨_, hexec, Writer.raise_faultsWith rfl 0 hcontrol⟩

/-- Settles O31: the two outcomes of the cipher's answer to the key. -/
theorem writerBindResetsAndLoads : Obligations.WriterBindResetsAndLoads := by
  refine ⟨fun c => by cases c <;> decide, fun c s n hcur hdin => ?_⟩
  have hexec : exec (.wBind c) s = .next (State.setW s n (Writer.bind c n.w)) := bindWriter_of_din hcur hdin
  cases hkey : keyValid n.w.regs.arg0 with
  | true =>
    refine ⟨n.w.regs.arg0, n.w.draw, fun _ => ⟨rfl, rfl⟩, ?_⟩
    rw [hexec, Writer.bind_of_valid hkey]
    rfl
  | false =>
    refine ⟨freeKey n.w.draw, n.w.draw.next, fun h => absurd h (by simp), ?_⟩
    rw [hexec, Writer.bind_of_rejected hkey]
    rfl

/-- Settles O41: each query passes admission and finishes OK. -/
theorem writerQueriesAnswer : Obligations.WriterQueriesAnswer := by
  refine ⟨by decide, by decide, by decide, fun s n hcur hready => ⟨?checksum, ?reset, ?bytes⟩⟩
  case checksum => exact exec_writer_of_ready (i := .wChecksum) rfl rfl hcur hready
  case reset => exact exec_writer_of_ready (i := .wResetChecksum) rfl rfl hcur hready
  case bytes => exact exec_writer_of_ready (i := .wBytesWritten) rfl rfl hcur hready

end Sys2Proof.Machine
end

section
/-! The reader commands (42_reader.md): what a read, an align and a bind can do on an admitted reader, and the settled
statements about `R.BIND`, `R.READ`, `R.BUFFERED`, `R.ALIGN` and `R.READ_ALIGNED`. -/

namespace Sys2Proof.Machine

open Sys2Proof.Config

/-! ### The words of `R.READ` (30_encoding.md R80, R83, R92) -/

theorem lowHalf_lenWord (len : Nat) {low : Nat} (hlow : low < 65536) :
    BitVec.ofNat 32 (65536 * len + low) &&& 0x0000FFFF#32 = BitVec.ofNat 32 low := by
  apply BitVec.eq_of_toNat_eq
  rw [BitVec.toNat_and, show (0x0000FFFF#32).toNat = 2 ^ 16 - 1 from rfl, Nat.and_two_pow_sub_one_eq_mod]
  simp only [BitVec.toNat_ofNat]
  omega

theorem lenField_lenWord {len low : Nat} (hlen : len < 65536) (hlow : low < 65536) :
    lenField (BitVec.ofNat 32 (65536 * len + low)) = len := by
  simp only [lenField, BitVec.extractLsb'_toNat, BitVec.toNat_ofNat, Nat.shiftRight_eq_div_pow]
  omega

/-- Bit 6, the low bit of `UNIT`, is 0 in every writer row (30_encoding.md R91). -/
theorem writerRows_bit6 : ∀ r ∈ writerRows, r.mask.getLsbD 6 = true ∧ r.pat.getLsbD 6 = false := by decide

theorem writerRows_find?_eq_none {w : Word32} (h : w.getLsbD 6 = true) :
    writerRows.find? (fun r => r.matchesWord w) = none := by
  refine List.find?_eq_none.2 fun r hr => ?_
  obtain ⟨hmask, hpat⟩ := writerRows_bit6 r hr
  simp [OpRow.matchesWord_eq_false_of_bit hmask (show w.getLsbD 6 ≠ r.pat.getLsbD 6 by rw [h, hpat]; decide)]

/-- A word whose low half is 0x41 is the `R.READ` of its upper half. -/
theorem decode_of_lowHalf_rRead {w : Word32} (h : w &&& 0x0000FFFF#32 = 0x00000041#32) :
    decode w = some (.rRead (lenField w)) := by
  have hbit0 : w.getLsbD 0 = true := by
    have := congrArg (fun x : Word32 => x.getLsbD 0) h
    simpa using this
  have hbit6 : w.getLsbD 6 = true := by
    have := congrArg (fun x : Word32 => x.getLsbD 6) h
    simpa using this
  have hbind : OpRow.matchesWord (fixedRow 0x00000040#32 .rBind) w = false :=
    OpRow.matchesWord_eq_false_of_bit (i := 0) rfl (by rw [hbit0]; decide)
  have hread : OpRow.matchesWord ⟨0x00000041#32, 0x0000FFFF#32, fun w => .rRead (lenField w)⟩ w = true := by
    simpa [OpRow.matchesWord] using h
  simp [decode, opRows, List.find?_append, writerRows_find?_eq_none hbit6, readerRows, hbind, hread]

theorem decode_rRead_word {len : Nat} (h : len < 65536) :
    decode (BitVec.ofNat 32 (65536 * len + 0x41)) = some (.rRead len) := by
  rw [decode_of_lowHalf_rRead (lowHalf_lenWord len (by decide)), lenField_lenWord h (by decide)]

/-! ### Finishing without `DOUT`, and raising a fetch's code (60_exceptions.md R223, R230) -/

theorem Reader.finish_without_dout (c : Code) (v : Word64) (r : Reader) :
    Reader.finish c v [] r = { r with regs := HostRegs.finish c v [] r.regs } := by
  simp [Reader.finish]

theorem Reader.raise_faultsWith {c : Code} (hc : Code.setsFault c = true) (v : Word64) (dout : List Byte)
    {r r' : Reader} (h : Reader.sameControl r r') : Reader.faultsWith r c v dout (Reader.raise c v dout r') := by
  obtain ⟨hregs, hbound, hkey, hseek, -, hstream, hmem, hsrcSeek, hreference⟩ := h
  refine ⟨?_, ?_, ?_, ?_, ?_, ?_, ?_, ?_, ?_⟩ <;>
    simp [HostRegs.finish, hc, hregs, hbound, hkey, hseek, hstream, hmem, hsrcSeek, hreference]

theorem Reader.raise_endsData (v : Word64) (dout : List Byte) {r r' : Reader} (h : Reader.sameControl r r')
    (hf : r.fault = false) (hc : r'.cur = -1) : Reader.endsData r v dout (Reader.raise .endOfData v dout r') := by
  rw [Reader.raise_of_not_setsFault rfl]
  obtain ⟨hregs, hbound, hkey, hseek, hfault, hstream, hmem, hsrcSeek, hreference⟩ := h
  refine ⟨?_, ?_, ?_, ?_, ?_, ?_, ?_, ?_, ?_, ?_⟩ <;>
    simp [HostRegs.finish, hf, hc, hregs, hbound, hkey, hseek, hfault, hstream, hmem, hsrcSeek, hreference]

/-- The code of a fetch that got `got` bytes, less than a block (60_exceptions.md R223). -/
def dryCode (got : Nat) : Code := if got = 0 then .endOfData else .shortRead

@[simp] theorem dryCode_zero : dryCode 0 = .endOfData := rfl

theorem dryCode_of_pos {got : Nat} (h : 0 < got) : dryCode got = .shortRead := if_neg (by omega)

/-- The read step of `R.READ_ALIGNED` makes both shortfalls the same (42_reader.md R186). -/
theorem shortfallCode_dryCode (got : Nat) : shortfallCode (dryCode got) = .shortRead := by
  rcases Nat.eq_zero_or_pos got with h | h
  · rw [h]; rfl
  · rw [dryCode_of_pos h]; rfl

theorem Reader.raise_runsDry (got : Nat) (v : Word64) (dout : List Byte) {r r' : Reader}
    (h : Reader.sameControl r r') (hf : r.fault = false) (hc : r'.cur = -1) :
    Reader.runsDry r got v dout (Reader.raise (dryCode got) v dout r') := by
  refine ⟨fun h0 => ?_, fun hpos => ?_⟩
  · rw [h0, dryCode_zero]
    exact Reader.raise_endsData v dout h hf hc
  · rw [dryCode_of_pos hpos]
    exact Reader.raise_faultsWith rfl v dout h

/-! ### A fetch that stops (42_reader.md R171) -/

/-- What `Reader.fetch_short` leaves, and where. -/
theorem Reader.fetch_dry {r : Reader} (ha : nextAnswer r.source.plan = .obey)
    (hl : (Source.nextBlocks r.source 1).length < bs) :
    ∃ r', Reader.fetch r = .stop (dryCode (Source.nextBlocks r.source 1).length) r' ∧ Reader.sameControl r r' ∧
      r'.cur = -1 ∧ r'.source.pos = Source.posAfter r.source (Source.nextBlocks r.source 1).length :=
  ⟨_, Reader.fetch_short ha hl, ⟨rfl, rfl, rfl, rfl, rfl, rfl, rfl, rfl, rfl⟩, rfl, rfl⟩

/-- What `Reader.fetch_fail` leaves untouched. -/
theorem Reader.fetch_fail_sameControl {r : Reader} (ha : nextAnswer r.source.plan = .fail) :
    ∃ r', Reader.fetch r = .stop .ioError r' ∧ Reader.sameControl r r' :=
  ⟨_, Reader.fetch_fail ha, rfl, rfl, rfl, rfl, rfl, rfl, rfl, rfl, rfl⟩

/-- Off the point of log entry 16 a read that gets no byte leaves the source where it stood (20_memory.md R55). -/
theorem Source.posAfter_zero {c : Source} (h : c.reference = false ∨ c.pos ≤ Memory.length c.mem) :
    Source.posAfter c 0 = c.pos := by
  refine if_neg fun hpast => ?_
  obtain ⟨href, hlt⟩ := hpast
  rcases h with h | h
  · rw [h] at href; cases href
  · omega

/-- A read that gets no byte after the `got` bytes before it leaves the source behind those. -/
theorem Reader.sourceMoves_of_posAfter {r r' : Reader} {got calls : Nat}
    (h : r'.source.pos = Source.posAfter (Source.moved r.source (r.source.pos + got) calls) 0) :
    Reader.sourceMoves r got r' := fun hor => h.trans (Source.posAfter_zero hor)

/-! ### The source's blocks where it ends first (20_memory.md R55) -/

/-- The whole blocks among the bytes that a source holds. -/
theorem Source.nextBlocks_whole (c : Source) {m : Nat} (h : (Source.nextBlocks c m).length < bs * m) :
    (Source.nextBlocks c ((Source.nextBlocks c m).length / bs)).length =
      bs * ((Source.nextBlocks c m).length / bs) := by
  have hle := Nat.mul_div_le (Source.nextBlocks c m).length bs
  rw [← Source.nextBlocks_take c m _ (Nat.div_lt_of_lt_mul h).le, List.length_take, min_eq_left hle]

/-- Behind its whole blocks a source that ends first holds the rest, less than a block. -/
theorem Source.nextBlocks_rest (c : Source) {m : Nat} (h : (Source.nextBlocks c m).length < bs * m) :
    (Source.nextBlocks (Source.moved c (c.pos + bs * ((Source.nextBlocks c m).length / bs))
      ((Source.nextBlocks c m).length / bs)) 1).length = (Source.nextBlocks c m).length % bs := by
  have hwhole := Source.nextBlocks_whole c h
  have hlt : (Source.nextBlocks c m).length / bs < m := Nat.div_lt_of_lt_mul h
  have hdiv := Nat.div_add_mod (Source.nextBlocks c m).length bs
  have hmod := Nat.mod_lt (Source.nextBlocks c m).length (show 0 < bs by decide)
  generalize hj : (Source.nextBlocks c m).length / bs = j at *
  have hsplit := congrArg List.length (Source.nextBlocks_add hwhole (m - j) j)
  rw [Nat.add_sub_cancel' hlt.le, List.length_append, hwhole] at hsplit
  have hrest : (Source.nextBlocks (Source.moved c (c.pos + bs * j) j) (m - j)).length =
      (Source.nextBlocks c m).length % bs := by omega
  rw [← Source.nextBlocks_take _ (m - j) 1 (by omega), List.length_take, hrest, Nat.mul_one, min_eq_right hmod.le]

/-! ### The read loop (42_reader.md R174) -/

theorem Reader.plaintext_zero (r : Reader) : Reader.plaintext r 0 = Reader.unread r := List.append_nil _

theorem nextAnswer_drop_eq_fail {plan : List PortAnswer} {j : Nat} (h : plan[j]? = some .fail) :
    nextAnswer (plan.drop j) = .fail := by
  rw [List.drop_eq_getElem_cons (List.getElem?_eq_some_iff.1 h).1, (List.getElem?_eq_some_iff.1 h).2]
  rfl

theorem getElem?_zero_of_nextAnswer {plan : List PortAnswer} (h : nextAnswer plan = .fail) :
    plan[0]? = some .fail := by
  cases plan with
  | nil => cases h
  | cons a plan => rw [← h]; rfl

/-- The read loop over a source that obeys and ends first: its whole blocks are delivered. -/
theorem Reader.readLoop_dry {turns n : Nat} (out : List Byte) {r : Reader} (ht : n ≤ turns) :
    let m := Reader.blocksFor r n
    let held := (Source.nextBlocks r.source m).length
    held < bs * m → obeysNext r.source.plan (held / bs + 1) →
    ∃ r', Reader.readLoop turns n out r =
        .stop (dryCode (held % bs)) (out ++ Reader.plaintext r (held / bs), r') ∧
      Reader.sameControl r r' ∧ r'.cur = -1 ∧
      r'.source.pos =
        Source.posAfter (Source.moved r.source (r.source.pos + bs * (held / bs)) (held / bs)) (held % bs) := by
  intro m held hheld hobey
  obtain ⟨hbefore, hlast⟩ := (obeysNext_add _ _ _).1 hobey
  obtain ⟨r1, hsource, hcontrol, hstop⟩ := Reader.readLoop_stop (out := out) ht (Nat.div_lt_of_lt_mul hheld)
    hbefore (Source.nextBlocks_whole _ hheld)
  have hrest : (Source.nextBlocks r1.source 1).length = held % bs := by
    rw [hsource]
    exact Source.nextBlocks_rest r.source hheld
  obtain ⟨r', hfetch, hcontrol', hcur, hpos⟩ := Reader.fetch_dry (r := r1)
    (by rw [hsource]; exact obeysNext_one.1 hlast) (by rw [hrest]; exact Nat.mod_lt _ (by decide))
  rw [hrest] at hfetch hpos
  rw [hsource] at hpos
  exact ⟨r', hstop _ _ hfetch, hcontrol.trans hcontrol', hcur, hpos⟩

/-- The read loop over a source that fails the fetch of block `j`: the blocks before it are delivered. -/
theorem Reader.readLoop_fail {turns n j : Nat} (out : List Byte) {r : Reader} (ht : n ≤ turns)
    (hj : j < Reader.blocksFor r n) (hobey : obeysNext r.source.plan j) (hfail : r.source.plan[j]? = some .fail)
    (hl : (Source.nextBlocks r.source j).length = bs * j) :
    ∃ r', Reader.readLoop turns n out r = .stop .ioError (out ++ Reader.plaintext r j, r') ∧
      Reader.sameControl r r' := by
  obtain ⟨r1, hsource, hcontrol, hstop⟩ := Reader.readLoop_stop (out := out) ht hj hobey hl
  obtain ⟨r', hfetch, hcontrol'⟩ := Reader.fetch_fail_sameControl (r := r1)
    (by rw [hsource]; exact nextAnswer_drop_eq_fail hfail)
  exact ⟨r', hstop _ _ hfetch, hcontrol.trans hcontrol'⟩

theorem Reader.read_of_go {n : Nat} {r r' : Reader} {out : List Byte}
    (h : Reader.readLoop n n [] r = .go (out, r')) :
    Reader.read n r = Reader.finish .ok (BitVec.ofNat 64 n) out r' := by rw [Reader.read, h]

theorem Reader.read_of_stop {n : Nat} {r r' : Reader} {c : Code} {out : List Byte}
    (h : Reader.readLoop n n [] r = .stop c (out, r')) :
    Reader.read n r = Reader.raise c (BitVec.ofNat 64 out.length) out r' := by rw [Reader.read, h]

/-! ### `R.BUFFERED` (42_reader.md R172, R184) -/

theorem Reader.ofNat_buffered (r : Reader) :
    BitVec.ofNat 64 (Reader.buffered r) = if 0 ≤ r.cur ∧ r.cur < bs then BitVec.ofInt 64 (bs - r.cur) else 0 := by
  unfold Reader.buffered
  split_ifs with h
  · rw [← BitVec.ofInt_natCast]
    congr 1
    omega
  · rfl

/-! ### `R.ALIGN` (42_reader.md R185) -/

/-- The buffered bytes are off the alignment unit exactly where the loaded block is partly read. -/
theorem Reader.buffered_mod_ne_zero (r : Reader) : Reader.buffered r % alignUnit ≠ 0 ↔ 0 < r.cur ∧ r.cur < bs := by
  unfold Reader.buffered
  split_ifs with h
  · show (8 - r.cur.toNat) % 8 ≠ 0 ↔ 0 < r.cur ∧ r.cur < 8
    omega
  · exact ⟨fun hne => absurd rfl hne, fun ⟨hpos, hlt⟩ => absurd ⟨hpos.le, hlt⟩ h⟩

/-- With no block loaded, or one of which nothing or everything was read, there is nothing to drop. -/
theorem Reader.alignBody_of_aligned {r : Reader} (h : r.cur ≤ 0 ∨ bs ≤ r.cur) : Reader.alignBody r = .go r :=
  if_neg fun hne => by
    obtain ⟨hpos, hlt⟩ := (Reader.buffered_mod_ne_zero r).1 hne
    omega

theorem Reader.alignBody_of_partial {r : Reader} (hpos : 0 < r.cur) (hlt : r.cur < bs) :
    Reader.alignBody r = Reader.fetch { r with cur := -1 } :=
  if_pos ((Reader.buffered_mod_ne_zero r).2 ⟨hpos, hlt⟩)

theorem Reader.sameControl_setCur (r : Reader) (c : Int) : Reader.sameControl r { r with cur := c } :=
  ⟨rfl, rfl, rfl, rfl, rfl, rfl, rfl, rfl, rfl⟩

section
variable {r : Reader} (hpos : 0 < r.cur) (hlt : r.cur < bs)
include hpos hlt

theorem Reader.alignBody_obey (ha : nextAnswer r.source.plan = .obey)
    (hl : (Source.nextBlocks r.source 1).length = bs) : Reader.alignBody r = .go (Reader.loaded r) := by
  rw [Reader.alignBody_of_partial hpos hlt]
  exact Reader.fetch_ok (r := { r with cur := -1 }) ha hl

theorem Reader.alignBody_dry (ha : nextAnswer r.source.plan = .obey)
    (hl : (Source.nextBlocks r.source 1).length < bs) :
    ∃ r', Reader.alignBody r = .stop (dryCode (Source.nextBlocks r.source 1).length) r' ∧ Reader.sameControl r r' ∧
      r'.cur = -1 ∧ r'.source.pos = Source.posAfter r.source (Source.nextBlocks r.source 1).length := by
  obtain ⟨r', hfetch, hcontrol, hrest⟩ := Reader.fetch_dry (r := { r with cur := -1 }) ha hl
  exact ⟨r', (Reader.alignBody_of_partial hpos hlt).trans hfetch,
    (Reader.sameControl_setCur r (-1)).trans hcontrol, hrest⟩

theorem Reader.alignBody_fail (ha : nextAnswer r.source.plan = .fail) :
    ∃ r', Reader.alignBody r = .stop .ioError r' ∧ Reader.sameControl r r' := by
  obtain ⟨r', hfetch, hcontrol⟩ := Reader.fetch_fail_sameControl (r := { r with cur := -1 }) ha
  exact ⟨r', (Reader.alignBody_of_partial hpos hlt).trans hfetch, (Reader.sameControl_setCur r (-1)).trans hcontrol⟩

end

/-- What `Reader.alignBody_dry` and a fetch like it leave, once their code is raised. -/
theorem Reader.raise_dry {r r' : Reader} {got : Nat}
    (h : Reader.sameControl r r' ∧ r'.cur = -1 ∧ r'.source.pos = Source.posAfter r.source got)
    (hf : r.fault = false) :
    Reader.runsDry r got 0 [] (Reader.raise (dryCode got) 0 [] r') ∧
      (got = 0 → Reader.sourceMoves r 0 (Reader.raise (dryCode got) 0 [] r')) := by
  obtain ⟨hcontrol, hcur, hpos⟩ := h
  refine ⟨Reader.raise_runsDry _ _ _ hcontrol hf hcur, fun h0 => ?_⟩
  rw [h0] at hpos
  exact Reader.sourceMoves_of_posAfter (calls := 0) ((congrArg Source.pos (Reader.raise_source _ _ _ _)).trans hpos)

theorem Reader.align_of_go {r r' : Reader} (h : Reader.alignBody r = .go r') :
    Reader.align r = Reader.finish .ok 0 [] r' := by rw [Reader.align, h]

theorem Reader.align_of_stop {r r' : Reader} {c : Code} (h : Reader.alignBody r = .stop c r') :
    Reader.align r = Reader.raise c 0 [] r' := by rw [Reader.align, h]

/-! ### `R.READ_ALIGNED` (42_reader.md R186) -/

theorem Reader.readAligned_of_align_stop {r r' : Reader} {c : Code} (h : Reader.alignBody r = .stop c r') :
    Reader.readAligned r = Reader.raise c 0 [] r' := by rw [Reader.readAligned, h]

theorem Reader.readAligned_of_go {r r' r'' : Reader} {out : List Byte} (h : Reader.alignBody r = .go r')
    (hread : Reader.readLoop bs bs [] r' = .go (out, r'')) :
    Reader.readAligned r = Reader.finish .ok 8 out r'' := by
  rw [Reader.readAligned, h]
  simp only [hread]
  rfl

theorem Reader.readAligned_of_read_stop {r r' r'' : Reader} {c : Code} {out : List Byte}
    (h : Reader.alignBody r = .go r') (hread : Reader.readLoop bs bs [] r' = .stop c (out, r'')) :
    Reader.readAligned r = Reader.raise (shortfallCode c) (BitVec.ofNat 64 out.length) out r'' := by
  rw [Reader.readAligned, h]
  simp only [hread]

/-- Of an untouched block every byte is before the reader. -/
theorem Reader.unread_of_untouched {r : Reader} (h : r.cur = 0) : Reader.unread r = blockBytes r.buf := by
  rw [Reader.unread_of_loaded h.ge, h]
  simp [blockSlice, List.take_of_length_le]

theorem Reader.readLoop_untouched {r : Reader} (h : r.cur = 0) :
    Reader.readLoop bs bs [] r = .go (blockBytes r.buf, { r with cur := bs }) := by
  have hlen : bs ≤ (Reader.unread r).length := by rw [Reader.unread_of_untouched h, blockBytes_length]
  have hm : Reader.blocksFor r bs = 0 := by
    rw [Reader.blocksFor, Nat.sub_eq_zero_of_le hlen]
    rfl
  rw [Reader.readLoop_ok le_rfl (by rw [hm]; exact obeysNext_zero _) (by rw [hm]; rfl), hm,
    Reader.advance_of_loaded hlen, h, Reader.plaintext_zero, Reader.unread_of_untouched h,
    List.take_of_length_le (blockBytes_length _).le]
  rfl

/-- A reader with no byte before it fetches one block to deliver one. -/
theorem Reader.blocksFor_block {r : Reader} (h : r.cur < 0 ∨ bs ≤ r.cur) : Reader.blocksFor r bs = 1 := by
  rw [Reader.blocksFor, Reader.unread_eq_nil h]
  rfl

theorem Reader.readLoop_nextBlock {r : Reader} (h : r.cur < 0 ∨ bs ≤ r.cur) (ha : nextAnswer r.source.plan = .obey)
    (hl : (Source.nextBlocks r.source 1).length = bs) :
    Reader.readLoop bs bs [] r = Reader.readLoop bs bs [] (Reader.loaded r) := by
  have hunread := Reader.unread_eq_nil h
  have hm := Reader.blocksFor_block h
  rw [Reader.readLoop_ok le_rfl (by rw [hm]; exact obeysNext_one.2 ha) (by rw [hm]; exact hl), hm,
    Reader.advance_of_exhausted hunread (by decide) hl, Reader.plaintext_loaded hunread hl,
    Reader.advance_of_loaded (by rw [Reader.unread_loaded, blockBytes_length]), Reader.plaintext_zero,
    Reader.unread_loaded, List.take_of_length_le (blockBytes_length _).le, Reader.readLoop_untouched rfl]
  rfl

theorem Reader.readAligned_untouched {r : Reader} (h : r.cur = 0) :
    Reader.readAligned r = Reader.finish .ok 8 (blockBytes r.buf) { r with cur := bs } :=
  Reader.readAligned_of_go (Reader.alignBody_of_aligned (.inl h.le)) (Reader.readLoop_untouched h)

/-- The next block is fetched by the align step where the loaded one is partly read, else by the read step. -/
theorem Reader.readAligned_nextBlock {r : Reader} (h : r.cur ≠ 0) (ha : nextAnswer r.source.plan = .obey)
    (hl : (Source.nextBlocks r.source 1).length = bs) :
    Reader.readAligned r = Reader.finish .ok 8
      (blockBytes (dec r.key (blockOfBytes (Source.nextBlocks r.source 1)))) { Reader.loaded r with cur := bs } := by
  have huntouched := Reader.readLoop_untouched (r := Reader.loaded r) rfl
  by_cases hpart : 0 < r.cur ∧ r.cur < bs
  · obtain ⟨hpos, hlt⟩ := hpart
    exact Reader.readAligned_of_go (Reader.alignBody_obey hpos hlt ha hl) huntouched
  · have hnone : r.cur < 0 ∨ bs ≤ r.cur := by omega
    exact Reader.readAligned_of_go (Reader.alignBody_of_aligned (by omega))
      ((Reader.readLoop_nextBlock hnone ha hl).trans huntouched)

/-- The align step has nothing to drop, and the read step's fetch finds less than a block. -/
theorem Reader.readAligned_dry {r : Reader} (h : r.cur < 0 ∨ bs ≤ r.cur) (ha : nextAnswer r.source.plan = .obey)
    (hl : (Source.nextBlocks r.source 1).length < bs) :
    ∃ r', Reader.readAligned r = Reader.raise .shortRead 0 [] r' ∧ Reader.sameControl r r' := by
  have hm := Reader.blocksFor_block h
  have hdiv : (Source.nextBlocks r.source 1).length / bs = 0 := Nat.div_eq_of_lt hl
  obtain ⟨r', hstop, hcontrol, -⟩ := Reader.readLoop_dry [] (r := r) (le_refl bs) (by rw [hm]; exact hl)
    (by rw [hm, hdiv]; exact obeysNext_one.2 ha)
  rw [hm, hdiv, List.nil_append, Reader.plaintext_zero, Reader.unread_eq_nil h] at hstop
  refine ⟨r', ?_, hcontrol⟩
  rw [Reader.readAligned_of_read_stop (Reader.alignBody_of_aligned (by omega)) hstop, shortfallCode_dryCode]
  rfl

/-- Whichever step makes the fetch, its failure is the code. -/
theorem Reader.readAligned_fail {r : Reader} (h : r.cur ≠ 0) (ha : nextAnswer r.source.plan = .fail) :
    ∃ r', Reader.readAligned r = Reader.raise .ioError 0 [] r' ∧ Reader.sameControl r r' := by
  by_cases hpart : 0 < r.cur ∧ r.cur < bs
  · obtain ⟨hpos, hlt⟩ := hpart
    obtain ⟨r', hstop, hcontrol⟩ := Reader.alignBody_fail hpos hlt ha
    exact ⟨r', Reader.readAligned_of_align_stop hstop, hcontrol⟩
  · have hnone : r.cur < 0 ∨ bs ≤ r.cur := by omega
    obtain ⟨r', hstop, hcontrol⟩ := Reader.readLoop_fail [] (le_refl bs) (j := 0)
      (by rw [Reader.blocksFor_block hnone]; decide) (obeysNext_zero _) (getElem?_zero_of_nextAnswer ha) rfl
    rw [List.nil_append, Reader.plaintext_zero, Reader.unread_eq_nil hnone] at hstop
    refine ⟨r', ?_, hcontrol⟩
    rw [Reader.readAligned_of_read_stop (Reader.alignBody_of_aligned (by omega)) hstop]
    rfl

/-! ### `R.BIND` (42_reader.md R173) -/

theorem Reader.bind_of_valid {r : Reader} (h : keyValid r.regs.arg0 = true) :
    Reader.bind r = Reader.finish .ok 0 []
      { r with
        bound := true, key := r.regs.arg0, seek := r.source.seek, fault := false, buf := zeroBlock, cur := -1 } := by
  simp [Reader.bind, h]

/-- KEY_ERROR is no faulting code, so a rejected key leaves the reader unbound and without a fault (R221, R230). -/
theorem Reader.bind_of_rejected {r : Reader} (h : keyValid r.regs.arg0 = false) :
    Reader.bind r = Reader.finish .keyError 0 []
      { r with
        bound := false, key := freeKey r.draw, seek := false, fault := false, buf := zeroBlock, cur := -1
        draw := r.draw.next } := by
  simp [Reader.bind, h, Reader.raise_of_not_setsFault (c := .keyError) rfl]

/-! ### The settled statements -/

/-- Settles O46: the three outcomes of the read loop on an admitted reader. -/
theorem readDeliversTheBytes : Obligations.ReadDeliversTheBytes := by
  refine ⟨fun _ => decode_rRead_word, fun len s n hcur hready => ?_⟩
  have hexec : exec (.rRead len) s = .next (State.setR s n (Reader.read len n.r)) :=
    exec_reader_of_ready rfl rfl hcur hready
  obtain ⟨-, hfault, -⟩ := hready
  refine ⟨fun hobey hheld => ?_, fun hheld hobey => ?_, fun j hj hobey hfail hheld => ?_⟩
  · rw [hexec, Reader.read_of_go (Reader.readLoop_ok le_rfl hobey hheld), List.nil_append]
  · obtain ⟨r', hstop, hcontrol, hcur', hpos⟩ := Reader.readLoop_dry [] le_rfl hheld hobey
    rw [Reader.read_of_stop hstop, List.nil_append] at hexec
    refine ⟨_, hexec, Reader.raise_runsDry _ _ _ hcontrol hfault hcur', fun hend => ?_⟩
    rw [hend, Nat.mul_div_cancel' (Nat.dvd_of_mod_eq_zero hend)] at hpos
    exact Reader.sourceMoves_of_posAfter ((congrArg Source.pos (Reader.raise_source _ _ _ _)).trans hpos)
  · obtain ⟨r', hstop, hcontrol⟩ := Reader.readLoop_fail [] le_rfl hj hobey hfail hheld
    rw [Reader.read_of_stop hstop, List.nil_append] at hexec
    exact ⟨_, hexec, Reader.raise_faultsWith rfl _ _ hcontrol⟩

/-- Settles O49: nothing to drop, or a fetch that goes through, runs dry or fails. -/
theorem alignDropsThePartlyReadBlock : Obligations.AlignDropsThePartlyReadBlock := by
  refine ⟨by decide, fun s n hcur hready => ?_⟩
  have hexec : exec .rAlign s = .next (State.setR s n (Reader.align n.r)) :=
    exec_reader_of_ready rfl rfl hcur hready
  obtain ⟨-, hfault, -⟩ := hready
  refine ⟨fun haligned => ?_, fun hpos hlt ha hheld => ?_, fun hpos hlt ha hheld => ?_, fun hpos hlt ha => ?_⟩
  · rw [hexec, Reader.align_of_go (Reader.alignBody_of_aligned haligned)]
  · rw [hexec, Reader.align_of_go (Reader.alignBody_obey hpos hlt ha hheld)]
  · obtain ⟨r', hstop, hdry⟩ := Reader.alignBody_dry hpos hlt ha hheld
    rw [Reader.align_of_stop hstop] at hexec
    exact ⟨_, hexec, Reader.raise_dry hdry hfault⟩
  · obtain ⟨r', hstop, hcontrol⟩ := Reader.alignBody_fail hpos hlt ha
    rw [Reader.align_of_stop hstop] at hexec
    exact ⟨_, hexec, Reader.raise_faultsWith rfl _ _ hcontrol⟩

/-- Settles O50: the align step's outcomes, then the read step's. -/
theorem readAlignedDeliversABlock : Obligations.ReadAlignedDeliversABlock := by
  refine ⟨by decide, fun s n hcur hready => ?_⟩
  have hexec : exec .rReadAligned s = .next (State.setR s n (Reader.readAligned n.r)) :=
    exec_reader_of_ready rfl rfl hcur hready
  obtain ⟨-, hfault, -⟩ := hready
  refine ⟨fun h0 => ?_, fun hne ha hheld => ?_, fun hpos hlt ha hheld => ?_, fun hnone ha hheld => ?_,
    fun hne ha => ?_⟩
  · rw [hexec, Reader.readAligned_untouched h0]
  · rw [hexec, Reader.readAligned_nextBlock hne ha hheld]
  · obtain ⟨r', hstop, hdry⟩ := Reader.alignBody_dry hpos hlt ha hheld
    rw [Reader.readAligned_of_align_stop hstop] at hexec
    exact ⟨_, hexec, Reader.raise_dry hdry hfault⟩
  · obtain ⟨r', hraise, hcontrol⟩ := Reader.readAligned_dry hnone ha hheld
    rw [hraise] at hexec
    exact ⟨_, hexec, Reader.raise_faultsWith rfl _ _ hcontrol⟩
  · obtain ⟨r', hraise, hcontrol⟩ := Reader.readAligned_fail hne ha
    rw [hraise] at hexec
    exact ⟨_, hexec, Reader.raise_faultsWith rfl _ _ hcontrol⟩

/-- Settles O45: the two outcomes of the cipher's answer to the key. -/
theorem readerBindResetsAndLoads : Obligations.ReaderBindResetsAndLoads := by
  refine ⟨by decide, fun s n hcur hdin => ?_⟩
  have hexec : exec .rBind s = .next (State.setR s n (Reader.bind n.r)) := bindReader_of_din hcur hdin
  cases hkey : keyValid n.r.regs.arg0 with
  | true =>
    refine ⟨n.r.regs.arg0, n.r.draw, fun _ => ⟨rfl, rfl⟩, ?_⟩
    rw [hexec, Reader.bind_of_valid hkey, Reader.finish_without_dout]
    rfl
  | false =>
    refine ⟨freeKey n.r.draw, n.r.draw.next, fun h => absurd h (by simp), ?_⟩
    rw [hexec, Reader.bind_of_rejected hkey, Reader.finish_without_dout]
    rfl

/-- Settles O48: admission, then the count of `Reader.ofNat_buffered`. -/
theorem bufferedCountsTheLoadedBytes : Obligations.BufferedCountsTheLoadedBytes := by
  refine ⟨by decide, fun s n hcur hready => ?_⟩
  have hexec : exec .rBuffered s =
      .next (State.setR s n (Reader.finish .ok (BitVec.ofNat 64 (Reader.buffered n.r)) [] n.r)) :=
    exec_reader_of_ready (i := .rBuffered) rfl rfl hcur hready
  rw [hexec, Reader.ofNat_buffered, Reader.finish_without_dout]
  rfl

end Sys2Proof.Machine
end

section
/-! Exceptions (60_exceptions.md): ILLEGAL words, a missing capability, and how the fault bit follows the code a command
finishes with, over every command and every host action. -/

namespace Sys2Proof.Machine

open Sys2Proof.Config

/-! ### A patch and a seek without the capability (60_exceptions.md R225) -/

theorem Writer.patch_unsupported {w : Writer} (h : w.ra = false) (payload : List Byte) :
    Writer.patch payload w = Writer.finish .unsupported 0 w :=
  (if_pos h).trans (Writer.raise_of_not_setsFault rfl 0 w)

theorem Reader.seekTo_unsupported {r : Reader} (h : r.seek = false) (wh : Origin) :
    Reader.seekTo wh r = Reader.finish .unsupported 0 [] r :=
  (if_pos h).trans (Reader.raise_of_not_setsFault rfl 0 [] r)

/-- Every patch is `Writer.patch` of a payload read from the writer (41_writer.md R137, R138). -/
theorem writerRule_of_patch :
    ∀ i ∈ ([.wPatchBlock, .wPatchU8, .wPatchU16, .wPatchU32, .wPatchU64] : List Instr),
      Instr.engine i = .writer ∧ isBind i = false ∧ ∀ w, ∃ payload, writerRule i w = Writer.patch payload w := by
  simp only [List.forall_mem_cons, List.not_mem_nil, false_implies, implies_true, and_true]
  exact ⟨⟨rfl, rfl, fun _ => ⟨_, rfl⟩⟩, ⟨rfl, rfl, fun _ => ⟨_, rfl⟩⟩, ⟨rfl, rfl, fun _ => ⟨_, rfl⟩⟩,
    ⟨rfl, rfl, fun _ => ⟨_, rfl⟩⟩, ⟨rfl, rfl, fun _ => ⟨_, rfl⟩⟩⟩

/-- Every seek is `Reader.seekTo` of its origin (42_reader.md R188 to R190). -/
theorem readerRule_of_seek : ∀ i ∈ ([.rSeekSet, .rSeekCur, .rSeekEnd] : List Instr),
    Instr.engine i = .reader ∧ isBind i = false ∧ ∃ wh, readerRule i = Reader.seekTo wh := by
  simp only [List.forall_mem_cons, List.not_mem_nil, false_implies, implies_true, and_true]
  exact ⟨⟨rfl, rfl, _, rfl⟩, ⟨rfl, rfl, _, rfl⟩, ⟨rfl, rfl, _, rfl⟩⟩

/-- Settles O23: the capability is the first check of a patch and of a seek. -/
theorem missingCapabilityAnswersUnsupported : Obligations.MissingCapabilityAnswersUnsupported := by
  refine ⟨fun i hi s n hcur hready hra => ?_, fun i hi s n hcur hready hseek => ?_⟩
  · obtain ⟨hengine, hbind, hrule⟩ := writerRule_of_patch i hi
    obtain ⟨payload, hpatch⟩ := hrule n.w
    rw [exec_writer_of_ready hengine hbind hcur hready, hpatch, Writer.patch_unsupported hra]
    rfl
  · obtain ⟨hengine, hbind, wh, hrule⟩ := readerRule_of_seek i hi
    rw [exec_reader_of_ready hengine hbind hcur hready, hrule, Reader.seekTo_unsupported hseek,
      Reader.finish_without_dout]
    rfl

/-! ### ILLEGAL words (60_exceptions.md R227; 30_encoding.md R89, R93) -/

/-- Reporting ILLEGAL is a change of one engine's registers alone: the code sets no fault, and no `DOUT` joins the
run's. -/
theorem Instance.reportIllegal_eq_onRegs (n : Instance) (e : Engine) :
    Instance.reportIllegal n e =
      Instance.onRegs n e fun g => { g with code := .illegal, result := 0, dout := [] } := by
  cases e with
  | writer => rfl
  | reader =>
    simp only [Instance.reportIllegal, Reader.raise_of_not_setsFault (c := .illegal) rfl, Reader.finish_without_dout]
    rfl

theorem illegalEngine_of_unit_writer {word : Word32} (h : unitField word = 0#2) (written : Engine) :
    illegalEngine written word = .writer := if_pos h

theorem illegalEngine_of_unit_reader {word : Word32} (h : unitField word = 1#2) (written : Engine) :
    illegalEngine written word = .reader := by
  rw [illegalEngine, if_neg (by rw [h]; decide), if_pos h]

theorem takeCommand_of_illegal {s : State} {k : Nat} {n : Instance} {word : Word32} (hn : s.insts[k]? = some n)
    (hword : decode word = none) (written : Engine) (din : List Byte) :
    takeCommand k written word din s = .done (.next { s with
      sel := k
      insts := s.insts.set k
        (Instance.reportIllegal (Instance.onRegs n written fun g => { g with cmd := word })
          (illegalEngine written word)) }) := by
  simp [takeCommand, hn, hword]

/-- A word reaches `CMD` as a command with its `DIN`, or as a write of register 0 without (10_state.md R35). -/
theorem step_of_commandWord {s : State} {k : Nat} {e : Engine} {word : Word32} {op : HostOp} {rest : List HostOp}
    {o : Host.Outcome State Fault Refusal} (hhost : s.host = op :: rest)
    (hop : (∃ din, op = .command k e word din) ∨ ∃ value : Word64, op = .write k e 0#4 value ∧ word = value.setWidth 32)
    (htake : ∀ din, takeCommand k e word din { s with host := rest } = .done o) : step s = o := by
  rcases hop with ⟨din, rfl⟩ | ⟨value, rfl, rfl⟩ <;> simp [step, fetchHost, hhost, takeHostOp, htake]

/-- Settles O10: the word is taken from the queue and reported by the engine of `illegalEngine`. -/
theorem illegalWordChangesOnlyCodeAndResult : Obligations.IllegalWordChangesOnlyCodeAndResult := by
  intro s k n e word op rest hop hhost hn hword
  refine ⟨illegalEngine e word, fun hunit => illegalEngine_of_unit_writer hunit e,
    fun hunit => illegalEngine_of_unit_reader hunit e, ?_⟩
  refine step_of_commandWord hhost hop fun din => ?_
  rw [takeCommand_of_illegal (s := { s with host := rest }) hn hword, Instance.reportIllegal_eq_onRegs]

/-! ### The fault bit follows the code: the writer's rules (60_exceptions.md R230) -/

theorem Code.setsFault_iff (c : Code) :
    Code.setsFault c = true ↔ c = .ioError ∨ c = .shortRead ∨ c = .undefined := by
  cases c <;> decide

/-- The writer `w'` is left by a command begun at `w` that is no bind: its fault bit is set by the code it finished
with, or stands as it was. -/
def Writer.faultFollowsCode (w w' : Writer) : Prop := w'.fault = (Code.setsFault w'.regs.code || w.fault)

theorem Writer.faultFollowsCode_raise {w w' : Writer} (h : w'.fault = w.fault) (c : Code) (v : Word64) :
    Writer.faultFollowsCode w (Writer.raise c v w') := by
  simp [Writer.faultFollowsCode, h]

theorem Writer.faultFollowsCode_finish_ok {w w' : Writer} (h : w'.fault = w.fault) (v : Word64) :
    Writer.faultFollowsCode w (Writer.finish .ok v w') := Writer.faultFollowsCode_raise h .ok v

theorem Writer.sameControl.fault {w w' : Writer} (h : Writer.sameControl w w') : w'.fault = w.fault := by
  obtain ⟨-, -, -, -, -, -, hfault, -⟩ := h
  exact hfault

/-- A flush from any fill cursor goes through or raises a code, and touches the data path only (41_writer.md R133). -/
theorem Writer.flush_frame (w : Writer) :
    ∃ w', Writer.sameControl w w' ∧ (Writer.flush w = .go w' ∨ ∃ c, Writer.flush w = .stop c w') := by
  rcases Nat.eq_zero_or_pos w.fill with hempty | hpending
  · exact ⟨w, .refl w, .inl (if_pos hempty)⟩
  by_cases hrange : w.ofs.toNat + (bs - w.fill) > maxOfs
  · exact ⟨w, .refl w, .inr ⟨_, Writer.flush_undefined hpending (by rwa [Writer.pad_of_pos hpending])⟩⟩
  · simp only [Writer.flush, if_neg (Nat.ne_of_gt hpending), if_neg hrange]
    rcases Writer.emit_cases { w with
      buf := if w.compat then w.buf else blockPut w.buf w.fill (List.replicate (bs - w.fill) 0), fill := bs }
      with hgo | ⟨w', hstop, hcontrol, -⟩
    · rw [hgo]
      refine ⟨_, ?_, .inl rfl⟩
      exact ⟨rfl, rfl, rfl, rfl, rfl, rfl, rfl, rfl, rfl⟩
    · rw [hstop]
      exact ⟨w', hcontrol, .inr ⟨_, rfl⟩⟩

theorem Writer.write_faultFollowsCode (s : List Byte) (w : Writer) :
    Writer.faultFollowsCode w (Writer.write s w) := by
  by_cases hrefused : w.closed = true ∨ w.ofs.toNat + s.length > maxOfs
  · rw [Writer.write_undefined hrefused]
    exact Writer.faultFollowsCode_raise rfl _ _
  · obtain ⟨hopen, hrange⟩ := not_or.1 hrefused
    obtain ⟨w', hcontrol, -, hgo | hstop⟩ := Writer.writeLoop_frame (s.length + 1) w s
    · rw [Writer.write, if_neg hopen, if_neg hrange, hgo]
      exact Writer.faultFollowsCode_finish_ok hcontrol.fault _
    · rw [Writer.write, if_neg hopen, if_neg hrange, hstop]
      exact Writer.faultFollowsCode_raise hcontrol.fault _ _

theorem Writer.flushCommand_faultFollowsCode (w : Writer) :
    Writer.faultFollowsCode w (Writer.flushCommand w) := by
  obtain ⟨w', hcontrol, hgo | ⟨c, hstop⟩⟩ := Writer.flush_frame w
  · rw [Writer.flushCommand_of_go hgo]
    exact Writer.faultFollowsCode_finish_ok hcontrol.fault _
  · rw [Writer.flushCommand_of_stop hstop]
    exact Writer.faultFollowsCode_raise hcontrol.fault _ _

theorem Writer.close_faultFollowsCode (w : Writer) : Writer.faultFollowsCode w (Writer.close w) := by
  obtain ⟨w', hcontrol, hgo | ⟨c, hstop⟩⟩ := Writer.flush_frame w
  · rw [Writer.close, hgo]
    exact Writer.faultFollowsCode_finish_ok (w' := { w' with closed := true }) hcontrol.fault _
  · rw [Writer.close, hstop]
    exact Writer.faultFollowsCode_raise hcontrol.fault _ _

theorem Writer.reserve_faultFollowsCode (w : Writer) : Writer.faultFollowsCode w (Writer.reserve w) := by
  by_cases hrefused : w.closed = true ∨ w.ofs.toNat + Writer.pad w + bs > maxOfs
  · rw [Writer.reserve_undefined hrefused]
    exact Writer.faultFollowsCode_raise rfl _ _
  · obtain ⟨hopen, hrange⟩ := not_or.1 hrefused
    rw [Bool.not_eq_true] at hopen
    rw [not_lt] at hrange
    obtain ⟨w', hcontrol, hgo | ⟨c, hstop⟩⟩ := Writer.flush_frame w
    · rcases nextAnswer_cases w'.sink.plan with hobey | hfail
      · rw [Writer.reserve_of_flush_go hopen hrange hgo hobey]
        exact Writer.faultFollowsCode_finish_ok (w' := Writer.placeholderPut w') hcontrol.fault _
      · obtain ⟨w'', hsink, hcontrol'⟩ := Writer.sinkWrite_fail_sameControl hfail (blockBytes zeroBlock)
        rw [Writer.reserve_of_sink_stop hopen hrange hgo hsink]
        exact Writer.faultFollowsCode_raise (hcontrol.trans hcontrol').fault _ _
    · rw [Writer.reserve_of_flush_stop hopen hrange hstop]
      exact Writer.faultFollowsCode_raise hcontrol.fault _ _

theorem Writer.patch_faultFollowsCode (payload : List Byte) (w : Writer) :
    Writer.faultFollowsCode w (Writer.patch payload w) := by
  unfold Writer.patch
  dsimp only
  split_ifs
  · exact Writer.faultFollowsCode_raise rfl _ _
  · exact Writer.faultFollowsCode_raise rfl _ _
  · exact Writer.faultFollowsCode_raise rfl _ _
  · rcases nextAnswer_cases w.sink.plan with hobey | hfail
    · rw [Writer.sinkWriteAt_obey hobey]
      exact Writer.faultFollowsCode_finish_ok rfl _
    · rw [Writer.sinkWriteAt_fail hfail]
      exact Writer.faultFollowsCode_raise rfl _ _

theorem writerRule_faultFollowsCode {i : Instr} (he : Instr.engine i = .writer) (hb : isBind i = false) (w : Writer) :
    Writer.faultFollowsCode w (writerRule i w) := by
  cases i
  case wBind => cases hb
  case wWrite | wWriteU8 | wWriteI8 | wWriteU16 | wWriteI16 | wWriteU32 | wWriteI32 | wWriteU64 | wWriteI64 =>
    exact Writer.write_faultFollowsCode _ w
  case wFlush => exact Writer.flushCommand_faultFollowsCode w
  case wClose => exact Writer.close_faultFollowsCode w
  case wReserve => exact Writer.reserve_faultFollowsCode w
  case wPatchBlock | wPatchU8 | wPatchU16 | wPatchU32 | wPatchU64 => exact Writer.patch_faultFollowsCode _ w
  case wChecksum | wResetChecksum | wBytesWritten => exact Writer.faultFollowsCode_finish_ok rfl _
  all_goals cases he

/-- A bind clears the fault, and neither code it finishes with sets it (41_writer.md R122; 60_exceptions.md R230). -/
theorem Writer.bind_fault (compat : Bool) (w : Writer) :
    (Writer.bind compat w).fault = false ∧ Code.setsFault (Writer.bind compat w).regs.code = false := by
  cases hkey : keyValid w.regs.arg0 with
  | true => rw [Writer.bind_of_valid hkey]; exact ⟨rfl, rfl⟩
  | false => rw [Writer.bind_of_rejected hkey]; exact ⟨rfl, rfl⟩

/-! ### The fault bit follows the code: the reader's rules (60_exceptions.md R230) -/

/-- The reader `r'` is left by a command begun at `r` that is no bind: its fault bit is set by the code it finished
with, or stands as it was. -/
def Reader.faultFollowsCode (r r' : Reader) : Prop := r'.fault = (Code.setsFault r'.regs.code || r.fault)

theorem Reader.faultFollowsCode_raise {r r' : Reader} (h : r'.fault = r.fault) (c : Code) (v : Word64)
    (dout : List Byte) : Reader.faultFollowsCode r (Reader.raise c v dout r') := by
  simp [Reader.faultFollowsCode, h]

theorem Reader.faultFollowsCode_finish_ok {r r' : Reader} (h : r'.fault = r.fault) (v : Word64) (dout : List Byte) :
    Reader.faultFollowsCode r (Reader.finish .ok v dout r') := Reader.faultFollowsCode_raise h .ok v dout

theorem Reader.sameControl.fault {r r' : Reader} (h : Reader.sameControl r r') : r'.fault = r.fault := by
  obtain ⟨-, -, -, -, hfault, -⟩ := h
  exact hfault

theorem Reader.read_faultFollowsCode (n : Nat) (r : Reader) : Reader.faultFollowsCode r (Reader.read n r) := by
  obtain ⟨out, r', hcontrol, -, hgo | ⟨c, hstop, -⟩⟩ := Reader.readLoop_frame n n [] r
  · rw [Reader.read_of_go hgo]
    exact Reader.faultFollowsCode_finish_ok hcontrol.fault _ _
  · rw [Reader.read_of_stop hstop]
    exact Reader.faultFollowsCode_raise hcontrol.fault _ _ _

theorem Reader.readValue_faultFollowsCode (k : Width) (signed : Bool) (r : Reader) :
    Reader.faultFollowsCode r (Reader.readValue k signed r) := by
  obtain ⟨out, r', hcontrol, -, hgo | ⟨c, hstop, -⟩⟩ := Reader.readLoop_frame (Width.bytes k) (Width.bytes k) [] r
  · rw [Reader.readValue, hgo]
    exact Reader.faultFollowsCode_finish_ok hcontrol.fault _ _
  · rw [Reader.readValue, hstop]
    exact Reader.faultFollowsCode_raise (r' := { r' with draw := r'.draw.next }) hcontrol.fault _ _ _

/-- A fetch over any source goes through or raises a code, and touches the data path only (42_reader.md R171). -/
theorem Reader.fetch_frame (r : Reader) :
    ∃ r', Reader.sameControl r r' ∧ (Reader.fetch r = .go r' ∨ ∃ c, Reader.fetch r = .stop c r') := by
  rcases Reader.fetch_cases r with ⟨-, -, hgo⟩ | ⟨c, r', hstop, hcontrol, -⟩
  · exact ⟨_, Reader.loaded_sameControl r, .inl hgo⟩
  · exact ⟨r', hcontrol, .inr ⟨c, hstop⟩⟩

theorem Reader.alignBody_frame (r : Reader) :
    ∃ r', Reader.sameControl r r' ∧ (Reader.alignBody r = .go r' ∨ ∃ c, Reader.alignBody r = .stop c r') := by
  unfold Reader.alignBody
  split_ifs with hpartial
  · obtain ⟨r', hcontrol, hfetch⟩ := Reader.fetch_frame { r with cur := -1 }
    exact ⟨r', (Reader.sameControl_setCur r (-1)).trans hcontrol, hfetch⟩
  · exact ⟨r, .refl r, .inl rfl⟩

theorem Reader.align_faultFollowsCode (r : Reader) : Reader.faultFollowsCode r (Reader.align r) := by
  obtain ⟨r', hcontrol, hgo | ⟨c, hstop⟩⟩ := Reader.alignBody_frame r
  · rw [Reader.align_of_go hgo]
    exact Reader.faultFollowsCode_finish_ok hcontrol.fault _ _
  · rw [Reader.align_of_stop hstop]
    exact Reader.faultFollowsCode_raise hcontrol.fault _ _ _

theorem Reader.readAligned_faultFollowsCode (r : Reader) : Reader.faultFollowsCode r (Reader.readAligned r) := by
  obtain ⟨r', hcontrol, hgo | ⟨c, hstop⟩⟩ := Reader.alignBody_frame r
  · obtain ⟨out, r'', hcontrol', -, hread | ⟨c, hread, -⟩⟩ := Reader.readLoop_frame bs bs [] r'
    · rw [Reader.readAligned_of_go hgo hread]
      exact Reader.faultFollowsCode_finish_ok (hcontrol.trans hcontrol').fault _ _
    · rw [Reader.readAligned_of_read_stop hgo hread]
      exact Reader.faultFollowsCode_raise (hcontrol.trans hcontrol').fault _ _ _
  · rw [Reader.readAligned_of_align_stop hstop]
    exact Reader.faultFollowsCode_raise hcontrol.fault _ _ _

theorem Reader.realign_faultFollowsCode (target : Nat) (r : Reader) :
    Reader.faultFollowsCode r (Reader.realign target r) := by
  unfold Reader.realign
  dsimp only
  split_ifs with hboundary
  · exact Reader.faultFollowsCode_finish_ok rfl _ _
  · obtain ⟨back, r', hseek, hcontrol, -⟩ :=
      Reader.srcSeek_cases { r with cur := -1 } ((target : Int) - (target % bs : Nat)) .start
    rw [hseek]
    cases back with
    | none => exact Reader.faultFollowsCode_raise hcontrol.fault _ _ _
    | some pos =>
      obtain ⟨r'', hcontrol', hgo | ⟨c, hstop⟩⟩ := Reader.fetch_frame r'
      · simp only [hgo]
        exact Reader.faultFollowsCode_finish_ok (hcontrol'.fault.trans hcontrol.fault) _ _
      · simp only [hstop]
        have hat := Reader.atBoundary_sameControl (target - target % bs) c r''
        exact Reader.faultFollowsCode_raise (hat.fault.trans (hcontrol'.fault.trans hcontrol.fault)) _ _ _

theorem Reader.seekTo_faultFollowsCode (wh : Origin) (r : Reader) :
    Reader.faultFollowsCode r (Reader.seekTo wh r) := by
  by_cases hcap : r.seek = false
  · rw [Reader.seekTo_unsupported hcap]
    exact Reader.faultFollowsCode_raise rfl .unsupported _ _
  · rw [Reader.seekTo, if_neg hcap]
    split
    · exact Reader.faultFollowsCode_raise rfl _ _ _
    · obtain ⟨target, r', hseek, hcontrol, -⟩ := Reader.srcSeek_cases r
        (if wh = .current then offsetOperand r.regs.arg0 - Reader.buffered r else offsetOperand r.regs.arg0) wh
      rw [hseek]
      cases target with
      | none => exact Reader.faultFollowsCode_raise hcontrol.fault _ _ _
      | some target =>
        exact (Reader.realign_faultFollowsCode target r').trans (by rw [hcontrol.fault])

theorem readerRule_faultFollowsCode {i : Instr} (he : Instr.engine i = .reader) (hb : isBind i = false) (r : Reader) :
    Reader.faultFollowsCode r (readerRule i r) := by
  cases i
  case rBind => cases hb
  case rRead => exact Reader.read_faultFollowsCode _ r
  case rReadU8 | rReadI8 | rReadU16 | rReadI16 | rReadU32 | rReadI32 | rReadU64 | rReadI64 =>
    exact Reader.readValue_faultFollowsCode _ _ r
  case rBuffered => exact Reader.faultFollowsCode_finish_ok rfl _ _
  case rAlign => exact Reader.align_faultFollowsCode r
  case rReadAligned => exact Reader.readAligned_faultFollowsCode r
  case rSeekSet | rSeekCur | rSeekEnd => exact Reader.seekTo_faultFollowsCode _ r
  all_goals cases he

/-- A bind clears the fault, and neither code it finishes with sets it (42_reader.md R173; 60_exceptions.md R230). -/
theorem Reader.bind_fault (r : Reader) :
    (Reader.bind r).fault = false ∧ Code.setsFault (Reader.bind r).regs.code = false := by
  cases hkey : keyValid r.regs.arg0 with
  | true => rw [Reader.bind_of_valid hkey]; exact ⟨rfl, rfl⟩
  | false => rw [Reader.bind_of_rejected hkey]; exact ⟨rfl, rfl⟩

/-! ### The fault bit over every command (60_exceptions.md R229, R230) -/

/-- A writer command replaces its writer alone, whose fault bit is set by the code, or stood before and no bind cleared
it. A command that is not admitted ends with a code too, so it is no exception. -/
theorem exec_writer_fault {i : Instr} {s t : State} {n : Instance} (he : Instr.engine i = .writer)
    (hcur : State.cur? s = some n) (h : exec i s = .next t) :
    ∃ w', t = State.setW s n w' ∧ w'.fault = (Code.setsFault w'.regs.code || (n.w.fault && !isBind i)) := by
  rcases exec_cases i with ⟨c, rfl, hexec⟩ | ⟨-, hbind, hexec⟩ | ⟨rfl, -⟩ | ⟨he', -⟩
  · obtain ⟨m, hm, -, rfl⟩ := bindWriter_next ((hexec s).symm.trans h)
    obtain rfl : n = m := Option.some.inj (hcur.symm.trans hm)
    obtain ⟨hfault, hcode⟩ := Writer.bind_fault c n.w
    exact ⟨_, rfl, by simp [hfault, hcode, isBind]⟩
  · obtain ⟨m, hm, hnext⟩ := runWriter_next ((hexec s).symm.trans h)
    obtain rfl : n = m := Option.some.inj (hcur.symm.trans hm)
    simp only [hbind, Bool.not_false, Bool.and_true]
    rcases hnext with ⟨-, rfl⟩ | ⟨-, -, rfl⟩ | ⟨-, rfl⟩
    · exact ⟨_, rfl, Writer.faultFollowsCode_raise rfl _ _⟩
    · exact ⟨_, rfl, Writer.faultFollowsCode_raise rfl _ _⟩
    · exact ⟨_, rfl, writerRule_faultFollowsCode he hbind n.w⟩
  · cases he
  · rw [he] at he'; cases he'

/-- A reader command replaces its reader alone, whose fault bit is set by the code, or stood before and no bind cleared
it. -/
theorem exec_reader_fault {i : Instr} {s t : State} {n : Instance} (he : Instr.engine i = .reader)
    (hcur : State.cur? s = some n) (h : exec i s = .next t) :
    ∃ r', t = State.setR s n r' ∧ r'.fault = (Code.setsFault r'.regs.code || (n.r.fault && !isBind i)) := by
  rcases exec_cases i with ⟨c, rfl, -⟩ | ⟨he', -⟩ | ⟨rfl, hexec⟩ | ⟨-, hbind, -, hexec⟩
  · cases he
  · rw [he] at he'; cases he'
  · obtain ⟨m, hm, -, rfl⟩ := bindReader_next ((hexec s).symm.trans h)
    obtain rfl : n = m := Option.some.inj (hcur.symm.trans hm)
    obtain ⟨hfault, hcode⟩ := Reader.bind_fault n.r
    exact ⟨_, rfl, by simp [hfault, hcode, isBind]⟩
  · obtain ⟨m, hm, hnext⟩ := runReader_next ((hexec s).symm.trans h)
    obtain rfl : n = m := Option.some.inj (hcur.symm.trans hm)
    simp only [hbind, Bool.not_false, Bool.and_true]
    rcases hnext with ⟨-, rfl⟩ | ⟨-, -, rfl⟩ | ⟨-, rfl⟩
    · exact ⟨_, rfl, Reader.faultFollowsCode_raise rfl _ _ _⟩
    · exact ⟨_, rfl, Reader.faultFollowsCode_raise rfl _ _ _⟩
    · exact ⟨_, rfl, readerRule_faultFollowsCode he hbind n.r⟩

/-- The equation of the fault bit in the words of R230. -/
theorem fault_iff {fault before bind : Bool} {c : Code} (h : fault = (Code.setsFault c || (before && !bind))) :
    fault = true ↔ (c = .ioError ∨ c = .shortRead ∨ c = .undefined) ∨ (before = true ∧ bind = false) := by
  rw [h, Bool.or_eq_true, Code.setsFault_iff, Bool.and_eq_true, Bool.not_eq_true']

/-! ### The fault bit over every other host action (60_exceptions.md R230; 70_reset_and_hazards.md R250) -/

/-- The two engines of `n'` have the fault bits of those of `n`. -/
def Instance.sameFaults (n n' : Instance) : Prop := n'.w.fault = n.w.fault ∧ n'.r.fault = n.r.fault

/-- Both engines at every place of the machine keep their fault bits. -/
def State.sameFaults (s t : State) : Prop :=
  ∀ (k : Nat) (n n' : Instance), s.insts[k]? = some n → t.insts[k]? = some n' → Instance.sameFaults n n'

theorem State.sameFaults_of_insts_eq {s t : State} (h : t.insts = s.insts) : State.sameFaults s t := by
  intro k n n' hn hn'
  rw [h, hn] at hn'
  cases hn'
  exact ⟨rfl, rfl⟩

theorem State.sameFaults_of_insts_set {s t : State} {k : Nat} {n m : Instance} (hn : s.insts[k]? = some n)
    (hm : Instance.sameFaults n m) (h : t.insts = s.insts.set k m) : State.sameFaults s t := by
  intro j p p' hp hp'
  rw [h, List.getElem?_set] at hp'
  split_ifs at hp' with hk hlt
  · obtain rfl : m = p' := Option.some.inj hp'
    obtain rfl : n = p := Option.some.inj (hn.symm.trans (hk ▸ hp))
    exact hm
  · obtain rfl : p = p' := Option.some.inj (hp.symm.trans hp')
    exact ⟨rfl, rfl⟩

theorem Instance.onRegs_sameFaults (n : Instance) (e : Engine) (f : HostRegs → HostRegs) :
    Instance.sameFaults n (Instance.onRegs n e f) := by
  cases e <;> exact ⟨rfl, rfl⟩

theorem Instance.reportIllegal_sameFaults (n : Instance) (written e : Engine) (f : HostRegs → HostRegs) :
    Instance.sameFaults n (Instance.reportIllegal (Instance.onRegs n written f) e) := by
  rw [Instance.reportIllegal_eq_onRegs]
  obtain ⟨hw, hr⟩ := Instance.onRegs_sameFaults n written f
  obtain ⟨hw', hr'⟩ := Instance.onRegs_sameFaults (Instance.onRegs n written f) e
    fun g => { g with code := .illegal, result := 0, dout := [] }
  exact ⟨hw'.trans hw, hr'.trans hr⟩

theorem Instance.attachSink_sameFaults (n : Instance) (sink : Sink) :
    Instance.sameFaults n (Instance.attachSink n sink) := ⟨rfl, rfl⟩

theorem Instance.attachSource_sameFaults (n : Instance) (source : Source) :
    Instance.sameFaults n (Instance.attachSource n source) := ⟨rfl, rfl⟩

theorem State.onInstance_sameFaults {s t : State} {k : Nat} {f : Instance → Instance}
    (hf : ∀ n, Instance.sameFaults n (f n)) (h : State.onInstance s k f = .next t) : State.sameFaults s t := by
  unfold State.onInstance at h
  cases hn : s.insts[k]? with
  | none => simp [hn] at h
  | some n =>
    simp only [hn, Host.Outcome.next.injEq] at h
    exact State.sameFaults_of_insts_set hn (hf n) (by rw [← h])

/-- A command word that starts no command is ILLEGAL, and keeps the fault bits (60_exceptions.md R227). -/
theorem takeCommand_sameFaults {s t : State} {k : Nat} {written : Engine} {word : Word32} {din : List Byte}
    (h : takeCommand k written word din s = .done (.next t)) : State.sameFaults s t := by
  cases hn : s.insts[k]? with
  | none => simp [takeCommand, hn] at h
  | some n =>
    cases hword : decode word with
    | some i => simp [takeCommand, hn, hword] at h
    | none =>
      rw [takeCommand_of_illegal hn hword] at h
      simp only [Fetched.done.injEq, Host.Outcome.next.injEq] at h
      exact State.sameFaults_of_insts_set hn (Instance.reportIllegal_sameFaults n _ _ _) (by rw [← h])

/-- A host action that starts no command, other than a reset, keeps every fault bit. -/
theorem takeHostOp_sameFaults {op : HostOp} {s t : State} (hop : op ≠ .reset)
    (h : takeHostOp op s = .done (.next t)) : State.sameFaults s t := by
  cases op with
  | command k e word din => exact takeCommand_sameFaults h
  | resume k e word din =>
    cases hn : s.insts[k]? with
    | none => simp [takeHostOp, hn] at h
    | some n =>
      simp only [takeHostOp, hn] at h
      split_ifs at h
      · exact takeCommand_sameFaults h
      · cases h
        exact State.sameFaults_of_insts_eq rfl
  | write k e reg value =>
    simp only [takeHostOp] at h
    split_ifs at h
    · exact takeCommand_sameFaults h
    · exact State.onInstance_sameFaults (fun n => Instance.onRegs_sameFaults n e _) (Fetched.done.inj h)
  | read k e reg =>
    cases hn : s.insts[k]? with
    | none => simp [takeHostOp, hn] at h
    | some n =>
      simp only [takeHostOp, hn] at h
      cases h
      exact State.sameFaults_of_insts_eq rfl
  | reset => exact absurd rfl hop
  | attachSink k sink =>
    exact State.onInstance_sameFaults (Instance.attachSink_sameFaults · sink) (Fetched.done.inj h)
  | attachSource k source =>
    exact State.onInstance_sameFaults (Instance.attachSource_sameFaults · source) (Fetched.done.inj h)

theorem fetchHost_sameFaults {s t : State} (hhead : s.host.head? ≠ some .reset)
    (h : fetchHost s = .done (.next t)) : State.sameFaults s t := by
  unfold fetchHost at h
  cases hhost : s.host with
  | nil =>
    simp only [hhost] at h
    cases h
    exact State.sameFaults_of_insts_eq rfl
  | cons op rest =>
    simp only [hhost] at h
    exact takeHostOp_sameFaults (s := { s with host := rest }) (fun hop => hhead (by rw [hhost, hop]; rfl)) h

/-- A hardware reset leaves no fault bit set (70_reset_and_hazards.md R250). -/
theorem step_reset_fault {s t : State} {rest : List HostOp} (hhost : s.host = .reset :: rest)
    (h : step s = .next t) : ∀ n ∈ t.insts, n.w.fault = false ∧ n.r.fault = false := by
  simp only [step, fetchHost, hhost, takeHostOp, Host.Outcome.next.injEq] at h
  subst h
  intro n hn
  obtain ⟨m, -, rfl⟩ := List.mem_map.1 hn
  exact ⟨rfl, rfl⟩

/-- Settles O22: the two engines' commands, the reset, and the host actions that are neither. -/
theorem faultBitFollowsTheCode : Obligations.FaultBitFollowsTheCode := by
  refine ⟨fun i s t n n' hcur hexec hcur' => ⟨fun he => ?_, fun he => ?_⟩,
    fun s t rest => step_reset_fault, fun s t => fetchHost_sameFaults⟩
  · obtain ⟨w', rfl, hfault⟩ := exec_writer_fault he hcur hexec
    obtain rfl : { n with w := w' } = n' := Option.some.inj ((cur?_setW hcur n w').symm.trans hcur')
    exact ⟨rfl, fault_iff hfault⟩
  · obtain ⟨r', rfl, hfault⟩ := exec_reader_fault he hcur hexec
    obtain rfl : { n with r := r' } = n' := Option.some.inj ((cur?_setR hcur n r').symm.trans hcur')
    exact ⟨rfl, fault_iff hfault⟩

end Sys2Proof.Machine
end

section
/-! The encoding (30_encoding.md): what every row of the opcode map says of the words it matches, and the settled
statements about `decode` and `encode`. -/

namespace Sys2Proof

/-! ### The rows of the map exclude each other (30_encoding.md R90) -/

/-- Some bit that both rows fix has another value in each. -/
def OpRow.excludes (r r' : OpRow) : Prop := r.mask &&& r'.mask &&& (r.pat ^^^ r'.pat) ≠ 0#32

theorem OpRow.not_both_match {r r' : OpRow} (h : OpRow.excludes r r') (w : Word32) :
    ¬ (OpRow.matchesWord r w = true ∧ OpRow.matchesWord r' w = true) := by
  rintro ⟨hr, hr'⟩
  simp only [OpRow.matchesWord, beq_iff_eq] at hr hr'
  refine h (BitVec.eq_of_getLsbD_eq fun i _ => ?_)
  rw [← hr, ← hr']
  simp only [BitVec.getLsbD_and, BitVec.getLsbD_xor, BitVec.getLsbD_zero]
  cases w.getLsbD i <;> cases r.mask.getLsbD i <;> simp

theorem opRows_exclusive : opRows.Pairwise OpRow.excludes := by
  unfold OpRow.excludes
  decide

/-- Of rows that exclude each other a word matches at most one. -/
theorem OpRow.filter_matchesWord_length_le_one {rows : List OpRow} (h : rows.Pairwise OpRow.excludes) (w : Word32) :
    (rows.filter fun r => OpRow.matchesWord r w).length ≤ 1 := by
  have hmatch : ∀ r ∈ rows.filter fun r => OpRow.matchesWord r w, OpRow.matchesWord r w = true :=
    fun r hr => (List.mem_filter.1 hr).2
  have hpair := h.filter fun r => OpRow.matchesWord r w
  match hrows : rows.filter fun r => OpRow.matchesWord r w with
  | [] => exact Nat.zero_le 1
  | [_] => exact le_rfl
  | r :: r' :: rest =>
    rw [hrows] at hmatch hpair
    exact absurd ⟨hmatch r (by simp), hmatch r' (by simp)⟩
      (OpRow.not_both_match ((List.pairwise_cons.1 hpair).1 r' (by simp)) w)

/-! ### Words and their fields (30_encoding.md R80) -/

theorem toNat_append_eq_add {m k : Nat} (x : BitVec m) (y : BitVec k) :
    (x ++ y).toNat = x.toNat * 2 ^ k + y.toNat := by
  rw [BitVec.toNat_append, ← Nat.shiftLeft_add_eq_or_of_lt y.isLt, Nat.shiftLeft_eq]

/-- A command word is the sum of its fields, each at its place. -/
theorem commandWord_toNat (len : BitVec 16) (c : Bool) (wh : BitVec 2) (s : Bool) (wc unit : BitVec 2)
    (op : BitVec 6) : (commandWord len c wh s wc unit op).toNat =
      len.toNat * 65536 + c.toNat * 8192 + wh.toNat * 2048 + s.toNat * 1024 + wc.toNat * 256 + unit.toNat * 64 +
        op.toNat := by
  simp only [commandWord, BitVec.toNat_setWidth, toNat_append_eq_add, BitVec.toNat_ofBool, BitVec.toNat_ofNat]
  have := len.isLt
  have := wh.isLt
  have := wc.isLt
  have := unit.isLt
  have := op.isLt
  have := c.toNat_lt
  have := s.toNat_lt
  omega

theorem encode_wWrite (n : Nat) : encode (.wWrite n) = BitVec.ofNat 32 (65536 * n + 1) := by
  apply BitVec.eq_of_toNat_eq
  simp only [encode, commandWord_toNat, BitVec.toNat_ofNat, Bool.toNat_false]
  omega

theorem encode_rRead (n : Nat) : encode (.rRead n) = BitVec.ofNat 32 (65536 * n + 0x41) := by
  apply BitVec.eq_of_toNat_eq
  simp only [encode, commandWord_toNat, BitVec.toNat_ofNat, Bool.toNat_false]
  omega

theorem lenField_lt (w : Word32) : lenField w < 65536 := (w.extractLsb' 16 16).isLt

/-- A word is its field `LEN` above its low half. -/
theorem eq_lenWord_of_lowHalf {w : Word32} {low : Nat}
    (h : w &&& 0x0000FFFF#32 = BitVec.ofNat 32 low) : w = BitVec.ofNat 32 (65536 * lenField w + low) := by
  have hmod := congrArg BitVec.toNat h
  rw [BitVec.toNat_and, show (0x0000FFFF#32).toNat = 2 ^ 16 - 1 from rfl, Nat.and_two_pow_sub_one_eq_mod] at hmod
  simp only [BitVec.toNat_ofNat] at hmod
  apply BitVec.eq_of_toNat_eq
  have := w.isLt
  simp only [lenField, BitVec.extractLsb'_toNat, BitVec.toNat_ofNat, Nat.shiftRight_eq_div_pow]
  omega

/-! ### Every row is sound: the words it matches are the encodings of the commands it builds -/

/-- The row decodes a word to the command whose encoding the word is, and a well-formed one (30_encoding.md R81, R90). -/
def OpRow.sound (r : OpRow) : Prop :=
  ∀ w, OpRow.matchesWord r w = true → encode (r.build w) = w ∧ Instr.wellFormed (r.build w) = true

theorem fixedRow_matchesWord {pat w : Word32} {i : Instr} :
    OpRow.matchesWord (fixedRow pat i) w = true ↔ w = pat := by
  rw [OpRow.matchesWord, beq_iff_eq, show (fixedRow pat i).mask = BitVec.allOnes 32 from rfl, BitVec.and_allOnes]
  rfl

theorem fixedRow_sound {pat : Word32} {i : Instr} (h : encode i = pat ∧ Instr.wellFormed i = true) :
    OpRow.sound (fixedRow pat i) := by
  intro w hw
  rw [fixedRow_matchesWord.1 hw]
  exact h

/-- Outside bit 13 the row of `W.BIND` fixes every bit. -/
theorem wBindRow_sound : OpRow.sound ⟨0x00000000#32, 0xFFFFDFFF#32, fun w => .wBind (compatField w)⟩ := by
  intro w hw
  simp only [OpRow.matchesWord, beq_iff_eq] at hw
  have hbit : w = if compatField w then 0x00002000#32 else 0#32 := by
    calc w = w &&& (0xFFFFDFFF#32 ||| BitVec.twoPow 32 13) := by
          rw [show (0xFFFFDFFF#32 ||| BitVec.twoPow 32 13) = BitVec.allOnes 32 by decide, BitVec.and_allOnes]
      _ = w &&& BitVec.twoPow 32 13 := by rw [BitVec.and_or_distrib_left, hw, BitVec.zero_or]
      _ = if compatField w then 0x00002000#32 else 0#32 := BitVec.and_twoPow w 13
  refine ⟨?_, rfl⟩
  show encode (.wBind (compatField w)) = w
  cases hc : compatField w <;> rw [hc] at hbit <;> rw [hbit] <;> decide

theorem wWriteRow_sound : OpRow.sound ⟨0x00000001#32, 0x0000FFFF#32, fun w => .wWrite (lenField w)⟩ := by
  intro w hw
  simp only [OpRow.matchesWord, beq_iff_eq] at hw
  exact ⟨(encode_wWrite _).trans (eq_lenWord_of_lowHalf hw).symm,
    decide_eq_true (lenField_lt w)⟩

theorem rReadRow_sound : OpRow.sound ⟨0x00000041#32, 0x0000FFFF#32, fun w => .rRead (lenField w)⟩ := by
  intro w hw
  simp only [OpRow.matchesWord, beq_iff_eq] at hw
  exact ⟨(encode_rRead _).trans (eq_lenWord_of_lowHalf hw).symm,
    decide_eq_true (lenField_lt w)⟩

theorem writerRows_sound : ∀ r ∈ writerRows, OpRow.sound r := by
  simp only [writerRows, List.forall_mem_cons, List.not_mem_nil, false_implies, implies_true, and_true]
  refine ⟨wBindRow_sound, wWriteRow_sound, ?_⟩
  and_intros
  all_goals exact fixedRow_sound (by decide)

theorem readerRows_sound : ∀ r ∈ readerRows, OpRow.sound r := by
  simp only [readerRows, List.forall_mem_cons, List.not_mem_nil, false_implies, implies_true, and_true]
  refine ⟨fixedRow_sound (by decide), rReadRow_sound, ?_⟩
  and_intros
  all_goals exact fixedRow_sound (by decide)

theorem opRows_sound : ∀ r ∈ opRows, OpRow.sound r :=
  List.forall_mem_append.2 ⟨writerRows_sound, readerRows_sound⟩

/-- A word that decodes matches a row that builds its command. -/
theorem exists_row_of_decode {w : Word32} {i : Instr} (h : decode w = some i) :
    ∃ r ∈ opRows, OpRow.matchesWord r w = true ∧ r.build w = i := by
  obtain ⟨r, hfind, hbuild⟩ := Option.map_eq_some_iff.1 h
  exact ⟨r, List.mem_of_find?_eq_some hfind, List.find?_some (p := fun r => OpRow.matchesWord r w) hfind, hbuild⟩

/-! ### The reserved bits (30_encoding.md R81, R89) -/

/-- Every row keeps the upper bit of `UNIT` and the two bits of `RSV`, and has them 0. -/
theorem opRows_reserved : ∀ r ∈ opRows, ∀ i ∈ [7, 14, 15], r.mask.getLsbD i = true ∧ r.pat.getLsbD i = false := by
  decide

theorem decode_eq_none_of_reserved {w : Word32} {i : Nat} (hi : i ∈ [7, 14, 15]) (h : w.getLsbD i = true) :
    decode w = none := by
  rw [decode, Option.map_eq_none_iff, List.find?_eq_none]
  intro r hr
  obtain ⟨hmask, hpat⟩ := opRows_reserved r hr i hi
  simp [Machine.OpRow.matchesWord_eq_false_of_bit hmask (show w.getLsbD i ≠ r.pat.getLsbD i by rw [h, hpat]; decide)]

/-! ### The settled statements -/

/-- Settles O1: the three commands with a free field by their words, every other by its one word. -/
theorem decodeOfEncodeIsTheCommand : Obligations.DecodeOfEncodeIsTheCommand := by
  intro i hwf
  cases i
  case wBind c => cases c <;> decide
  case wWrite n =>
    have hn : n < 65536 := of_decide_eq_true hwf
    rw [encode_wWrite, Machine.decode_wWrite_word hn]
  case rRead n =>
    have hn : n < 65536 := of_decide_eq_true hwf
    rw [encode_rRead, Machine.decode_rRead_word hn]
  all_goals decide

/-- Settles O2: every row of the map is sound. -/
theorem decodedWordIsTheEncoding : Obligations.DecodedWordIsTheEncoding := by
  intro w i h
  obtain ⟨r, hr, hmatch, rfl⟩ := exists_row_of_decode h
  exact opRows_sound r hr w hmatch

/-- Settles O3: any two rows of the map exclude each other. -/
theorem noWordMatchesTwoRows : Obligations.NoWordMatchesTwoRows :=
  OpRow.filter_matchesWord_length_le_one opRows_exclusive

/-- Settles O5: a set reserved bit keeps the word from every row. -/
theorem reservedFieldsAreIllegal : Obligations.ReservedFieldsAreIllegal := by
  rintro w (h | h | h)
  · exact decode_eq_none_of_reserved (i := 7) (by decide) h
  · exact decode_eq_none_of_reserved (i := 14) (by decide) h
  · exact decode_eq_none_of_reserved (i := 15) (by decide) h

/-- Settles O4: the words with a free upper half, and the two of `W.BIND`. -/
theorem freeFieldsAreRead : Obligations.FreeFieldsAreRead :=
  ⟨fun _ hn => ⟨Machine.decode_wWrite_word hn, Machine.decode_rRead_word hn⟩, by decide, by decide⟩

/-- Settles O6: each word of the table, run through the decoder. -/
theorem sampleWordsDecode : Obligations.SampleWordsDecode := by
  unfold Obligations.SampleWordsDecode
  decide

end Sys2Proof
end

section
/-! Every command, whatever it does (60_exceptions.md R229 to R231): how the rule of a command ends and what it leaves
alone, and the settled statements about admission and about what a command touches. -/

namespace Sys2Proof.Machine

open Sys2Proof.Config

/-! ### How a writer's rule ends (41_writer.md) -/

/-- The elements of the writer that no rule but a bind or a close changes, and the canonical form of the sink's bytes. -/
def Writer.sameBinding (w w' : Writer) : Prop :=
  w'.regs = w.regs ∧ w'.bound = w.bound ∧ w'.key = w.key ∧ w'.ra = w.ra ∧ w'.compat = w.compat ∧
  w'.fault = w.fault ∧ w'.sink.ra = w.sink.ra ∧ (Memory.wf w.sink.mem = true → Memory.wf w'.sink.mem = true)

/-- `w'` is what a command begun at `w` leaves: the data path moved on, then one of the codes of a rule raised. -/
def Writer.endsFrom (w w' : Writer) (closes : Bool) : Prop :=
  ∃ c v w1, w' = Writer.raise c v w1 ∧ Writer.sameBinding w w1 ∧
    c ∈ [Code.ok, .ioError, .undefined, .unsupported] ∧
    w1.closed = (w.closed || (closes && decide (c = .ok)))

theorem Writer.sameBinding.refl (w : Writer) : Writer.sameBinding w w :=
  ⟨rfl, rfl, rfl, rfl, rfl, rfl, rfl, id⟩

theorem Writer.sameBinding.trans {w w' w'' : Writer} (h : Writer.sameBinding w w') (h' : Writer.sameBinding w' w'') :
    Writer.sameBinding w w'' := by
  obtain ⟨a1, a2, a3, a4, a5, a6, a7, a8⟩ := h
  obtain ⟨b1, b2, b3, b4, b5, b6, b7, b8⟩ := h'
  exact ⟨b1.trans a1, b2.trans a2, b3.trans a3, b4.trans a4, b5.trans a5, b6.trans a6, b7.trans a7, b8 ∘ a8⟩

theorem Writer.sameControl.sameBinding {w w' : Writer} (h : Writer.sameControl w w')
    (hwf : Memory.wf w.sink.mem = true → Memory.wf w'.sink.mem = true) : Writer.sameBinding w w' := by
  obtain ⟨hregs, hbound, hkey, hra, hcompat, -, hfault, -, hsinkRa⟩ := h
  exact ⟨hregs, hbound, hkey, hra, hcompat, hfault, hsinkRa, hwf⟩

theorem Writer.sameControl.closed {w w' : Writer} (h : Writer.sameControl w w') : w'.closed = w.closed := by
  obtain ⟨-, -, -, -, -, hclosed, -⟩ := h
  exact hclosed

/-- Finishing OK is raising the code that sets no fault. -/
theorem Writer.raise_ok (v : Word64) (w : Writer) : Writer.raise .ok v w = Writer.finish .ok v w :=
  Writer.raise_of_not_setsFault rfl v w

/-- What `Writer.sinkWrite_fail` leaves of the writer. -/
theorem Writer.sinkWrite_fail_sameBinding {w : Writer} (h : nextAnswer w.sink.plan = .fail) (s : List Byte) :
    ∃ w', Writer.sinkWrite w s = .stop .ioError w' ∧ Writer.sameBinding w w' ∧ w'.closed = w.closed :=
  ⟨_, Writer.sinkWrite_fail h s, ⟨rfl, rfl, rfl, rfl, rfl, rfl, rfl, fun _ => Memory.wf_ofCells _⟩, rfl⟩

/-- What `Writer.sinkWriteAt_fail` leaves of the writer. -/
theorem Writer.sinkWriteAt_fail_sameBinding {w : Writer} (h : nextAnswer w.sink.plan = .fail) (off : Nat)
    (s : List Byte) :
    ∃ w', Writer.sinkWriteAt w off s = .stop .ioError w' ∧ Writer.sameBinding w w' ∧ w'.closed = w.closed :=
  ⟨_, Writer.sinkWriteAt_fail h off s, ⟨rfl, rfl, rfl, rfl, rfl, rfl, rfl, Memory.wf_scramble _ _ _⟩, rfl⟩

theorem Writer.endsFrom_raise {w w1 : Writer} {c : Code} (v : Word64) (h : Writer.sameBinding w w1)
    (hc : c ∈ [Code.ok, .ioError, .undefined, .unsupported]) (hclosed : w1.closed = w.closed) {closes : Bool}
    (hcode : closes = true → c ≠ .ok) : Writer.endsFrom w (Writer.raise c v w1) closes := by
  refine ⟨c, v, w1, rfl, h, hc, ?_⟩
  cases closes with
  | false => simp [hclosed]
  | true => simp [hclosed, hcode rfl]

theorem Writer.endsFrom_ok {w w1 : Writer} (v : Word64) (h : Writer.sameBinding w w1)
    (hclosed : w1.closed = w.closed) : Writer.endsFrom w (Writer.finish .ok v w1) false := by
  rw [← Writer.raise_ok]
  exact Writer.endsFrom_raise v h (by decide) hclosed (by decide)

/-- A flush from any fill cursor goes through, or is out of range, or meets a failing sink (41_writer.md R133). -/
theorem Writer.flush_ends (w : Writer) :
    ∃ w', Writer.sameControl w w' ∧ (Memory.wf w.sink.mem = true → Memory.wf w'.sink.mem = true) ∧
      (Writer.flush w = .go w' ∨ ∃ c, (c = .undefined ∨ c = .ioError) ∧ Writer.flush w = .stop c w') := by
  rcases Nat.eq_zero_or_pos w.fill with hempty | hpending
  · exact ⟨w, .refl w, id, .inl (if_pos hempty)⟩
  by_cases hrange : w.ofs.toNat + (bs - w.fill) > maxOfs
  · exact ⟨w, .refl w, id,
      .inr ⟨_, .inl rfl, Writer.flush_undefined hpending (by rwa [Writer.pad_of_pos hpending])⟩⟩
  · simp only [Writer.flush, if_neg (Nat.ne_of_gt hpending), if_neg hrange]
    rcases Writer.emit_cases { w with
      buf := if w.compat then w.buf else blockPut w.buf w.fill (List.replicate (bs - w.fill) 0), fill := bs }
      with hgo | ⟨w', hstop, hcontrol, hwf⟩
    · rw [hgo]
      refine ⟨_, ?_, Memory.wf_write _ _, .inl rfl⟩
      exact ⟨rfl, rfl, rfl, rfl, rfl, rfl, rfl, rfl, rfl⟩
    · rw [hstop]
      exact ⟨w', hcontrol, hwf, .inr ⟨_, .inr rfl, rfl⟩⟩

theorem Writer.write_endsFrom (s : List Byte) (w : Writer) : Writer.endsFrom w (Writer.write s w) false := by
  by_cases hrefused : w.closed = true ∨ w.ofs.toNat + s.length > maxOfs
  · rw [Writer.write_undefined hrefused]
    exact Writer.endsFrom_raise 0 (.refl w) (by decide) rfl (by decide)
  · obtain ⟨hopen, hrange⟩ := not_or.1 hrefused
    obtain ⟨w', hcontrol, hwf, hgo | hstop⟩ := Writer.writeLoop_frame (s.length + 1) w s
    · rw [Writer.write, if_neg hopen, if_neg hrange, hgo]
      exact Writer.endsFrom_ok _ (hcontrol.sameBinding hwf) hcontrol.closed
    · rw [Writer.write, if_neg hopen, if_neg hrange, hstop]
      exact Writer.endsFrom_raise _ (hcontrol.sameBinding hwf) (by decide) hcontrol.closed (by decide)

/-- A flush that stops raises a code that a rule may raise, and not OK. -/
theorem Writer.endsFrom_flush_stop {w w' : Writer} {c : Code} (h : Writer.sameBinding w w')
    (hclosed : w'.closed = w.closed) (hc : c = .undefined ∨ c = .ioError) (closes : Bool) :
    Writer.endsFrom w (Writer.raise c 0 w') closes := by
  rcases hc with rfl | rfl <;> exact Writer.endsFrom_raise 0 h (by decide) hclosed (fun _ => by decide)

theorem Writer.flushCommand_endsFrom (w : Writer) : Writer.endsFrom w (Writer.flushCommand w) false := by
  obtain ⟨w', hcontrol, hwf, hgo | ⟨c, hc, hstop⟩⟩ := Writer.flush_ends w
  · rw [Writer.flushCommand_of_go hgo]
    exact Writer.endsFrom_ok 0 (hcontrol.sameBinding hwf) hcontrol.closed
  · rw [Writer.flushCommand_of_stop hstop]
    exact Writer.endsFrom_flush_stop (hcontrol.sameBinding hwf) hcontrol.closed hc false

theorem Writer.close_of_go {w w' : Writer} (h : Writer.flush w = .go w') :
    Writer.close w = Writer.finish .ok 0 { w' with closed := true } := by rw [Writer.close, h]

theorem Writer.close_of_stop {w w' : Writer} {c : Code} (h : Writer.flush w = .stop c w') :
    Writer.close w = Writer.raise c 0 w' := by rw [Writer.close, h]

theorem Writer.close_endsFrom (w : Writer) : Writer.endsFrom w (Writer.close w) true := by
  obtain ⟨w', hcontrol, hwf, hgo | ⟨c, hc, hstop⟩⟩ := Writer.flush_ends w
  · rw [Writer.close_of_go hgo, ← Writer.raise_ok]
    exact ⟨.ok, 0, { w' with closed := true }, rfl, hcontrol.sameBinding hwf, by decide, by simp⟩
  · rw [Writer.close_of_stop hstop]
    exact Writer.endsFrom_flush_stop (hcontrol.sameBinding hwf) hcontrol.closed hc true

theorem Writer.reserve_endsFrom (w : Writer) : Writer.endsFrom w (Writer.reserve w) false := by
  by_cases hrefused : w.closed = true ∨ w.ofs.toNat + Writer.pad w + bs > maxOfs
  · rw [Writer.reserve_undefined hrefused]
    exact Writer.endsFrom_raise 0 (.refl w) (by decide) rfl (by decide)
  · obtain ⟨hopen, hrange⟩ := not_or.1 hrefused
    rw [Bool.not_eq_true] at hopen
    rw [not_lt] at hrange
    obtain ⟨w', hcontrol, hwf, hgo | ⟨c, hc, hstop⟩⟩ := Writer.flush_ends w
    · have hbinding := hcontrol.sameBinding hwf
      rcases nextAnswer_cases w'.sink.plan with hobey | hfail
      · rw [Writer.reserve_of_flush_go hopen hrange hgo hobey]
        exact Writer.endsFrom_ok (w1 := Writer.placeholderPut w') _
          (hbinding.trans ⟨rfl, rfl, rfl, rfl, rfl, rfl, rfl, Memory.wf_write _ _⟩) hcontrol.closed
      · obtain ⟨w'', hsink, hbinding', hclosed⟩ := Writer.sinkWrite_fail_sameBinding hfail (blockBytes zeroBlock)
        rw [Writer.reserve_of_sink_stop hopen hrange hgo hsink]
        exact Writer.endsFrom_raise 0 (hbinding.trans hbinding') (by decide) (hclosed.trans hcontrol.closed) (by decide)
    · rw [Writer.reserve_of_flush_stop hopen hrange hstop]
      exact Writer.endsFrom_flush_stop (hcontrol.sameBinding hwf) hcontrol.closed hc false

theorem Writer.patch_endsFrom (payload : List Byte) (w : Writer) :
    Writer.endsFrom w (Writer.patch payload w) false := by
  have refuse : ∀ c ∈ [Code.undefined, .unsupported], Writer.endsFrom w (Writer.raise c 0 w) false := by
    intro c hc
    exact Writer.endsFrom_raise 0 (.refl w) (List.mem_of_mem_drop (i := 2) hc) rfl (fun h => by cases h)
  unfold Writer.patch
  dsimp only
  split_ifs
  · exact refuse _ (by decide)
  · exact refuse _ (by decide)
  · exact refuse _ (by decide)
  · rcases nextAnswer_cases w.sink.plan with hobey | hfail
    · rw [Writer.sinkWriteAt_obey hobey]
      exact Writer.endsFrom_ok 0 ⟨rfl, rfl, rfl, rfl, rfl, rfl, rfl, Memory.wf_writeAt _ _⟩ rfl
    · obtain ⟨w', hsink, hbinding, hclosed⟩ := Writer.sinkWriteAt_fail_sameBinding hfail
        (offsetOperand w.regs.arg0).toNat (blockBytes (enc w.key (blockOfBytes payload)))
      rw [hsink]
      exact Writer.endsFrom_raise 0 hbinding (by decide) hclosed (by decide)

/-- Every rule of the writer moves the data path on and raises a code; a close alone sets the closed bit. -/
theorem writerRule_endsFrom {i : Instr} (he : Instr.engine i = .writer) (hb : isBind i = false) (w : Writer) :
    Writer.endsFrom w (writerRule i w) (decide (i = .wClose)) := by
  cases i
  case wBind => cases hb
  case wWrite | wWriteU8 | wWriteI8 | wWriteU16 | wWriteI16 | wWriteU32 | wWriteI32 | wWriteU64 | wWriteI64 =>
    exact Writer.write_endsFrom _ w
  case wFlush => exact Writer.flushCommand_endsFrom w
  case wClose => exact Writer.close_endsFrom w
  case wReserve => exact Writer.reserve_endsFrom w
  case wPatchBlock | wPatchU8 | wPatchU16 | wPatchU32 | wPatchU64 => exact Writer.patch_endsFrom _ w
  case wChecksum | wResetChecksum | wBytesWritten => exact Writer.endsFrom_ok _ (.refl w) rfl
  all_goals cases he

/-! ### How a reader's rule ends (42_reader.md) -/

/-- The range of the cursor (10_state.md R34). -/
def Reader.curInRange (r : Reader) : Prop := -1 ≤ r.cur ∧ r.cur ≤ bs

/-- `r'` is what a command begun at `r` leaves: the data path moved on, then one of the codes of a rule raised, END_OF_DATA
with no block loaded and UNSUPPORTED before anything moved. -/
def Reader.endsFrom (r r' : Reader) : Prop :=
  ∃ c v dout r1, r' = Reader.raise c v dout r1 ∧ Reader.sameControl r r1 ∧
    (Reader.curInRange r → Reader.curInRange r1) ∧
    c ∈ [Code.ok, .ioError, .endOfData, .shortRead, .unsupported, .undefined] ∧
    (c = .endOfData → r1.cur = -1) ∧ (c = .unsupported → r1 = r)

theorem Reader.raise_ok (v : Word64) (dout : List Byte) (r : Reader) :
    Reader.raise .ok v dout r = Reader.finish .ok v dout r := Reader.raise_of_not_setsFault rfl v dout r

theorem Reader.endsFrom_ok {r r1 : Reader} (v : Word64) (dout : List Byte) (h : Reader.sameControl r r1)
    (hcur : Reader.curInRange r → Reader.curInRange r1) : Reader.endsFrom r (Reader.finish .ok v dout r1) := by
  rw [← Reader.raise_ok]
  exact ⟨.ok, v, dout, r1, rfl, h, hcur, by decide, by simp, by simp⟩

theorem Reader.curInRange_of_empty {r : Reader} (h : r.cur = -1) : Reader.curInRange r := by
  rw [Reader.curInRange, h]
  decide

/-- The code of a fetch or a seek that failed is raised with no block loaded. -/
theorem Reader.endsFrom_stop {r r1 : Reader} {c : Code} (v : Word64) (dout : List Byte) (h : Reader.sameControl r r1)
    (hcur : r1.cur = -1) (hc : c = .endOfData ∨ c = .shortRead ∨ c = .ioError) :
    Reader.endsFrom r (Reader.raise c v dout r1) := by
  refine ⟨c, v, dout, r1, rfl, h, fun _ => Reader.curInRange_of_empty hcur, ?_, fun _ => hcur, ?_⟩
  · rcases hc with rfl | rfl | rfl <;> decide
  · rintro rfl
    simp at hc

theorem Reader.read_endsFrom (n : Nat) (r : Reader) : Reader.endsFrom r (Reader.read n r) := by
  obtain ⟨out, r', hcontrol, hcur, hgo | ⟨c, hstop, hempty, hc⟩⟩ := Reader.readLoop_frame n n [] r
  · rw [Reader.read_of_go hgo]
    exact Reader.endsFrom_ok _ _ hcontrol hcur
  · rw [Reader.read_of_stop hstop]
    exact Reader.endsFrom_stop _ _ hcontrol hempty hc

theorem Reader.readValue_of_go {k : Width} {signed : Bool} {r r' : Reader} {out : List Byte}
    (h : Reader.readLoop (Width.bytes k) (Width.bytes k) [] r = .go (out, r')) :
    Reader.readValue k signed r =
      Reader.finish .ok (if signed then signedResult k out else unsignedResult out) [] r' := by
  rw [Reader.readValue, h]

theorem Reader.readValue_of_stop {k : Width} {signed : Bool} {r r' : Reader} {c : Code} {out : List Byte}
    (h : Reader.readLoop (Width.bytes k) (Width.bytes k) [] r = .stop c (out, r')) :
    Reader.readValue k signed r = Reader.raise c (freeResult r'.draw) [] { r' with draw := r'.draw.next } := by
  rw [Reader.readValue, h]

/-- The draw key is no element that a rule must keep. -/
theorem Reader.sameControl_setDraw (r : Reader) (d : DrawKey) : Reader.sameControl r { r with draw := d } :=
  ⟨rfl, rfl, rfl, rfl, rfl, rfl, rfl, rfl, rfl⟩

theorem Reader.readValue_endsFrom (k : Width) (signed : Bool) (r : Reader) :
    Reader.endsFrom r (Reader.readValue k signed r) := by
  obtain ⟨out, r', hcontrol, hcur, hgo | ⟨c, hstop, hempty, hc⟩⟩ :=
    Reader.readLoop_frame (Width.bytes k) (Width.bytes k) [] r
  · rw [Reader.readValue_of_go hgo]
    exact Reader.endsFrom_ok _ _ hcontrol hcur
  · rw [Reader.readValue_of_stop hstop]
    exact Reader.endsFrom_stop _ _ (hcontrol.trans (Reader.sameControl_setDraw r' _)) hempty hc

theorem Reader.alignBody_cases (r : Reader) :
    (∃ r', Reader.alignBody r = .go r' ∧ Reader.sameControl r r' ∧ (Reader.curInRange r → Reader.curInRange r')) ∨
    ∃ c r', Reader.alignBody r = .stop c r' ∧ Reader.sameControl r r' ∧ r'.cur = -1 ∧
      (c = .endOfData ∨ c = .shortRead ∨ c = .ioError) := by
  by_cases haligned : r.cur ≤ 0 ∨ (bs : Int) ≤ r.cur
  · exact .inl ⟨r, Reader.alignBody_of_aligned haligned, .refl r, id⟩
  · obtain ⟨hpos, hlt⟩ := not_or.1 haligned
    have hdrop := Reader.sameControl_setCur r (-1)
    rw [Reader.alignBody_of_partial (by omega) (by omega)]
    rcases Reader.fetch_cases { r with cur := -1 } with ⟨-, -, hgo⟩ | ⟨c, r', hstop, hcontrol, hempty, hc⟩
    · exact .inl ⟨_, hgo, hdrop.trans (Reader.loaded_sameControl _), fun _ => by simp [Reader.curInRange, Reader.loaded]⟩
    · exact .inr ⟨c, r', hstop, hdrop.trans hcontrol, hempty, hc⟩

theorem Reader.align_endsFrom (r : Reader) : Reader.endsFrom r (Reader.align r) := by
  rcases Reader.alignBody_cases r with ⟨r', hgo, hcontrol, hcur⟩ | ⟨c, r', hstop, hcontrol, hempty, hc⟩
  · rw [Reader.align_of_go hgo]
    exact Reader.endsFrom_ok _ _ hcontrol hcur
  · rw [Reader.align_of_stop hstop]
    exact Reader.endsFrom_stop _ _ hcontrol hempty hc

theorem shortfallCode_cases {c : Code} (hc : c = .endOfData ∨ c = .shortRead ∨ c = .ioError) :
    shortfallCode c = .shortRead ∨ shortfallCode c = .ioError := by
  rcases hc with rfl | rfl | rfl <;> decide

theorem Reader.readAligned_endsFrom (r : Reader) : Reader.endsFrom r (Reader.readAligned r) := by
  rcases Reader.alignBody_cases r with ⟨r', hgo, hcontrol, hcur⟩ | ⟨c, r', hstop, hcontrol, hempty, hc⟩
  · obtain ⟨out, r'', hcontrol', hcur', hread | ⟨c, hread, hempty, hc⟩⟩ := Reader.readLoop_frame bs bs [] r'
    · rw [Reader.readAligned_of_go hgo hread]
      exact Reader.endsFrom_ok _ _ (hcontrol.trans hcontrol') (hcur' ∘ hcur)
    · rw [Reader.readAligned_of_read_stop hgo hread]
      exact Reader.endsFrom_stop _ _ (hcontrol.trans hcontrol') hempty (.inr (shortfallCode_cases hc))
  · rw [Reader.readAligned_of_align_stop hstop]
    exact Reader.endsFrom_stop _ _ hcontrol hempty hc

/-- The end of a seek sets the cursor whatever it was, so it keeps the range from any start. -/
theorem Reader.realign_endsFrom (target : Nat) {r r' : Reader} (h : Reader.sameControl r r') :
    Reader.endsFrom r (Reader.realign target r') := by
  have hdrop := h.trans (Reader.sameControl_setCur r' (-1))
  unfold Reader.realign
  dsimp only
  split_ifs with hboundary
  · exact Reader.endsFrom_ok _ _ hdrop fun _ => Reader.curInRange_of_empty rfl
  · obtain ⟨back, r1, hseek, hcontrol, hcur, -⟩ :=
      Reader.srcSeek_cases { r' with cur := -1 } ((target : Int) - (target % bs : Nat)) .start
    have hback := hdrop.trans hcontrol
    rw [hseek]
    cases back with
    | none => exact Reader.endsFrom_stop _ _ hback hcur (by simp)
    | some pos =>
      rcases Reader.fetch_cases r1 with ⟨-, -, hgo⟩ | ⟨c, r2, hstop, hcontrol', hempty, hc⟩
      · simp only [hgo]
        refine Reader.endsFrom_ok _ _ ((hback.trans (Reader.loaded_sameControl r1)).trans
          (Reader.sameControl_setCur _ _)) fun _ => ?_
        have := Nat.mod_lt target (show 0 < bs by decide)
        simp only [Reader.curInRange]
        omega
      · simp only [hstop]
        exact Reader.endsFrom_stop _ _ ((hback.trans hcontrol').trans (Reader.atBoundary_sameControl _ _ _))
          ((Reader.atBoundary_cur _ _ _).trans hempty) hc

theorem Reader.seekTo_endsFrom (wh : Origin) (r : Reader) : Reader.endsFrom r (Reader.seekTo wh r) := by
  by_cases hcap : r.seek = false
  · rw [Reader.seekTo_unsupported hcap, ← Reader.raise_of_not_setsFault rfl]
    exact ⟨.unsupported, 0, [], r, rfl, .refl r, id, by decide, by simp, fun _ => rfl⟩
  · rw [Reader.seekTo, if_neg hcap]
    split
    · exact ⟨.undefined, 0, [], r, rfl, .refl r, id, by decide, by simp, fun _ => rfl⟩
    · obtain ⟨target, r', hseek, hcontrol, hcur, -⟩ := Reader.srcSeek_cases r
        (if wh = .current then offsetOperand r.regs.arg0 - Reader.buffered r else offsetOperand r.regs.arg0) wh
      rw [hseek]
      cases target with
      | none =>
        exact ⟨.ioError, 0, [], r', rfl, hcontrol, fun h => by rwa [Reader.curInRange, hcur], by decide, by simp, by simp⟩
      | some target => exact Reader.realign_endsFrom target hcontrol

/-- Every rule of the reader moves the data path on and raises a code. -/
theorem readerRule_endsFrom {i : Instr} (he : Instr.engine i = .reader) (hb : isBind i = false) (r : Reader) :
    Reader.endsFrom r (readerRule i r) := by
  cases i
  case rBind => cases hb
  case rRead => exact Reader.read_endsFrom _ r
  case rReadU8 | rReadI8 | rReadU16 | rReadI16 | rReadU32 | rReadI32 | rReadU64 | rReadI64 =>
    exact Reader.readValue_endsFrom _ _ r
  case rBuffered => exact Reader.endsFrom_ok _ _ (.refl r) id
  case rAlign => exact Reader.align_endsFrom r
  case rReadAligned => exact Reader.readAligned_endsFrom r
  case rSeekSet | rSeekCur | rSeekEnd => exact Reader.seekTo_endsFrom _ r
  all_goals cases he

/-! ### Admission, command by command (60_exceptions.md R229) -/

section
variable {i : Instr} {s : State}

/-- A writer command that is no bind goes through admission to its rule. -/
theorem exec_writer (he : Instr.engine i = .writer) (hb : isBind i = false) :
    exec i s = runWriter (Instr.dinBytes i) (writerRule i) s := by
  rcases exec_cases i with ⟨c, rfl, -⟩ | ⟨-, -, h⟩ | ⟨rfl, -⟩ | ⟨he', -⟩
  · cases hb
  · exact h s
  · cases he
  · rw [he] at he'; cases he'

/-- A reader command that is no bind goes through admission to its rule. -/
theorem exec_reader (he : Instr.engine i = .reader) (hb : isBind i = false) :
    exec i s = runReader (readerRule i) s := by
  rcases exec_cases i with ⟨c, rfl, -⟩ | ⟨he', -⟩ | ⟨rfl, -⟩ | ⟨-, -, -, h⟩
  · cases hb
  · rw [he] at he'; cases he'
  · cases hb
  · exact h s

variable {n : Instance} (hcur : State.cur? s = some n)
include hcur

theorem runWriter_of_unbound (need : Nat) (f : Writer → Writer) (h : n.w.bound = false) :
    runWriter need f s = .next (State.setW s n (Writer.finish .notBound 0 n.w)) := by
  simp [runWriter, hcur, h, Writer.raise_of_not_setsFault (c := .notBound) rfl]

theorem runWriter_of_faulted (need : Nat) (f : Writer → Writer) (hb : n.w.bound = true) (h : n.w.fault = true) :
    runWriter need f s = .next (State.setW s n (Writer.finish .faulted 0 n.w)) := by
  simp [runWriter, hcur, hb, h, Writer.raise_of_not_setsFault (c := .faulted) rfl]

theorem runReader_of_unbound (f : Reader → Reader) (h : n.r.bound = false) :
    runReader f s = .next (State.setR s n (Reader.finish .notBound 0 [] n.r)) := by
  simp [runReader, hcur, h, Reader.raise_of_not_setsFault (c := .notBound) rfl]

theorem runReader_of_faulted (f : Reader → Reader) (hb : n.r.bound = true) (h : n.r.fault = true) :
    runReader f s = .next (State.setR s n (Reader.finish .faulted 0 [] n.r)) := by
  simp [runReader, hcur, hb, h, Reader.raise_of_not_setsFault (c := .faulted) rfl]

/-- A writer command completes unless it is admitted with another number of bytes than it consumes. -/
theorem runWriter_completes (need : Nat) (f : Writer → Writer) :
    (∃ t, runWriter need f s = .next t) ↔
      (n.w.bound = true ∧ n.w.fault = false → n.w.regs.din.length = need) := by
  cases hb : n.w.bound with
  | false => simp [runWriter_of_unbound hcur need f hb]
  | true =>
    cases hf : n.w.fault with
    | true => simp [runWriter_of_faulted hcur need f hb hf]
    | false => by_cases hd : n.w.regs.din.length = need <;> simp [runWriter, hcur, hb, hf, hd]

theorem bindWriter_completes (f : Writer → Writer) :
    (∃ t, bindWriter f s = .next t) ↔ n.w.regs.din.length = 0 := by
  by_cases hd : n.w.regs.din.length = 0 <;> simp [bindWriter, hcur, hd]

theorem runReader_completes (f : Reader → Reader) :
    (∃ t, runReader f s = .next t) ↔ (n.r.bound = true ∧ n.r.fault = false → n.r.regs.din.length = 0) := by
  cases hb : n.r.bound with
  | false => simp [runReader_of_unbound hcur f hb]
  | true =>
    cases hf : n.r.fault with
    | true => simp [runReader_of_faulted hcur f hb hf]
    | false => by_cases hd : n.r.regs.din.length = 0 <;> simp [runReader, hcur, hb, hf, hd]

theorem bindReader_completes (f : Reader → Reader) :
    (∃ t, bindReader f s = .next t) ↔ n.r.regs.din.length = 0 := by
  by_cases hd : n.r.regs.din.length = 0 <;> simp [bindReader, hcur, hd]

/-- Where an engine pair is addressed, only the number of `DIN` bytes can keep a command from a next state. -/
theorem exec_completes : (∃ t, exec i s = .next t) ↔
    (Instr.engine i = .writer → isBind i = true ∨ (n.w.bound = true ∧ n.w.fault = false) →
      n.w.regs.din.length = Instr.dinBytes i) ∧
    (Instr.engine i = .reader → isBind i = true ∨ (n.r.bound = true ∧ n.r.fault = false) →
      n.r.regs.din.length = Instr.dinBytes i) := by
  rcases exec_cases i with ⟨c, rfl, h⟩ | ⟨he, hb, h⟩ | ⟨rfl, h⟩ | ⟨he, hb, hd, h⟩
  · simp [h, bindWriter_completes hcur, isBind, Instr.engine, Instr.dinBytes]
  · simp [h, runWriter_completes hcur, he, hb]
  · simp [h, bindReader_completes hcur, isBind, Instr.engine, Instr.dinBytes]
  · simp [h, runReader_completes hcur, he, hb, hd]

end

/-- Where nothing is addressed no command has a next state (60_exceptions.md R239). -/
theorem exec_of_no_instance (i : Instr) {s : State} (h : State.cur? s = none) : exec i s = .fault .noSuchInstance := by
  rcases exec_cases i with ⟨c, rfl, hexec⟩ | ⟨-, -, hexec⟩ | ⟨rfl, hexec⟩ | ⟨-, -, -, hexec⟩
  · simp [hexec, bindWriter, h]
  · simp [hexec, runWriter, h]
  · simp [hexec, bindReader, h]
  · simp [hexec, runReader, h]

/-! ### What a command can leave of its engine -/

/-- A writer command puts a writer in the addressed place: the one a bind leaves, the old one with the code of a failed
admission, or the one its rule leaves. -/
theorem exec_writer_next {i : Instr} {s t : State} {n : Instance} (he : Instr.engine i = .writer)
    (hcur : State.cur? s = some n) (h : exec i s = .next t) :
    ∃ w', t = State.setW s n w' ∧
      ((∃ c, i = .wBind c ∧ w' = Writer.bind c n.w) ∨
       (isBind i = false ∧ n.w.bound = false ∧ w' = Writer.finish .notBound 0 n.w) ∨
       (isBind i = false ∧ n.w.bound = true ∧ n.w.fault = true ∧ w' = Writer.finish .faulted 0 n.w) ∨
       (isBind i = false ∧ Writer.ready n.w (Instr.dinBytes i) ∧ w' = writerRule i n.w)) := by
  rcases exec_cases i with ⟨c, rfl, hexec⟩ | ⟨-, hb, hexec⟩ | ⟨rfl, -⟩ | ⟨he', -⟩
  · obtain ⟨m, hm, -, rfl⟩ := bindWriter_next ((hexec s).symm.trans h)
    obtain rfl : n = m := Option.some.inj (hcur.symm.trans hm)
    exact ⟨_, rfl, .inl ⟨c, rfl, rfl⟩⟩
  · obtain ⟨m, hm, hnext⟩ := runWriter_next ((hexec s).symm.trans h)
    obtain rfl : n = m := Option.some.inj (hcur.symm.trans hm)
    rcases hnext with ⟨hbound, rfl⟩ | ⟨hbound, hfault, rfl⟩ | ⟨hready, rfl⟩
    · exact ⟨_, rfl, .inr (.inl ⟨hb, hbound, Writer.raise_of_not_setsFault rfl _ _⟩)⟩
    · exact ⟨_, rfl, .inr (.inr (.inl ⟨hb, hbound, hfault, Writer.raise_of_not_setsFault rfl _ _⟩))⟩
    · exact ⟨_, rfl, .inr (.inr (.inr ⟨hb, hready, rfl⟩))⟩
  · cases he
  · rw [he] at he'; cases he'

/-- A reader command puts a reader in the addressed place: the one a bind leaves, the old one with the code of a failed
admission, or the one its rule leaves. -/
theorem exec_reader_next {i : Instr} {s t : State} {n : Instance} (he : Instr.engine i = .reader)
    (hcur : State.cur? s = some n) (h : exec i s = .next t) :
    ∃ r', t = State.setR s n r' ∧
      ((i = .rBind ∧ r' = Reader.bind n.r) ∨
       (isBind i = false ∧ n.r.bound = false ∧ r' = Reader.finish .notBound 0 [] n.r) ∨
       (isBind i = false ∧ n.r.bound = true ∧ n.r.fault = true ∧ r' = Reader.finish .faulted 0 [] n.r) ∨
       (isBind i = false ∧ Reader.ready n.r ∧ r' = readerRule i n.r)) := by
  rcases exec_cases i with ⟨c, rfl, -⟩ | ⟨he', -⟩ | ⟨rfl, hexec⟩ | ⟨-, hb, -, hexec⟩
  · cases he
  · rw [he] at he'; cases he'
  · obtain ⟨m, hm, -, rfl⟩ := bindReader_next ((hexec s).symm.trans h)
    obtain rfl : n = m := Option.some.inj (hcur.symm.trans hm)
    exact ⟨_, rfl, .inl ⟨rfl, rfl⟩⟩
  · obtain ⟨m, hm, hnext⟩ := runReader_next ((hexec s).symm.trans h)
    obtain rfl : n = m := Option.some.inj (hcur.symm.trans hm)
    rcases hnext with ⟨hbound, rfl⟩ | ⟨hbound, hfault, rfl⟩ | ⟨hready, rfl⟩
    · exact ⟨_, rfl, .inr (.inl ⟨hb, hbound, Reader.raise_of_not_setsFault rfl _ _ _⟩)⟩
    · exact ⟨_, rfl, .inr (.inr (.inl ⟨hb, hbound, hfault, Reader.raise_of_not_setsFault rfl _ _ _⟩))⟩
    · exact ⟨_, rfl, .inr (.inr (.inr ⟨hb, hready, rfl⟩))⟩

/-- What a command leaves alone of the writer it runs on (10_state.md R36; 20_memory.md R58; 60_exceptions.md section
4). -/
def Writer.framedBy (i : Instr) (w w' : Writer) : Prop :=
  w'.regs.cmd = w.regs.cmd ∧ w'.regs.arg0 = w.regs.arg0 ∧ w'.regs.arg1 = w.regs.arg1 ∧ w'.regs.din = w.regs.din ∧
  w'.regs.dout = [] ∧ w'.sink.ra = w.sink.ra ∧
  (isBind i = false → w'.bound = w.bound ∧ w'.key = w.key ∧ w'.ra = w.ra ∧ w'.compat = w.compat) ∧
  (i ≠ .wClose → isBind i = false → w'.closed = w.closed)

theorem Writer.finish_framedBy (i : Instr) (c : Code) (v : Word64) (w : Writer) :
    Writer.framedBy i w (Writer.finish c v w) :=
  ⟨rfl, rfl, rfl, rfl, rfl, rfl, fun _ => ⟨rfl, rfl, rfl, rfl⟩, fun _ _ => rfl⟩

theorem Writer.bind_framedBy (c : Bool) (w : Writer) : Writer.framedBy (.wBind c) w (Writer.bind c w) := by
  cases hkey : keyValid w.regs.arg0 with
  | true =>
    rw [Writer.bind_of_valid hkey]
    exact ⟨rfl, rfl, rfl, rfl, rfl, rfl, by simp [isBind], by simp [isBind]⟩
  | false =>
    rw [Writer.bind_of_rejected hkey]
    exact ⟨rfl, rfl, rfl, rfl, rfl, rfl, by simp [isBind], by simp [isBind]⟩

theorem Writer.endsFrom.framedBy {i : Instr} {w w' : Writer} (h : Writer.endsFrom w w' (decide (i = .wClose))) :
    Writer.framedBy i w w' := by
  obtain ⟨c, v, w1, rfl, ⟨hregs, hbound, hkey, hra, hcompat, -, hsinkRa, -⟩, -, hclosed⟩ := h
  refine ⟨?_, ?_, ?_, ?_, ?_, ?_, fun _ => ⟨?_, ?_, ?_, ?_⟩, fun hi _ => ?_⟩ <;>
    simp [*]

/-- What a command leaves alone of the reader it runs on (10_state.md R36; 20_memory.md R54, R58). -/
def Reader.framedBy (i : Instr) (r r' : Reader) : Prop :=
  r'.regs.cmd = r.regs.cmd ∧ r'.regs.arg0 = r.regs.arg0 ∧ r'.regs.arg1 = r.regs.arg1 ∧ r'.regs.din = r.regs.din ∧
  r'.stream = r.stream ++ r'.regs.dout ∧ r'.source.mem = r.source.mem ∧ r'.source.seek = r.source.seek ∧
  r'.source.reference = r.source.reference ∧
  (isBind i = false → r'.bound = r.bound ∧ r'.key = r.key ∧ r'.seek = r.seek)

theorem Reader.finish_framedBy (i : Instr) (c : Code) (v : Word64) (dout : List Byte) (r : Reader) :
    Reader.framedBy i r (Reader.finish c v dout r) :=
  ⟨rfl, rfl, rfl, rfl, rfl, rfl, rfl, rfl, fun _ => ⟨rfl, rfl, rfl⟩⟩

theorem Reader.bind_framedBy (r : Reader) : Reader.framedBy .rBind r (Reader.bind r) := by
  cases hkey : keyValid r.regs.arg0 with
  | true =>
    rw [Reader.bind_of_valid hkey]
    exact ⟨rfl, rfl, rfl, rfl, rfl, rfl, rfl, rfl, by simp [isBind]⟩
  | false =>
    rw [Reader.bind_of_rejected hkey]
    exact ⟨rfl, rfl, rfl, rfl, rfl, rfl, rfl, rfl, by simp [isBind]⟩

theorem Reader.endsFrom.framedBy {r r' : Reader} (h : Reader.endsFrom r r') (i : Instr) :
    Reader.framedBy i r r' := by
  obtain ⟨c, v, dout, r1, rfl, ⟨hregs, hbound, hkey, hseek, -, hstream, hmem, hsrcSeek, hreference⟩, -⟩ := h
  refine ⟨?_, ?_, ?_, ?_, ?_, ?_, ?_, ?_, fun _ => ⟨?_, ?_, ?_⟩⟩ <;> simp [*]

/-! ### The settled statements -/

/-- Settles O19: `exec_completes` where an engine pair is addressed, a fault where none is. -/
theorem commandsCompleteUnlessTheHostErs : Obligations.CommandsCompleteUnlessTheHostErs := by
  intro i s
  cases hcur : State.cur? s with
  | none => simp [exec_of_no_instance i hcur]
  | some n => simp only [exec_completes hcur, Option.some.injEq, exists_eq_left']

/-- Settles O20: the first check of admission. -/
theorem unboundEngineAnswersNotBound : Obligations.UnboundEngineAnswersNotBound := by
  refine fun i s n hb hcur => ⟨fun he hbound => ?_, fun he hbound => ?_⟩
  · rw [exec_writer he hb, runWriter_of_unbound hcur _ _ hbound]
    rfl
  · rw [exec_reader he hb, runReader_of_unbound hcur _ hbound, Reader.finish_without_dout]
    rfl

/-- Settles O21: the second check of admission. -/
theorem faultedEngineAnswersFaulted : Obligations.FaultedEngineAnswersFaulted := by
  refine fun i s n hb hcur => ⟨fun he hbound hfault => ?_, fun he hbound hfault => ?_⟩
  · rw [exec_writer he hb, runWriter_of_faulted hcur _ _ hbound hfault]
    rfl
  · rw [exec_reader he hb, runReader_of_faulted hcur _ hbound hfault, Reader.finish_without_dout]
    rfl

/-- Settles O24: a bind, a failed admission and a rule each keep the frame. -/
theorem writerCommandsTouchOnlyTheirEngine : Obligations.WriterCommandsTouchOnlyTheirEngine := by
  intro i s t n he hcur h
  obtain ⟨w', rfl, hw'⟩ := exec_writer_next he hcur h
  refine ⟨w', rfl, ?_⟩
  show Writer.framedBy i n.w w'
  rcases hw' with ⟨c, rfl, rfl⟩ | ⟨-, -, rfl⟩ | ⟨-, -, -, rfl⟩ | ⟨hb, -, rfl⟩
  · exact Writer.bind_framedBy c n.w
  · exact Writer.finish_framedBy i _ _ n.w
  · exact Writer.finish_framedBy i _ _ n.w
  · exact (writerRule_endsFrom he hb n.w).framedBy

/-- Settles O25: a bind, a failed admission and a rule each keep the frame. -/
theorem readerCommandsTouchOnlyTheirEngine : Obligations.ReaderCommandsTouchOnlyTheirEngine := by
  intro i s t n he hcur h
  obtain ⟨r', rfl, hr'⟩ := exec_reader_next he hcur h
  have hframe : Reader.framedBy i n.r r' := by
    rcases hr' with ⟨rfl, rfl⟩ | ⟨-, -, rfl⟩ | ⟨-, -, -, rfl⟩ | ⟨hb, -, rfl⟩
    · exact Reader.bind_framedBy n.r
    · exact Reader.finish_framedBy i _ _ _ n.r
    · exact Reader.finish_framedBy i _ _ _ n.r
    · exact (readerRule_endsFrom he hb n.r).framedBy i
  obtain ⟨hcmd, harg0, harg1, hdin, hstream, hmem, hrest⟩ := hframe
  exact ⟨r', rfl, hcmd, harg0, harg1, hdin, hstream, fun a => by rw [hmem], hrest⟩

end Sys2Proof.Machine
end

section
/-! The invariants (10_state.md R27, R32, R34): what a property of each engine must be kept by so that every step keeps
it, said once, and the settled statements about the two invariants of the machine. -/

namespace Sys2Proof.Machine

open Sys2Proof.Config

/-! ### A property of the engines that every step keeps -/

/-- What can happen to a writer in a step: its registers, its sink, a reset, a bind, and the rules of its commands. -/
structure Writer.Kept (P : Writer → Prop) : Prop where
  regs : ∀ (w : Writer) g, P w → P { w with regs := g }
  sink : ∀ (w : Writer) (c : Sink), P w → P { w with sink := { c with mem := Memory.ofCells c.mem } }
  reset : ∀ w, P w → P (Writer.resetWith w.sink w.draw)
  bind : ∀ c w, P w → P (Writer.bind c w)
  rule : ∀ i w, Instr.engine i = .writer → isBind i = false → Writer.ready w (Instr.dinBytes i) → P w →
    P (writerRule i w)

/-- What can happen to a reader in a step: its registers, its source, a reset, a bind, and the rules of its commands. -/
structure Reader.Kept (P : Reader → Prop) : Prop where
  regs : ∀ (r : Reader) g, P r → P { r with regs := g }
  source : ∀ (r : Reader) (c : Source), P r → P { r with source := { c with mem := Memory.ofCells c.mem } }
  reset : ∀ r, P r → P (Reader.resetWith r.source r.stream r.draw)
  bind : ∀ r, P r → P (Reader.bind r)
  rule : ∀ i r, Instr.engine i = .reader → isBind i = false → Reader.ready r → P r → P (readerRule i r)

/-- Both engines of every pair have the property of their kind. -/
def State.all (P : Writer → Prop) (Q : Reader → Prop) (s : State) : Prop := ∀ n ∈ s.insts, P n.w ∧ Q n.r

section
variable {P : Writer → Prop} {Q : Reader → Prop} {s t : State}

theorem State.all.getElem? (h : State.all P Q s) {k : Nat} {n : Instance} (hn : s.insts[k]? = some n) :
    P n.w ∧ Q n.r := h n (List.mem_of_getElem? hn)

theorem State.all.of_insts_set (h : State.all P Q s) {k : Nat} {n : Instance} (hn : P n.w ∧ Q n.r)
    (ht : t.insts = s.insts.set k n) : State.all P Q t := by
  intro m hm
  rw [ht] at hm
  rcases List.mem_or_eq_of_mem_set hm with hm | rfl
  · exact h m hm
  · exact hn

theorem Reader.Kept.finish (hQ : Reader.Kept Q) (c : Code) (v : Word64) {r : Reader} (h : Q r) :
    Q (Reader.finish c v [] r) := by
  rw [Reader.finish_without_dout]
  exact hQ.regs _ _ h

variable (hP : Writer.Kept P) (hQ : Reader.Kept Q)
include hP hQ

/-- Every command keeps the property. -/
theorem exec_keeps {i : Instr} (h : State.all P Q s) (hexec : exec i s = .next t) : State.all P Q t := by
  cases hcur : State.cur? s with
  | none => rw [exec_of_no_instance i hcur] at hexec; cases hexec
  | some n =>
    obtain ⟨hw, hr⟩ := h.getElem? hcur
    cases he : Instr.engine i with
    | writer =>
      obtain ⟨w', rfl, hw'⟩ := exec_writer_next he hcur hexec
      refine h.of_insts_set (n := { n with w := w' }) ⟨?_, hr⟩ rfl
      rcases hw' with ⟨c, -, rfl⟩ | ⟨-, -, rfl⟩ | ⟨-, -, -, rfl⟩ | ⟨hb, hready, rfl⟩
      · exact hP.bind c _ hw
      · exact hP.regs _ _ hw
      · exact hP.regs _ _ hw
      · exact hP.rule i _ he hb hready hw
    | reader =>
      obtain ⟨r', rfl, hr'⟩ := exec_reader_next he hcur hexec
      refine h.of_insts_set (n := { n with r := r' }) ⟨hw, ?_⟩ rfl
      rcases hr' with ⟨-, rfl⟩ | ⟨-, -, rfl⟩ | ⟨-, -, -, rfl⟩ | ⟨hb, hready, rfl⟩
      · exact hQ.bind _ hr
      · exact hQ.finish _ _ hr
      · exact hQ.finish _ _ hr
      · exact hQ.rule i _ he hb hready hr

theorem Instance.onRegs_keeps {n : Instance} (h : P n.w ∧ Q n.r) (e : Engine) (f : HostRegs → HostRegs) :
    P (Instance.onRegs n e f).w ∧ Q (Instance.onRegs n e f).r := by
  obtain ⟨hw, hr⟩ := h
  cases e with
  | writer => exact ⟨hP.regs _ _ hw, hr⟩
  | reader => exact ⟨hw, hQ.regs _ _ hr⟩

/-- What a host action comes to keeps the property: the state its command runs in, or the next state. -/
def Fetched.all (P : Writer → Prop) (Q : Reader → Prop) : Fetched → Prop
  | .command _ s => State.all P Q s
  | .done (.next s) => State.all P Q s
  | .done _ => True

omit hP hQ in
theorem State.onInstance_keeps {k : Nat} {f : Instance → Instance} (hf : ∀ n, P n.w ∧ Q n.r → P (f n).w ∧ Q (f n).r)
    (h : State.all P Q s) : Fetched.all P Q (.done (State.onInstance s k f)) := by
  unfold State.onInstance
  cases hn : s.insts[k]? with
  | none => trivial
  | some n => exact h.of_insts_set (hf n (h.getElem? hn)) rfl

theorem takeCommand_keeps (h : State.all P Q s) (k : Nat) (written : Engine) (word : Word32) (din : List Byte) :
    Fetched.all P Q (takeCommand k written word din s) := by
  cases hn : s.insts[k]? with
  | none => simp [takeCommand, hn, Fetched.all]
  | some n =>
    have hword := Instance.onRegs_keeps hP hQ (h.getElem? hn) written fun g => { g with cmd := word }
    cases hdecode : decode word with
    | none =>
      rw [takeCommand_of_illegal hn hdecode, Instance.reportIllegal_eq_onRegs]
      exact h.of_insts_set (Instance.onRegs_keeps hP hQ hword _ _) rfl
    | some i =>
      simp only [takeCommand, hn, hdecode]
      exact h.of_insts_set (Instance.onRegs_keeps hP hQ hword (Instr.engine i) _) rfl

theorem takeHostOp_keeps (h : State.all P Q s) (op : HostOp) : Fetched.all P Q (takeHostOp op s) := by
  cases op with
  | command k e word din => exact takeCommand_keeps hP hQ h k e word din
  | resume k e word din =>
    cases hn : s.insts[k]? with
    | none => simp [takeHostOp, hn, Fetched.all]
    | some n =>
      simp only [takeHostOp, hn]
      split_ifs
      · exact takeCommand_keeps hP hQ h k e word din
      · exact h
  | write k e reg value =>
    simp only [takeHostOp]
    split_ifs
    · exact takeCommand_keeps hP hQ h k e _ []
    · exact State.onInstance_keeps (fun n hn => Instance.onRegs_keeps hP hQ hn e _) h
  | read k e reg =>
    cases hn : s.insts[k]? with
    | none => simp [takeHostOp, hn, Fetched.all]
    | some n =>
      simp only [takeHostOp, hn]
      exact h
  | reset =>
    intro m hm
    obtain ⟨n, hn, rfl⟩ := List.mem_map.1 hm
    obtain ⟨hw, hr⟩ := h n hn
    exact ⟨hP.reset _ hw, hQ.reset _ hr⟩
  | attachSink k sink => exact State.onInstance_keeps (fun n hn => ⟨hP.sink _ sink hn.1, hn.2⟩) h
  | attachSource k source => exact State.onInstance_keeps (fun n hn => ⟨hn.1, hQ.source _ source hn.2⟩) h

/-- Every step keeps a property that the engines keep in each of the ways a step can touch them. -/
theorem step_keeps (h : State.all P Q s) (hstep : step s = .next t) : State.all P Q t := by
  have hfetched : Fetched.all P Q (fetchHost s) := by
    unfold fetchHost
    split
    · exact h
    · next op rest _ => exact takeHostOp_keeps hP hQ (s := { s with host := rest }) h op
  unfold step at hstep
  split at hstep
  · next o heq =>
    rw [heq, hstep] at hfetched
    exact hfetched
  · next i s' heq =>
    rw [heq] at hfetched
    exact exec_keeps hP hQ hfetched hstep

end

/-! ### Bound keys are accepted ones (41_writer.md R122; 42_reader.md R173) -/

/-- A bound writer holds a key that the cipher accepted. -/
def Writer.keyAccepted (w : Writer) : Prop := w.bound = true → keyValid w.key = true

/-- A bound reader holds a key that the cipher accepted. -/
def Reader.keyAccepted (r : Reader) : Prop := r.bound = true → keyValid r.key = true

theorem Writer.bind_keyAccepted (c : Bool) (w : Writer) : Writer.keyAccepted (Writer.bind c w) := by
  cases hkey : keyValid w.regs.arg0 with
  | true => rw [Writer.bind_of_valid hkey]; exact fun _ => hkey
  | false => rw [Writer.bind_of_rejected hkey]; exact fun h => by cases h

theorem Reader.bind_keyAccepted (r : Reader) : Reader.keyAccepted (Reader.bind r) := by
  cases hkey : keyValid r.regs.arg0 with
  | true => rw [Reader.bind_of_valid hkey]; exact fun _ => hkey
  | false => rw [Reader.bind_of_rejected hkey]; exact fun h => by cases h

theorem Writer.keyAccepted_kept : Writer.Kept Writer.keyAccepted where
  regs _ _ h := h
  sink _ _ h := h
  reset _ _ h := by cases h
  bind c w _ := Writer.bind_keyAccepted c w
  rule i w he hb _ h := by
    obtain ⟨-, -, -, -, -, -, hcontrol, -⟩ := (writerRule_endsFrom he hb w).framedBy
    obtain ⟨hbound, hkey, -⟩ := hcontrol hb
    rwa [Writer.keyAccepted, hbound, hkey]

theorem Reader.keyAccepted_kept : Reader.Kept Reader.keyAccepted where
  regs _ _ h := h
  source _ _ h := h
  reset _ _ h := by cases h
  bind r _ := Reader.bind_keyAccepted r
  rule i r he hb _ h := by
    obtain ⟨-, -, -, -, -, -, -, -, hcontrol⟩ := (readerRule_endsFrom he hb r).framedBy i
    obtain ⟨hbound, hkey, -⟩ := hcontrol hb
    rwa [Reader.keyAccepted, hbound, hkey]

/-! ### The writer's invariant (10_state.md R27, R31, R32) -/

/-- The writer's data path agrees with itself: the fill cursor, the offset, the bytes passed to the sink and the reserved
offsets; a closed writer has no byte pending. -/
def Writer.dataInv (w : Writer) : Prop :=
  w.fill < bs ∧ w.ofs.toNat ≤ maxOfs ∧ w.ofs.toNat % bs = w.fill ∧ w.ofs.toNat = w.sinkLen + w.fill ∧
  (∀ o ∈ w.resv, o % bs = 0 ∧ o < w.sinkLen) ∧ (w.closed = true → w.fill = 0)

theorem Writer.inv_iff (w : Writer) : Writer.inv w ↔
    Memory.wf w.sink.mem = true ∧ (w.bound = false → w.fault = false) ∧
      (w.bound = true → w.fault = false → Writer.dataInv w) := Iff.rfl

/-- Of a bound writer that has faulted the invariant says only that the sink's bytes are in canonical form. -/
theorem Writer.inv_of_fault {w : Writer} (hwf : Memory.wf w.sink.mem = true) (hbound : w.bound = true)
    (hfault : w.fault = true) : Writer.inv w :=
  (Writer.inv_iff w).2 ⟨hwf, fun h => absurd (hbound.symm.trans h) (by decide),
    fun _ h => absurd (hfault.symm.trans h) (by decide)⟩

theorem Writer.inv_of_dataInv {w : Writer} (hwf : Memory.wf w.sink.mem = true) (hfault : w.fault = false)
    (h : Writer.dataInv w) : Writer.inv w := ⟨hwf, fun _ => hfault, fun _ _ => h⟩

theorem toNat_add_ofNat {v : Word64} {k : Nat} (h : v.toNat + k ≤ maxOfs) :
    (v + BitVec.ofNat 64 k).toNat = v.toNat + k := by
  rw [BitVec.toNat_add, BitVec.toNat_ofNat]
  simp only [maxOfs] at h
  omega

/-- Taking bytes within the range keeps the data path in agreement (41_writer.md R123). -/
theorem Writer.advance_dataInv {w : Writer} {s : List Byte} (h : Writer.dataInv w) (hopen : w.closed = false)
    (hrange : w.ofs.toNat + s.length ≤ maxOfs) : Writer.dataInv (Writer.advance w s) := by
  obtain ⟨hfill, hmax, hmod, hofs, hresv, -⟩ := h
  have hlen : (Writer.pending w ++ s).length = w.fill + s.length := by
    rw [List.length_append, Writer.pending_length hfill.le]
  have hnew : (Writer.advance w s).ofs.toNat = w.ofs.toNat + s.length := toNat_add_ofNat hrange
  have hfill' : (Writer.advance w s).fill = (w.fill + s.length) % 8 := by rw [← hlen]; rfl
  have hsink : (Writer.advance w s).sinkLen = w.sinkLen + 8 * ((w.fill + s.length) / 8) := by rw [← hlen]; rfl
  have hclosed : (Writer.advance w s).closed = false := hopen
  refine ⟨?_, ?_, ?_, ?_, fun o ho => ?_, fun hc => by rw [hclosed] at hc; cases hc⟩
  · rw [hfill']; exact Nat.mod_lt _ (by decide)
  · rw [hnew]; exact hrange
  · rw [hnew, hfill']; simp only [bs] at hmod ⊢; omega
  · rw [hnew, hsink, hfill']; omega
  · obtain ⟨hblock, hlt⟩ := hresv o ho
    exact ⟨hblock, by rw [hsink]; omega⟩

/-- A flush within the range keeps the data path in agreement and leaves no byte pending (41_writer.md R133). -/
theorem Writer.flushed_dataInv {w : Writer} (h : Writer.dataInv w)
    (hrange : w.ofs.toNat + Writer.pad w ≤ maxOfs ∨ w.fill = 0) :
    Writer.dataInv (Writer.flushed w) ∧ (Writer.flushed w).fill = 0 ∧
      (Writer.flushed w).ofs.toNat = w.ofs.toNat + Writer.pad w := by
  rcases Nat.eq_zero_or_pos w.fill with hempty | hpending
  · rw [Writer.flushed_of_empty hempty, Writer.pad, if_pos hempty]
    exact ⟨h, hempty, rfl⟩
  · obtain ⟨hfill, hmax, hmod, hofs, hresv, -⟩ := h
    have hrange : w.ofs.toNat + Writer.pad w ≤ maxOfs := by omega
    have hpad := Writer.pad_of_pos hpending
    have hnew := toNat_add_ofNat hrange
    rw [Writer.flushed_of_pos hpending]
    refine ⟨⟨by simp [Writer.emitted], by simp only [hnew]; exact hrange, ?_, ?_, fun o ho => ?_, fun _ => rfl⟩, rfl, hnew⟩
    · simp only [hnew, Writer.emitted, bs] at *; omega
    · simp only [hnew, Writer.emitted, bs] at *; omega
    · obtain ⟨hblock, hlt⟩ := hresv o ho
      exact ⟨hblock, hlt.trans_le (Nat.le_add_right _ _)⟩

theorem mem_addOffset {offs : List Nat} {off o : Nat} (h : o ∈ addOffset offs off) : o ∈ offs ∨ o = off := by
  unfold addOffset at h
  split_ifs at h
  · exact .inl h
  · simpa using h

/-- The placeholder of a reserve keeps the data path in agreement (41_writer.md R136). -/
theorem Writer.placeholderPut_dataInv {w : Writer} (h : Writer.dataInv w) (hfill : w.fill = 0)
    (hrange : w.ofs.toNat + bs ≤ maxOfs) : Writer.dataInv (Writer.placeholderPut w) := by
  obtain ⟨-, hmax, hmod, hofs, hresv, -⟩ := h
  have hnew : (w.ofs + 8).toNat = w.ofs.toNat + 8 := toNat_add_ofNat hrange
  refine ⟨?_, ?_, ?_, ?_, fun o ho => ?_, fun _ => hfill⟩
  · simp only [Writer.placeholderPut, hfill]; decide
  · simp only [Writer.placeholderPut, hnew]; exact hrange
  · simp only [Writer.placeholderPut, hnew, bs] at *; omega
  · simp only [Writer.placeholderPut, hnew, bs] at *; omega
  · simp only [Writer.placeholderPut]
    rcases mem_addOffset ho with ho | rfl
    · obtain ⟨hblock, hlt⟩ := hresv o ho
      exact ⟨hblock, hlt.trans_le (Nat.le_add_right _ _)⟩
    · exact ⟨hmod.trans hfill, by simp only [bs]; omega⟩

/-- From a fill cursor within the block a flush goes through within the range, or stops with a faulting code. -/
theorem Writer.flush_go_or_faults {w : Writer} (hfill : w.fill ≤ bs) :
    (Writer.flush w = .go (Writer.flushed w) ∧ (w.ofs.toNat + Writer.pad w ≤ maxOfs ∨ w.fill = 0)) ∨
    ∃ c w', Writer.flush w = .stop c w' ∧ Code.setsFault c = true := by
  by_cases hrange : w.ofs.toNat + Writer.pad w ≤ maxOfs ∨ w.fill = 0
  · by_cases hobey : obeysNext w.sink.plan (Writer.flushBlocks w)
    · exact .inl ⟨Writer.flush_eq_flushed hfill hrange hobey, hrange⟩
    · have hpending : w.fill ≠ 0 := fun hempty => hobey (by
        rw [Writer.flushBlocks_of_empty hempty]
        exact obeysNext_zero _)
      obtain ⟨w', hstop, -⟩ := Writer.flush_fail hfill (hrange.resolve_right hpending) hobey
      exact .inr ⟨_, w', hstop, rfl⟩
  · obtain ⟨hpast, hpending⟩ := not_or.1 hrange
    exact .inr ⟨_, w, Writer.flush_undefined (by omega) (by omega), rfl⟩

/-- A rule that left no fault left the data path in agreement. -/
def Writer.dataKept (w' : Writer) : Prop := w'.fault = false → Writer.dataInv w'

theorem Writer.dataKept_raise {c : Code} (hc : Code.setsFault c = true) (v : Word64) (w : Writer) :
    Writer.dataKept (Writer.raise c v w) := fun h => by
  rw [Writer.raise_fault, hc] at h
  cases h

theorem Writer.dataKept_finish {w : Writer} (h : Writer.dataInv w) (c : Code) (v : Word64) :
    Writer.dataKept (Writer.finish c v w) := fun _ => h

section
variable {w : Writer} (h : Writer.dataInv w)
include h

theorem Writer.write_dataKept (s : List Byte) : Writer.dataKept (Writer.write s w) := by
  obtain ⟨hfill, -⟩ := id h
  by_cases hrefused : w.closed = true ∨ w.ofs.toNat + s.length > maxOfs
  · rw [Writer.write_undefined hrefused]
    exact Writer.dataKept_raise rfl _ _
  · obtain ⟨hopen, hrange⟩ := not_or.1 hrefused
    rw [Bool.not_eq_true] at hopen
    rw [not_lt] at hrange
    by_cases hobey : obeysNext w.sink.plan ((w.fill + s.length) / bs)
    · rw [Writer.write_obey hfill hopen hrange hobey]
      exact Writer.dataKept_finish (Writer.advance_dataInv h hopen hrange) _ _
    · obtain ⟨v, -, w', -, hraise⟩ := Writer.write_fail hfill hopen hrange hobey
      rw [hraise]
      exact Writer.dataKept_raise rfl _ _

theorem Writer.flushCommand_dataKept : Writer.dataKept (Writer.flushCommand w) := by
  rcases Writer.flush_go_or_faults h.1.le with ⟨hgo, hrange⟩ | ⟨c, w', hstop, hc⟩
  · obtain ⟨hdata, -⟩ := Writer.flushed_dataInv h hrange
    rw [Writer.flushCommand_of_go hgo]
    exact Writer.dataKept_finish hdata _ _
  · rw [Writer.flushCommand_of_stop hstop]
    exact Writer.dataKept_raise hc _ _

theorem Writer.close_dataKept : Writer.dataKept (Writer.close w) := by
  rcases Writer.flush_go_or_faults h.1.le with ⟨hgo, hrange⟩ | ⟨c, w', hstop, hc⟩
  · obtain ⟨⟨hfill, hmax, hmod, hofs, hresv, -⟩, hempty, -⟩ := Writer.flushed_dataInv h hrange
    rw [Writer.close_of_go hgo]
    exact fun _ => ⟨hfill, hmax, hmod, hofs, hresv, fun _ => hempty⟩
  · rw [Writer.close_of_stop hstop]
    exact Writer.dataKept_raise hc _ _

theorem Writer.reserve_dataKept : Writer.dataKept (Writer.reserve w) := by
  by_cases hrefused : w.closed = true ∨ w.ofs.toNat + Writer.pad w + bs > maxOfs
  · rw [Writer.reserve_undefined hrefused]
    exact Writer.dataKept_raise rfl _ _
  · obtain ⟨hopen, hroom⟩ := not_or.1 hrefused
    rw [Bool.not_eq_true] at hopen
    rw [not_lt] at hroom
    rcases Writer.flush_go_or_faults h.1.le with ⟨hgo, hrange⟩ | ⟨c, w', hstop, hc⟩
    · obtain ⟨hdata, hempty, hofs⟩ := Writer.flushed_dataInv h hrange
      rcases nextAnswer_cases (Writer.flushed w).sink.plan with hobey | hfail
      · rw [Writer.reserve_of_flush_go hopen hroom hgo hobey]
        exact Writer.dataKept_finish (Writer.placeholderPut_dataInv hdata hempty (by rw [hofs]; exact hroom)) _ _
      · rw [Writer.reserve_of_sink_stop hopen hroom hgo (Writer.sinkWrite_fail hfail _)]
        exact Writer.dataKept_raise rfl _ _
    · rw [Writer.reserve_of_flush_stop hopen hroom hstop]
      exact Writer.dataKept_raise hc _ _

theorem Writer.patch_dataKept (payload : List Byte) : Writer.dataKept (Writer.patch payload w) := by
  unfold Writer.patch
  dsimp only
  split_ifs
  · rw [Writer.raise_of_not_setsFault (c := .unsupported) rfl]
    exact Writer.dataKept_finish h _ _
  · exact Writer.dataKept_raise rfl _ _
  · exact Writer.dataKept_raise rfl _ _
  · rcases nextAnswer_cases w.sink.plan with hobey | hfail
    · rw [Writer.sinkWriteAt_obey hobey]
      exact fun _ => h
    · rw [Writer.sinkWriteAt_fail hfail]
      exact Writer.dataKept_raise rfl _ _

theorem writerRule_dataKept {i : Instr} (he : Instr.engine i = .writer) (hb : isBind i = false) :
    Writer.dataKept (writerRule i w) := by
  cases i
  case wBind => cases hb
  case wWrite | wWriteU8 | wWriteI8 | wWriteU16 | wWriteI16 | wWriteU32 | wWriteI32 | wWriteU64 | wWriteI64 =>
    exact Writer.write_dataKept h _
  case wFlush => exact Writer.flushCommand_dataKept h
  case wClose => exact Writer.close_dataKept h
  case wReserve => exact Writer.reserve_dataKept h
  case wPatchBlock | wPatchU8 | wPatchU16 | wPatchU32 | wPatchU64 => exact Writer.patch_dataKept h _
  case wChecksum | wResetChecksum | wBytesWritten => exact fun _ => h
  all_goals cases he

end

/-- A bind leaves an empty data path, and no fault (41_writer.md R122). -/
theorem Writer.bind_inv (c : Bool) {w : Writer} (hwf : Memory.wf w.sink.mem = true) :
    Writer.inv (Writer.bind c w) := by
  have hempty : ∀ w' : Writer, w'.fill = 0 → w'.ofs = 0 → w'.sinkLen = 0 → w'.resv = [] → Writer.dataInv w' := by
    intro w' hfill hofs hlen hresv
    refine ⟨?_, ?_, ?_, ?_, ?_, fun _ => hfill⟩ <;> simp [hfill, hofs, hlen, hresv]
  cases hkey : keyValid w.regs.arg0 with
  | true => rw [Writer.bind_of_valid hkey]; exact Writer.inv_of_dataInv hwf rfl (hempty _ rfl rfl rfl rfl)
  | false => rw [Writer.bind_of_rejected hkey]; exact Writer.inv_of_dataInv hwf rfl (hempty _ rfl rfl rfl rfl)

/-- An unbound writer without a fault meets the invariant, whatever its data path. -/
theorem Writer.inv_of_unbound {w : Writer} (hwf : Memory.wf w.sink.mem = true) (hbound : w.bound = false)
    (hfault : w.fault = false) : Writer.inv w :=
  (Writer.inv_iff w).2 ⟨hwf, fun _ => hfault, fun h => absurd (hbound.symm.trans h) (by decide)⟩

theorem writerRule_inv {i : Instr} {w : Writer} (he : Instr.engine i = .writer) (hb : isBind i = false) {need : Nat}
    (hready : Writer.ready w need) (h : Writer.inv w) : Writer.inv (writerRule i w) := by
  obtain ⟨hbound, hfault, -⟩ := hready
  obtain ⟨hwf, -, hdata⟩ := (Writer.inv_iff w).1 h
  have hkept := writerRule_dataKept (hdata hbound hfault) he hb
  obtain ⟨c, v, w1, hends, ⟨-, hbound', -, -, -, -, -, hwf'⟩, -⟩ := writerRule_endsFrom he hb w
  rw [hends] at hkept ⊢
  have hmem : Memory.wf (Writer.raise c v w1).sink.mem = true := by
    rw [Writer.raise_sink]
    exact hwf' hwf
  cases hf : (Writer.raise c v w1).fault with
  | true => exact Writer.inv_of_fault hmem (by rw [Writer.raise_bound, hbound', hbound]) hf
  | false => exact Writer.inv_of_dataInv hmem hf (hkept hf)

theorem Writer.inv_kept : Writer.Kept Writer.inv where
  regs _ _ h := h
  sink w c h := by
    obtain ⟨-, hrest⟩ := (Writer.inv_iff w).1 h
    exact ⟨Memory.wf_ofCells c.mem, hrest⟩
  reset w h := Writer.inv_of_unbound ((Writer.inv_iff w).1 h).1 rfl rfl
  bind c w h := Writer.bind_inv c ((Writer.inv_iff w).1 h).1
  rule _ _ he hb hready h := writerRule_inv he hb hready h

/-! ### The reader's invariant (10_state.md R34) -/

theorem Reader.inv_iff (r : Reader) : Reader.inv r ↔
    Memory.wf r.source.mem = true ∧ (r.bound = false → r.fault = false) ∧ Reader.curInRange r := Iff.rfl

theorem Reader.raise_curInRange (c : Code) (v : Word64) (dout : List Byte) {r : Reader} (h : Reader.curInRange r) :
    Reader.curInRange (Reader.raise c v dout r) := Reader.raise_cur_range c v dout r h

theorem readerRule_inv {i : Instr} {r : Reader} (he : Instr.engine i = .reader) (hb : isBind i = false)
    (hready : Reader.ready r) (h : Reader.inv r) : Reader.inv (readerRule i r) := by
  obtain ⟨hbound, -⟩ := hready
  obtain ⟨hwf, -, hcur⟩ := (Reader.inv_iff r).1 h
  obtain ⟨c, v, dout, r1, hends, ⟨-, hbound', -, -, -, -, hmem, -⟩, hcur', -⟩ := readerRule_endsFrom he hb r
  rw [hends]
  refine ⟨by rwa [Reader.raise_source, hmem], fun hunbound => ?_, Reader.raise_curInRange _ _ _ (hcur' hcur)⟩
  rw [Reader.raise_bound, hbound', hbound] at hunbound
  cases hunbound

/-- An empty reader without a fault meets the invariant. -/
theorem Reader.inv_of_empty {r : Reader} (hwf : Memory.wf r.source.mem = true) (hfault : r.fault = false)
    (hcur : r.cur = -1) : Reader.inv r := ⟨hwf, fun _ => hfault, Reader.curInRange_of_empty hcur⟩

theorem Reader.bind_inv {r : Reader} (hwf : Memory.wf r.source.mem = true) : Reader.inv (Reader.bind r) := by
  cases hkey : keyValid r.regs.arg0 with
  | true => rw [Reader.bind_of_valid hkey]; exact Reader.inv_of_empty hwf rfl rfl
  | false => rw [Reader.bind_of_rejected hkey]; exact Reader.inv_of_empty hwf rfl rfl

theorem Reader.inv_kept : Reader.Kept Reader.inv where
  regs _ _ h := h
  source r c h := by
    obtain ⟨-, hrest⟩ := (Reader.inv_iff r).1 h
    exact ⟨Memory.wf_ofCells c.mem, hrest⟩
  reset r h := Reader.inv_of_empty ((Reader.inv_iff r).1 h).1 rfl rfl
  bind r h := Reader.bind_inv ((Reader.inv_iff r).1 h).1
  rule _ _ he hb hready h := readerRule_inv he hb hready h

/-! ### The settled statements -/

/-- Settles O17: each engine keeps its invariant in each of the ways a step can touch it. -/
theorem stepKeepsTheInvariant : Obligations.StepKeepsTheInvariant :=
  fun _ _ h hstep => step_keeps Writer.inv_kept Reader.inv_kept h hstep

/-- Settles O18: only a bind loads a key, and it binds with an accepted one. -/
theorem stepKeepsBoundKeysValid : Obligations.StepKeepsBoundKeysValid :=
  fun _ _ h hstep => step_keeps Writer.keyAccepted_kept Reader.keyAccepted_kept h hstep

/-- Settles O16: the one engine pair of power-on is at rest, so both invariants ask little of it. -/
theorem resetMeetsTheInvariant : Obligations.ResetMeetsTheInvariant := by
  have hinsts : State.reset.insts = [Instance.initial 0] := rfl
  refine ⟨rfl, ?_, ?_, ?_⟩
  · intro n hn
    rw [hinsts, List.mem_singleton] at hn
    subst hn
    exact ⟨Writer.inv_of_unbound rfl rfl rfl, Reader.inv_of_empty rfl rfl rfl⟩
  · intro n hn
    rw [hinsts, List.mem_singleton] at hn
    subst hn
    exact ⟨fun h => absurd h (by decide), fun h => absurd h (by decide)⟩
  · intro n hn
    rw [hinsts, List.mem_singleton] at hn
    subst hn
    exact ⟨rfl, rfl⟩

end Sys2Proof.Machine
end

section
/-! The host's side (10_state.md section 4; 30_encoding.md section 5; 70_reset_and_hazards.md): one lemma for each action
of the queue and for each register, and the settled statements about steps, registers, reset, attaching and program
lines. -/

namespace Sys2Proof.Machine

open Sys2Proof.Config

/-! ### Command words at the port (10_state.md R35; 30_encoding.md R89) -/

theorem takeCommand_of_decode {s : State} {k : Nat} {n : Instance} {word : Word32} {i : Instr}
    (hn : s.insts[k]? = some n) (hword : decode word = some i) (written : Engine) (din : List Byte) :
    takeCommand k written word din s = .command i { s with
      sel := k
      insts := s.insts.set k (Instance.latch n written (Instr.engine i) word din) } := by
  simp [takeCommand, hn, hword]

section
variable {s : State} {op : HostOp} {rest : List HostOp} (hhost : s.host = op :: rest)
include hhost

/-- A step at which an action is pending takes it off the queue. -/
theorem step_of_done {o : Host.Outcome State Fault Refusal}
    (h : takeHostOp op { s with host := rest } = .done o) : step s = o := by
  simp [step, fetchHost, hhost, h]

theorem step_of_command {i : Instr} {s' : State} (h : takeHostOp op { s with host := rest } = .command i s') :
    step s = exec i s' := by
  simp [step, fetchHost, hhost, h]

end

/-- The field `UNIT` of a word is the one it was built from (30_encoding.md R80). -/
theorem unitField_commandWord (len : BitVec 16) (c : Bool) (wh : BitVec 2) (s : Bool) (wc unit : BitVec 2)
    (op : BitVec 6) : unitField (commandWord len c wh s wc unit op) = unit := by
  apply BitVec.eq_of_toNat_eq
  rw [unitField, BitVec.extractLsb'_toNat, commandWord_toNat, Nat.shiftRight_eq_div_pow]
  have := unit.isLt
  have := op.isLt
  omega

/-- The field `UNIT` of an engine's words (30_encoding.md R89). -/
def Engine.unit : Engine → BitVec 2
  | .writer => 0#2
  | .reader => 1#2

theorem unitField_encode (i : Instr) : unitField (encode i) = Engine.unit (Instr.engine i) := by
  cases i <;> exact unitField_commandWord _ _ _ _ _ _ _

/-- A word that decodes is reported by the engine of its command, whichever `CMD` it was written to. -/
theorem illegalEngine_of_decode {word : Word32} {i : Instr} (h : decode word = some i) (written : Engine) :
    illegalEngine written word = Instr.engine i := by
  obtain ⟨rfl, -⟩ := decodedWordIsTheEncoding word i h
  have hunit := unitField_encode i
  cases he : Instr.engine i with
  | writer => exact illegalEngine_of_unit_writer (by rw [hunit, he]; rfl) written
  | reader => exact illegalEngine_of_unit_reader (by rw [hunit, he]; rfl) written

/-! ### Reading a register (10_state.md R35 to R40) -/

theorem step_of_read {s : State} {k : Nat} {n : Instance} {e : Engine} {reg : BitVec 4} {rest : List HostOp}
    (hhost : s.host = .read k e reg :: rest) (hn : s.insts[k]? = some n) :
    step s = .next { s with host := rest, hostData := Instance.readReg n e reg } :=
  step_of_done hhost (by simp [takeHostOp, hn])

/-- The registers 6 to 15 read 0 (10_state.md R40). -/
theorem HostRegs.read_of_unused (g : HostRegs) (status config : Word32) {reg : BitVec 4} (h : 6 ≤ reg.toNat) :
    HostRegs.read g status config reg = 0 := by
  have hne : ∀ j : BitVec 4, j.toNat < 6 → reg ≠ j := by
    rintro j hj rfl
    omega
  simp [HostRegs.read, hne 1#4 (by decide), hne 2#4 (by decide), hne 3#4 (by decide), hne 4#4 (by decide),
    hne 5#4 (by decide)]

/-- `STATUS` as a bit string with its fields in their places, most significant first, read as 64 bits (10_state.md R38). -/
theorem statusBits_getLsbD (closed bound fault : Bool) (c : Code) (j : Nat) :
    ((statusBits closed bound fault c).setWidth 64).getLsbD j =
      if j < 4 then (Code.bits c).getLsbD j else if j = 4 then fault else if j = 5 then bound
      else if j = 6 then closed else false := by
  simp only [statusBits, BitVec.getLsbD_setWidth, BitVec.getLsbD_append, BitVec.getLsbD_ofBool, BitVec.getLsbD_zero]
  rcases Nat.lt_or_ge j 7 with hj | hj
  · interval_cases j <;> simp
  · rw [if_neg (show ¬ j < 4 by omega), if_neg (show ¬ j < 4 by omega), if_neg (show ¬ j - 4 < 1 by omega),
      if_neg (show ¬ j - 4 - 1 < 1 by omega), if_neg (show ¬ j - 4 - 1 - 1 < 1 by omega), if_neg (by omega),
      if_neg (by omega), if_neg (by omega)]
    simp

theorem statusBits_code (closed bound fault : Bool) (c : Code) :
    ((statusBits closed bound fault c).setWidth 64).extractLsb' 0 4 = Code.bits c := by
  refine BitVec.eq_of_getLsbD_eq fun j hj => ?_
  rw [BitVec.getLsbD_extractLsb', statusBits_getLsbD]
  simp [hj]

/-- Above its fields `STATUS` reads 0. -/
theorem statusBits_reserved (closed bound fault : Bool) (c : Code) {start len : Nat}
    (h : 7 ≤ start ∨ closed = false ∧ 6 ≤ start) :
    ((statusBits closed bound fault c).setWidth 64).extractLsb' start len = 0 := by
  refine BitVec.eq_of_getLsbD_eq fun j hj => ?_
  rw [BitVec.getLsbD_extractLsb', statusBits_getLsbD, if_neg (by omega), if_neg (by omega), if_neg (by omega)]
  rcases h with h | ⟨rfl, -⟩
  · rw [if_neg (by omega)]; simp
  · simp

/-- `CONFIG` as a bit string, read as 64 bits (10_state.md R39). -/
theorem configBits_getLsbD (compat cap : Bool) (j : Nat) :
    ((configBits compat cap).setWidth 64).getLsbD j = if j = 0 then cap else if j = 1 then compat else false := by
  simp only [configBits, BitVec.getLsbD_setWidth, BitVec.getLsbD_append, BitVec.getLsbD_ofBool, BitVec.getLsbD_zero]
  rcases Nat.lt_or_ge j 2 with hj | hj
  · interval_cases j <;> simp
  · rw [if_neg (show ¬ j < 1 by omega), if_neg (show ¬ j - 1 < 1 by omega), if_neg (by omega), if_neg (by omega)]
    simp

/-- Above its fields `CONFIG` reads 0. -/
theorem configBits_reserved (compat cap : Bool) {start len : Nat} (h : 2 ≤ start ∨ compat = false ∧ 1 ≤ start) :
    ((configBits compat cap).setWidth 64).extractLsb' start len = 0 := by
  refine BitVec.eq_of_getLsbD_eq fun j hj => ?_
  rw [BitVec.getLsbD_extractLsb', configBits_getLsbD, if_neg (by omega)]
  rcases h with h | ⟨rfl, -⟩
  · rw [if_neg (by omega)]; simp
  · simp

/-- The numbers of the status codes (60_exceptions.md R220). -/
theorem Code.bits_toNat : ∀ p ∈ ([(.ok, 0), (.keyError, 1), (.ioError, 2), (.endOfData, 3), (.shortRead, 4),
    (.unsupported, 5), (.notBound, 6), (.illegal, 7), (.faulted, 8), (.undefined, 9)] : List (Code × Nat)),
    (Code.bits p.1).toNat = p.2 := by decide

/-! ### Writing a register (10_state.md R36 to R40) -/

theorem HostRegs.write_eq (g : HostRegs) (reg : BitVec 4) (value : Word64) :
    HostRegs.write g reg value =
      { g with arg0 := if reg = 2#4 then value else g.arg0, arg1 := if reg = 3#4 then value else g.arg1 } := by
  unfold HostRegs.write
  by_cases h2 : reg = 2#4
  · subst h2; rfl
  · by_cases h3 : reg = 3#4
    · subst h3; rfl
    · simp [h2, h3]

theorem State.onInstance_of_some {s : State} {k : Nat} {n : Instance} (hn : s.insts[k]? = some n)
    (f : Instance → Instance) : State.onInstance s k f = .next { s with insts := s.insts.set k (f n) } := by
  simp [State.onInstance, hn]

/-! ### Reset (10_state.md R41; 70_reset_and_hazards.md R250) -/

theorem Instance.hardReset_atReset (n : Instance) : Instance.atReset (Instance.hardReset n) :=
  ⟨⟨rfl, rfl, rfl, rfl, rfl⟩, ⟨rfl, rfl, rfl, rfl, rfl⟩, rfl, rfl, rfl, rfl, rfl, rfl, rfl, rfl, rfl, rfl, rfl, rfl, rfl,
    rfl, rfl⟩

theorem Instance.initial_atReset (k : Nat) : Instance.atReset (Instance.initial k) :=
  Instance.hardReset_atReset (Instance.initial k)

/-! ### Attaching (70_reset_and_hazards.md R252) -/

/-- Below the first offset of a byte space no byte stands. -/
theorem Memory.read_eq_none_of_lt {m : Memory} {a : Nat} (h : ∀ d ∈ m, a < d.1) : Memory.read m a = none := by
  induction m with
  | nil => rfl
  | cons c rest ih =>
    obtain ⟨hlt, hrest⟩ := List.forall_mem_cons.1 h
    rw [Memory.read, if_neg (Nat.ne_of_lt hlt), ih hrest]

/-- Cells in canonical form, put over a byte space: a listed offset reads its cell, every other as before. -/
theorem Memory.read_setAll {cells : List Host.Cell} (h : Memory.wf cells = true) (m : Memory) (a : Nat) :
    Memory.read (Memory.setAll m cells) a = (Memory.read cells a).or (Memory.read m a) := by
  induction cells generalizing m with
  | nil => rfl
  | cons c rest ih =>
    obtain ⟨hlt, hrest⟩ := (Memory.wf_cons _ _).1 h
    obtain ⟨c, x⟩ := c
    show Memory.read (Memory.setAll (Memory.set m c x) rest) a = _
    rw [ih hrest, Memory.read]
    split_ifs with ha
    · rw [ha, Memory.read_eq_none_of_lt hlt, Memory.read_set_same]
      rfl
    · rw [Memory.read_set_other _ _ ha]

/-- A byte space in canonical form is the one its cells describe. -/
theorem Memory.ofCells_of_wf {m : Memory} (h : Memory.wf m = true) : Memory.ofCells m = m :=
  Memory.ext_of_read (Memory.wf_ofCells m) h fun a => by
    rw [Memory.ofCells, Memory.read_setAll h]
    exact Option.or_none

/-! ### Long transfers (30_encoding.md R94) -/

theorem maxLen_eq : maxLen = 65535 := rfl

/-- The pieces' bytes in order are the line's. -/
theorem writePieces_din {pieces : Nat} {bytes : List Byte} (h : bytes.length ≤ pieces) :
    (writePieces pieces bytes).flatMap Line.din = bytes := by
  induction pieces generalizing bytes with
  | zero =>
    obtain rfl : bytes = [] := List.length_eq_zero_iff.1 (by omega)
    rfl
  | succ pieces ih =>
    cases bytes with
    | nil => rfl
    | cons b rest =>
      have hlen : ((b :: rest).drop maxLen).length ≤ pieces := by
        simp only [List.length_drop, List.length_cons, maxLen_eq] at h ⊢
        omega
      rw [writePieces, List.flatMap_cons, ih hlen]
      exact List.take_append_drop _ _

/-- One `W.WRITE` of 65535 bytes for each whole 65535, then one of the rest. -/
theorem writePieces_instr {pieces : Nat} {bytes : List Byte} (h : bytes.length ≤ pieces) :
    (writePieces pieces bytes).map Line.instr? =
      List.replicate (bytes.length / 65535) (some (.wWrite 65535)) ++
        if bytes.length % 65535 = 0 then [] else [some (.wWrite (bytes.length % 65535))] := by
  induction pieces generalizing bytes with
  | zero =>
    obtain rfl : bytes = [] := List.length_eq_zero_iff.1 (by omega)
    simp [writePieces]
  | succ pieces ih =>
    cases hbytes : bytes with
    | nil => simp [writePieces]
    | cons b rest =>
      rw [writePieces, ← hbytes, List.map_cons]
      have hpos : 0 < bytes.length := by simp [hbytes]
      have hdrop : (bytes.drop maxLen).length = bytes.length - 65535 := by rw [List.length_drop, maxLen_eq]
      have hfirst : Line.instr? (.wWrite (bytes.take maxLen)) = some (.wWrite (min 65535 bytes.length)) := by
        rw [Line.instr?, List.length_take, maxLen_eq]
      rw [hfirst, ih (by omega), hdrop]
      by_cases hlong : 65535 ≤ bytes.length
      · rw [min_eq_left hlong, show bytes.length / 65535 = (bytes.length - 65535) / 65535 + 1 by omega,
          show bytes.length % 65535 = (bytes.length - 65535) % 65535 by omega, List.replicate_succ, List.cons_append]
      · have hlt : bytes.length < 65535 := by omega
        rw [min_eq_right hlt.le, Nat.sub_eq_zero_of_le hlt.le, Nat.div_eq_of_lt hlt, Nat.mod_eq_of_lt hlt,
          if_neg hpos.ne']
        simp

theorem readPieces_instr (n : Nat) :
    (readPieces n).map Line.instr? =
      List.replicate (n / 65535) (some (.rRead 65535)) ++
        if n % 65535 = 0 then [] else [some (.rRead (n % 65535))] := by
  rw [readPieces, maxLen_eq, List.map_append, List.map_replicate]
  split_ifs <;> rfl

theorem assemble_of_expand {line first : Line} {rest : List Line} (h : Line.expand line = first :: rest) (k : Nat) :
    assemble k [line] = Line.actions k first ++ (rest.flatMap (Line.actions k)).map HostOp.later := by
  rw [assemble, List.flatMap_cons, List.flatMap_nil, List.append_nil, h, piecesActions]

/-- A line's actions follow from what it expands to. -/
theorem assemble_congr {line line' : Line} (h : Line.expand line = Line.expand line') (k : Nat) :
    assemble k [line] = assemble k [line'] := by
  simp only [assemble, List.flatMap_cons, List.flatMap_nil, h]

/-- A later piece is a command where the last one finished OK, and nothing where it did not. -/
theorem step_of_resume {s : State} {k : Nat} {n : Instance} {e : Engine} {word : Word32} {din : List Byte}
    {ops : List HostOp} (hhost : s.host = .resume k e word din :: ops) (hn : s.insts[k]? = some n) :
    step s = if Instance.lastCode n e = .ok then step { s with host := .command k e word din :: ops }
      else .next { s with host := ops } := by
  split_ifs with hok
  · simp [step, fetchHost, hhost, takeHostOp, hn, hok]
  · exact step_of_done hhost (by simp [takeHostOp, hn, hok])

/-! ### The settled statements -/

/-- Settles O7: the word is taken from the queue, latched and decoded. -/
theorem stepRunsTheDecodedCommand : Obligations.StepRunsTheDecodedCommand :=
  fun s _ _ e _ din rest _ hhost hn hword =>
    step_of_command hhost (takeCommand_of_decode (s := { s with host := rest }) hn hword e din)

/-- Settles O8: register 0 is `CMD`. -/
theorem registerZeroWriteStartsTheCommand : Obligations.RegisterZeroWriteStartsTheCommand :=
  fun s _ _ e _ rest _ hhost hn hword =>
    step_of_command hhost (takeCommand_of_decode (s := { s with host := rest }) hn hword e [])

/-- Settles O9: the placed action is a command at the engine of its word. -/
theorem placedWordIsTheNextCommand : Obligations.PlacedWordIsTheNextCommand := by
  intro s n nbits w i hcur hword
  have hhost : (State.withFetchWord s nbits w).host =
      .command s.sel (Instr.engine i) (BitVec.ofNat 32 (w % 2 ^ nbits)) (List.replicate (Instr.dinBytes i) 0) ::
        s.host := by
    simp only [State.withFetchWord, placeCommand, hword, illegalEngine_of_decode hword]
  exact stepRunsTheDecodedCommand _ _ n _ _ _ _ i hhost hcur hword

/-- Settles O11: register by register, the fields of `STATUS` and `CONFIG` by their bits. -/
theorem writerRegistersRead : Obligations.WriterRegistersRead := by
  intro s k n reg rest hhost hn
  refine ⟨_, step_of_read hhost hn, ?_, ?_, ?_, ?_, ?_, ?_, HostRegs.read_of_unused _ _ _⟩
  · rintro rfl; rfl
  · rintro rfl
    refine ⟨fun p hp hcode => ?_, ?_, ?_, ?_, statusBits_reserved _ _ _ _ (.inl le_rfl)⟩
    · rw [← Code.bits_toNat p hp, ← hcode]
      exact congrArg BitVec.toNat (statusBits_code _ _ _ _)
    · exact statusBits_getLsbD _ _ _ _ 4
    · exact statusBits_getLsbD _ _ _ _ 5
    · exact statusBits_getLsbD _ _ _ _ 6
  · rintro rfl; rfl
  · rintro rfl; rfl
  · rintro rfl; rfl
  · rintro rfl
    exact ⟨configBits_getLsbD _ _ 0, configBits_getLsbD _ _ 1, configBits_reserved _ _ (.inl le_rfl)⟩

/-- Settles O12: register by register, the fields of `STATUS` and `CONFIG` by their bits. -/
theorem readerRegistersRead : Obligations.ReaderRegistersRead := by
  intro s k n reg rest hhost hn
  refine ⟨_, step_of_read hhost hn, ?_, ?_, ?_, ?_, ?_, ?_, HostRegs.read_of_unused _ _ _⟩
  · rintro rfl; rfl
  · rintro rfl
    refine ⟨fun p hp hcode => ?_, ?_, ?_, statusBits_reserved _ _ _ _ (.inr ⟨rfl, le_rfl⟩)⟩
    · rw [← Code.bits_toNat p hp, ← hcode]
      exact congrArg BitVec.toNat (statusBits_code _ _ _ _)
    · exact statusBits_getLsbD _ _ _ _ 4
    · exact statusBits_getLsbD _ _ _ _ 5
  · rintro rfl; rfl
  · rintro rfl; rfl
  · rintro rfl; rfl
  · rintro rfl
    exact ⟨configBits_getLsbD _ _ 0, configBits_reserved _ _ (.inr ⟨rfl, le_rfl⟩)⟩

/-- Settles O13: `HostRegs.write_eq` at the addressed engine. -/
theorem registerWritesReachOnlyTheArguments : Obligations.RegisterWritesReachOnlyTheArguments := by
  intro s k n e reg value rest hhost hn hreg
  refine step_of_done hhost ?_
  simp only [takeHostOp, if_neg hreg, HostRegs.write_eq]
  rw [State.onInstance_of_some (s := { s with host := rest }) hn]

/-- Settles O14: every engine pair is reset in place. -/
theorem hardwareResetGivesTheResetValues : Obligations.HardwareResetGivesTheResetValues := by
  refine ⟨fun n hn => ?_, fun s rest hhost => ?_⟩
  · obtain ⟨k, -, rfl⟩ := List.mem_map.1 hn
    exact Instance.initial_atReset k
  · refine ⟨_, step_of_done hhost rfl, rfl, rfl, rfl, List.length_map _, fun k n hn => ?_⟩
    exact ⟨Instance.hardReset n, by simp [hn], Instance.hardReset_atReset n, rfl, rfl⟩

/-- Settles O15: bytes in canonical form stand as they are. -/
theorem attachingReachesOnlyThePort : Obligations.AttachingReachesOnlyThePort := by
  refine fun s k n rest hn => ⟨fun c hwf hhost => ?_, fun c hwf hhost => ?_, fun hhost => ?_⟩
  · refine step_of_done hhost ?_
    rw [takeHostOp, State.onInstance_of_some (s := { s with host := rest }) hn, Instance.attachSink,
      Memory.ofCells_of_wf hwf]
  · refine step_of_done hhost ?_
    rw [takeHostOp, State.onInstance_of_some (s := { s with host := rest }) hn, Instance.attachSource,
      Memory.ofCells_of_wf hwf]
  · simp [step, fetchHost, hhost]

/-- Settles O59: the pieces by induction on their count, then the step of a later piece. -/
theorem longTransfersExpandToPieces : Obligations.LongTransfersExpandToPieces :=
  ⟨fun _ => ⟨writePieces_din le_rfl, writePieces_instr le_rfl⟩, readPieces_instr,
    fun k _ _ _ h => assemble_of_expand h k, fun _ _ _ _ _ _ _ hhost hn => step_of_resume hhost hn⟩

/-- Settles O60: equal expansions, and the words of the four patches. -/
theorem pseudoInstructionsExpand : Obligations.PseudoInstructionsExpand := by
  refine ⟨assemble_congr rfl, fun k n => assemble_congr rfl k, fun k width off v => assemble_congr rfl k,
    fun k b => assemble_congr rfl k, ?_⟩
  simp only [List.forall_mem_cons, List.not_mem_nil, false_implies, implies_true, and_true]
  exact ⟨fun _ _ _ => rfl, fun _ _ _ => rfl, fun _ _ _ => rfl, fun _ _ _ => rfl⟩

end Sys2Proof.Machine
end

section
/-! Byte strings, byte spaces and the checksum (20_memory.md; 40_checksum.md): the linearity of the bit step, the worth of
little-endian bytes, and the settled statements. -/

namespace Sys2Proof.Machine

open Sys2Proof.Config

/-! ### The bit steps of the checksum (40_checksum.md R100, R102) -/

/-- A summand with no bit at the bottom is only shifted, as the polynomial follows the bottom bit alone. -/
theorem crcShift_xor (poly x : Word32) {y : Word32} (h : y.getLsbD 0 = false) :
    crcShift poly (x ^^^ y) = crcShift poly x ^^^ (y >>> 1) := by
  unfold crcShift
  rw [BitVec.getLsbD_xor, h, Bool.xor_false, BitVec.ushiftRight_xor_distrib]
  split_ifs
  · rw [BitVec.xor_assoc, BitVec.xor_assoc, BitVec.xor_comm poly]
  · rfl

/-- Over `n` steps a summand whose low `n` bits are 0 is only shifted. -/
theorem crcShifts_xor (poly : Word32) {n : Nat} (x : Word32) {y : Word32} (h : ∀ j < n, y.getLsbD j = false) :
    crcShifts poly n (x ^^^ y) = crcShifts poly n x ^^^ (y >>> n) := by
  induction n generalizing x y with
  | zero => simp [crcShifts]
  | succ n ih =>
    have hshift : ∀ j < n, (y >>> 1).getLsbD j = false := fun j hj => by
      rw [BitVec.getLsbD_ushiftRight]
      exact h _ (by omega)
    rw [crcShifts, crcShifts, crcShift_xor poly x (h 0 (Nat.succ_pos n)), ih _ hshift, BitVec.shiftRight_add y 1 n |>.symm,
      Nat.add_comm 1 n]

/-- The accumulator with a byte combined, as its low byte and the bits above it. -/
theorem xor_setWidth_split (c : Word32) (b : Byte) :
    c ^^^ b.setWidth 32 = (c.setWidth 8 ^^^ b).setWidth 32 ^^^ ((c >>> 8) <<< 8) := by
  refine BitVec.eq_of_getLsbD_eq fun j hj => ?_
  simp only [BitVec.getLsbD_xor, BitVec.getLsbD_setWidth, BitVec.getLsbD_shiftLeft, BitVec.getLsbD_ushiftRight]
  by_cases h : j < 8
  · simp [h, hj]
  · simp [h, hj, show 8 + (j - 8) = j by omega, BitVec.getLsbD_of_ge b j (by omega)]

theorem shiftLeft_ushiftRight_eight (c : Word32) : ((c >>> 8) <<< 8) >>> 8 = c >>> 8 := by
  refine BitVec.eq_of_getLsbD_eq fun j hj => ?_
  simp only [BitVec.getLsbD_shiftLeft, BitVec.getLsbD_ushiftRight]
  by_cases h : 8 + j < 32
  · simp [h]
  · simp [h, BitVec.getLsbD_of_ge c (8 + j) (by omega)]

/-! ### Little-endian byte strings (00_scope.md R16) -/

theorem leBytes_getD (n : Nat) (v : Word64) {j : Nat} (h : j < n) :
    (leBytes n v).getD j 0 = v.extractLsb' (8 * j) 8 := by
  simp [leBytes, h]

theorem leBytes_succ (n : Nat) (v : Word64) : leBytes (n + 1) v = leBytes n v ++ [v.extractLsb' (8 * n) 8] := by
  simp [leBytes, List.range_succ]

theorem leValue_append_singleton (s : List Byte) (b : Byte) :
    leValue (s ++ [b]) = leValue s + 256 ^ s.length * b.toNat := by
  induction s with
  | nil => simp [leValue]
  | cons x s ih => rw [List.cons_append, leValue, leValue, ih, List.length_cons, pow_succ]; ring

theorem leValue_leBytes (n : Nat) (v : Word64) : leValue (leBytes n v) = v.toNat % 256 ^ n := by
  induction n with
  | zero => simp [leBytes, leValue, Nat.mod_one]
  | succ n ih =>
    rw [leBytes_succ, leValue_append_singleton, ih, leBytes_length, Nat.mod_pow_succ, BitVec.extractLsb'_toNat,
      Nat.shiftRight_eq_div_pow, pow_mul, show 2 ^ 8 = 256 from rfl]

/-! ### The settled statements -/

/-- Settles O27: a fold over the bytes, with complements that cancel. -/
theorem checksumMayBeSplit : Obligations.ChecksumMayBeSplit := by
  refine fun poly c a b => ⟨crcLegacy_append poly c a b, ?_, ?_⟩
  · rw [crcStandard, crcStandard, crcStandard, BitVec.not_not, crcLegacy_append]
  · rw [crcVisible, crcStandard, show (~~~(0 : Word32)) = crcInit by decide]

/-- Settles O28: eight steps shift the upper bits down and look the low byte up. -/
theorem tableStepIsEightBitSteps : Obligations.TableStepIsEightBitSteps := by
  intro poly c b
  have hlow : ∀ j < 8, ((c >>> 8) <<< 8).getLsbD j = false := fun j hj => by simp [hj]
  rw [xor_setWidth_split, crcShifts_xor poly _ hlow, shiftLeft_ushiftRight_eight]
  rfl

/-- Settles O26: the functions run on the printed inputs. -/
theorem checksumVectorsAgree : Obligations.ChecksumVectorsAgree := by
  unfold Obligations.ChecksumVectorsAgree
  decide +kernel

/-- Settles O29: byte by byte, and the worth by the last byte. -/
theorem littleEndianBytesRoundTrip : Obligations.LittleEndianBytesRoundTrip := by
  refine fun n v _ => ⟨leBytes_length n v, fun j k hj hk => ?_, leValue_leBytes n v⟩
  rw [leBytes_getD n v hj, BitVec.getLsbD_extractLsb', decide_eq_true hk, Bool.true_and]

/-- Settles O30: the laws of the byte spaces. -/
theorem writtenBytesReadBack : Obligations.WrittenBytesReadBack :=
  fun m a bytes => ⟨fun j hj => Memory.read_write_inside bytes m a j hj, fun _ hc => Memory.read_write_outside bytes m hc,
    fun hwf => Memory.wf_write a bytes hwf, fun _ hm hk => Memory.ext_of_read hm hk⟩

end Sys2Proof.Machine
end

section
/-! The value writes, the close and the patches (41_writer.md sections 3 to 5), and what a command leaves of the sink's
bytes (20_memory.md section 1). -/

namespace Sys2Proof.Machine

open Sys2Proof.Config

/-! ### The value writes (41_writer.md R124) -/

/-- Every value write is `Writer.write` of the low bytes of `ARG0`. -/
theorem writerRule_of_valueWrite : ∀ p ∈ valueWrites, Instr.engine p.1 = .writer ∧ isBind p.1 = false ∧
    Instr.dinBytes p.1 = 0 ∧ ∀ w, writerRule p.1 w = Writer.write (leBytes (Width.bytes p.2) w.regs.arg0) w := by
  simp only [valueWrites, List.forall_mem_cons, List.not_mem_nil, false_implies, implies_true, and_true]
  and_intros <;> (intros; rfl)

/-! ### A patch, check by check (41_writer.md R137) -/

theorem Writer.reserved_iff (w : Writer) (off : Int) :
    Writer.reserved w off = true ↔ ∃ o ∈ w.resv, (o : Int) = off := by
  simp [Writer.reserved]

section
variable {w : Writer}

/-- A closed writer and an offset that no reserve returned are refused with no call of the sink. -/
theorem Writer.patch_undefined (hra : w.ra = true)
    (h : w.closed = true ∨ ∀ off ∈ w.resv, w.regs.arg0.toInt ≠ off) (payload : List Byte) :
    Writer.patch payload w = Writer.raise .undefined 0 w := by
  unfold Writer.patch
  dsimp only
  rw [if_neg (by rw [hra]; decide)]
  by_cases hclosed : w.closed = true
  · rw [if_pos hclosed]
  · have hnot : Writer.reserved w (offsetOperand w.regs.arg0) = false := by
      rw [← Bool.not_eq_true, Writer.reserved_iff]
      rintro ⟨o, ho, heq⟩
      exact h.resolve_left hclosed o ho heq.symm
    rw [if_neg hclosed, if_pos hnot]

variable (hra : w.ra = true) (hopen : w.closed = false) {off : Nat} (hmem : off ∈ w.resv)
  (harg : w.regs.arg0.toInt = off)
include hra hopen hmem harg

/-- Past its checks a patch is one call of the sink at the offset. -/
theorem Writer.patch_of_sink_go {payload : List Byte} {w' : Writer}
    (h : Writer.sinkWriteAt w off (blockBytes (enc w.key (blockOfBytes payload))) = .go w') :
    Writer.patch payload w = Writer.finish .ok 0 w' := by
  have hres : Writer.reserved w (offsetOperand w.regs.arg0) = true :=
    (Writer.reserved_iff _ _).2 ⟨off, hmem, harg.symm⟩
  have hoff : (offsetOperand w.regs.arg0).toNat = off := by rw [offsetOperand, harg, Int.toNat_natCast]
  simp [Writer.patch, hra, hopen, hres, hoff, h]

/-- The code of that call is the command's. -/
theorem Writer.patch_of_sink_stop {payload : List Byte} {c : Code} {w' : Writer}
    (h : Writer.sinkWriteAt w off (blockBytes (enc w.key (blockOfBytes payload))) = .stop c w') :
    Writer.patch payload w = Writer.raise c 0 w' := by
  have hres : Writer.reserved w (offsetOperand w.regs.arg0) = true :=
    (Writer.reserved_iff _ _).2 ⟨off, hmem, harg.symm⟩
  have hoff : (offsetOperand w.regs.arg0).toNat = off := by rw [offsetOperand, harg, Int.toNat_natCast]
  simp [Writer.patch, hra, hopen, hres, hoff, h]

theorem Writer.patch_obey (ha : nextAnswer w.sink.plan = .obey) (payload : List Byte) :
    Writer.patch payload w = Writer.finish .ok 0 (Writer.patched w off payload) :=
  Writer.patch_of_sink_go hra hopen hmem harg (Writer.sinkWriteAt_obey ha off _)

/-- What a failing sink leaves: free bytes in the block, and the rest of the writer. -/
theorem Writer.patch_fail (ha : nextAnswer w.sink.plan = .fail) (payload : List Byte) :
    ∃ w', Writer.patch payload w = Writer.raise .ioError 0 w' ∧ Writer.sameControl w w' ∧
      w'.sink.pos = w.sink.pos ∧ ∃ cells, w'.sink.mem = Memory.scramble w.sink.mem off bs cells := by
  have hsink := Writer.sinkWriteAt_fail ha off (blockBytes (enc w.key (blockOfBytes payload)))
  rw [blockBytes_length] at hsink
  refine ⟨_, Writer.patch_of_sink_stop hra hopen hmem harg hsink, ?_, rfl, _, rfl⟩
  exact ⟨rfl, rfl, rfl, rfl, rfl, rfl, rfl, rfl, rfl⟩

end

/-- All a patch can come to: a code of its checks with nothing moved, or the sink's answer to the call at the reserved
offset. -/
theorem Writer.patch_cases (payload : List Byte) (w : Writer) :
    (∃ c, (c = .unsupported ∨ c = .undefined) ∧ Writer.patch payload w = Writer.raise c 0 w) ∨
    (∃ off : Nat, w.regs.arg0.toInt = off ∧
      Writer.patch payload w = Writer.finish .ok 0 (Writer.patched w off payload)) ∨
    (∃ off : Nat, w.regs.arg0.toInt = off ∧ ∃ w', Writer.patch payload w = Writer.raise .ioError 0 w' ∧
      w'.sink.pos = w.sink.pos ∧ ∃ cells, w'.sink.mem = Memory.scramble w.sink.mem off bs cells) := by
  cases hra : w.ra with
  | false =>
    refine .inl ⟨.unsupported, .inl rfl, ?_⟩
    rw [Writer.patch_unsupported hra, Writer.raise_of_not_setsFault rfl]
  | true =>
    by_cases hrefused : w.closed = true ∨ ∀ off ∈ w.resv, w.regs.arg0.toInt ≠ off
    · exact .inl ⟨.undefined, .inr rfl, Writer.patch_undefined hra hrefused payload⟩
    · obtain ⟨hopen, hres⟩ := not_or.1 hrefused
      rw [Bool.not_eq_true] at hopen
      push Not at hres
      obtain ⟨off, hmem, harg⟩ := hres
      rcases nextAnswer_cases w.sink.plan with ha | ha
      · exact .inr (.inl ⟨off, harg, Writer.patch_obey hra hopen hmem harg ha payload⟩)
      · obtain ⟨w', hraise, -, hsink⟩ := Writer.patch_fail hra hopen hmem harg ha payload
        exact .inr (.inr ⟨off, harg, w', hraise, hsink⟩)

/-- The outcomes of a command that patches `payload`, in the order of its checks. -/
theorem exec_patch_outcomes {i : Instr} {s : State} {n : Instance} {payload : List Byte}
    (hexec : exec i s = .next (State.setW s n (Writer.patch payload n.w))) :
    (n.w.ra = false → exec i s = .next (State.setW s n (Writer.finish .unsupported 0 n.w))) ∧
    (n.w.ra = true → ∀ off ∈ n.w.resv, n.w.regs.arg0.toInt = off → n.w.closed = false →
      nextAnswer n.w.sink.plan = .obey →
      exec i s = .next (State.setW s n (Writer.finish .ok 0 (Writer.patched n.w off payload)))) ∧
    (n.w.ra = true → n.w.closed = true ∨ (∀ off ∈ n.w.resv, n.w.regs.arg0.toInt ≠ off) →
      ∃ w', exec i s = .next (State.setW s n w') ∧ Writer.faultsWith n.w .undefined 0 w' ∧ w'.sink = n.w.sink) ∧
    (n.w.ra = true → ∀ off ∈ n.w.resv, n.w.regs.arg0.toInt = off → n.w.closed = false →
      nextAnswer n.w.sink.plan = .fail →
      ∃ w', exec i s = .next (State.setW s n w') ∧ Writer.faultsWith n.w .ioError 0 w') := by
  rw [hexec]
  refine ⟨fun hra => ?_, fun hra off hmem harg hopen ha => ?_, fun hra hrefused => ?_,
    fun hra off hmem harg hopen ha => ?_⟩
  · rw [Writer.patch_unsupported hra]
  · rw [Writer.patch_obey hra hopen hmem harg ha]
  · rw [Writer.patch_undefined hra hrefused]
    exact ⟨_, rfl, Writer.raise_faultsWith rfl 0 (.refl n.w), Writer.raise_sink _ _ _⟩
  · obtain ⟨w', hraise, hcontrol, -⟩ := Writer.patch_fail hra hopen hmem harg ha payload
    rw [hraise]
    exact ⟨_, rfl, Writer.raise_faultsWith rfl 0 hcontrol⟩

/-- Every value patch is `Writer.patch` of the zero-padded bytes of `ARG1`. -/
theorem writerRule_of_valuePatch : ∀ p ∈ valuePatches, Instr.engine p.1 = .writer ∧ isBind p.1 = false ∧
    Instr.dinBytes p.1 = 0 ∧ ∀ w, writerRule p.1 w = Writer.patch
      (leBytes (Width.bytes p.2) w.regs.arg1 ++ List.replicate (bs - Width.bytes p.2) 0) w := by
  simp only [valuePatches, List.forall_mem_cons, List.not_mem_nil, false_implies, implies_true, and_true]
  and_intros <;> (intros; rfl)

/-- Every patch is `Writer.patch` of the bytes that the statements call its payload. -/
theorem writerRule_patchBytes : ∀ i ∈ ([.wPatchBlock, .wPatchU8, .wPatchU16, .wPatchU32, .wPatchU64] : List Instr),
    Instr.engine i = .writer ∧ isBind i = false ∧
      ∀ w, writerRule i w = Writer.patch (Writer.patchBytes w i) w := by
  simp only [List.forall_mem_cons, List.not_mem_nil, false_implies, implies_true, and_true]
  and_intros <;> (intros; rfl)

/-! ### What a patch leaves of the byte space (20_memory.md R53, R72) -/

theorem Memory.read_padTo_below {m : Memory} {a c : Nat} (h : c < Memory.length m ∨ a ≤ c) :
    Memory.read (Memory.padTo m a) c = Memory.read m c :=
  Memory.read_write_outside _ _ (by rw [List.length_replicate]; omega)

/-- Between the space's end and the offset the padding stands. -/
theorem Memory.read_padTo_inside {m : Memory} {a c : Nat} (h : Memory.length m ≤ c) (hc : c < a) :
    Memory.read (Memory.padTo m a) c = some 0 := by
  have hread := Memory.read_write_inside (List.replicate (a - Memory.length m) 0) m (Memory.length m)
    (c - Memory.length m) (by rw [List.length_replicate]; omega)
  rw [Nat.add_sub_cancel' h] at hread
  rw [Memory.padTo, hread, List.getElem?_replicate, if_pos (by omega)]

section
variable (m : Memory) (a : Nat) (bytes : List Byte)

theorem Memory.read_writeAt_inside {j : Nat} (h : j < bytes.length) :
    Memory.read (Memory.writeAt m a bytes) (a + j) = bytes[j]? := by
  unfold Memory.writeAt
  split_ifs <;> exact Memory.read_write_inside bytes _ a j h

/-- Behind the bytes, and before them where the space reached, a byte is as it was. -/
theorem Memory.read_writeAt_outside {c : Nat} (h : c < a ∧ c < Memory.length m ∨ a + bytes.length ≤ c) :
    Memory.read (Memory.writeAt m a bytes) c = Memory.read m c := by
  unfold Memory.writeAt
  split_ifs
  · rw [Memory.read_write_outside _ _ (by omega), Memory.read_padTo_below (by omega)]
  · exact Memory.read_write_outside _ _ (by omega)

theorem Memory.read_writeAt_padding {c : Nat} (h : Memory.length m ≤ c) (hc : c < a) :
    Memory.read (Memory.writeAt m a bytes) c = some 0 := by
  rw [Memory.writeAt, if_pos (by omega), Memory.read_write_outside _ _ (.inl hc), Memory.read_padTo_inside h hc]

end

theorem Memory.read_setAll_other {cells : List Host.Cell} {c : Nat} (h : ∀ d ∈ cells, d.1 ≠ c) (m : Memory) :
    Memory.read (Memory.setAll m cells) c = Memory.read m c := by
  induction cells generalizing m with
  | nil => rfl
  | cons d rest ih =>
    obtain ⟨hd, hrest⟩ := List.forall_mem_cons.1 h
    exact (ih hrest _).trans (Memory.read_set_other m d.2 (Ne.symm hd))

/-- Dropping cells of other offsets leaves what an offset reads. -/
theorem Memory.read_filter {p : Host.Cell → Bool} {c : Nat} (h : ∀ x, p (c, x) = true) (m : Memory) :
    Memory.read (m.filter p) c = Memory.read m c := by
  induction m with
  | nil => rfl
  | cons d rest ih =>
    obtain ⟨d, x⟩ := d
    rw [List.filter_cons]
    by_cases hd : c = d
    · rw [← hd, if_pos (h x), Memory.read, Memory.read, if_pos rfl, if_pos rfl]
    · split_ifs
      · rw [Memory.read, Memory.read, if_neg hd, if_neg hd, ih]
      · rw [Memory.read, if_neg hd, ih]

theorem Memory.read_scramble_outside (m : Memory) {a n c : Nat} (cells : List Host.Cell) (h : c < a ∨ a + n ≤ c) :
    Memory.read (Memory.scramble m a n cells) c = Memory.read m c := by
  rw [Memory.scramble, Memory.read_setAll_other, Memory.read_filter fun _ => decide_eq_true h]
  intro d hd
  have := of_decide_eq_true (List.mem_filter.1 hd).2
  omega

/-! ### What a stream command appends (20_memory.md R52, R64, R65) -/

/-- The sink of `w'` is that of `w` once `k` bytes were written from its position on. -/
def Writer.appended (w w' : Writer) (k : Nat) : Prop :=
  ∃ bytes : List Byte, bytes.length = k ∧ w'.sink.pos = w.sink.pos + k ∧
    w'.sink.mem = Memory.write w.sink.mem w.sink.pos bytes

theorem Writer.appended_of_sink_eq {w w' : Writer} (h : w'.sink = w.sink) : Writer.appended w w' 0 :=
  ⟨[], rfl, by rw [h]; rfl, by rw [h]; rfl⟩

theorem Writer.appended.trans {w w' w'' : Writer} {k k' : Nat} (h : Writer.appended w w' k)
    (h' : Writer.appended w' w'' k') : Writer.appended w w'' (k + k') := by
  obtain ⟨bytes, hlen, hpos, hmem⟩ := h
  obtain ⟨bytes', hlen', hpos', hmem'⟩ := h'
  refine ⟨bytes ++ bytes', by rw [List.length_append, hlen, hlen'], by rw [hpos', hpos, Nat.add_assoc], ?_⟩
  rw [hmem', hmem, hpos, Memory.write_append, hlen]

/-- The bytes appended are there, and every other byte is as it was. -/
theorem Writer.appended.reads {w w' : Writer} {k : Nat} (h : Writer.appended w w' k) :
    w'.sink.pos = w.sink.pos + k ∧
    (∀ a, a < w.sink.pos ∨ w.sink.pos + k ≤ a → Memory.read w'.sink.mem a = Memory.read w.sink.mem a) ∧
    (∀ a, w.sink.pos ≤ a → a < w.sink.pos + k → Memory.read w'.sink.mem a ≠ none) := by
  obtain ⟨bytes, hlen, hpos, hmem⟩ := h
  refine ⟨hpos, fun a ha => ?_, fun a hle hlt => ?_⟩
  · rw [hmem, Memory.read_write_outside _ _ (by rwa [hlen])]
  · have hread := Memory.read_write_inside bytes w.sink.mem w.sink.pos (a - w.sink.pos) (by omega)
    rw [Nat.add_sub_cancel' hle] at hread
    rw [hmem, hread, List.getElem?_eq_getElem (by omega)]
    exact Option.some_ne_none _

theorem Writer.advance_appended {w : Writer} (hfill : w.fill ≤ bs) (s : List Byte) :
    Writer.appended w (Writer.advance w s) (bs * ((w.fill + s.length) / bs)) := by
  have hlen : (Writer.pending w ++ s).length = w.fill + s.length := by
    rw [List.length_append, Writer.pending_length hfill]
  rw [← hlen]
  exact ⟨_, encBlocks_length _ _ _, rfl, rfl⟩

theorem Writer.flushed_appended (w : Writer) :
    Writer.appended w (Writer.flushed w) (bs * Writer.flushBlocks w) := by
  rcases Nat.eq_zero_or_pos w.fill with hempty | hpending
  · rw [Writer.flushed_of_empty hempty, Writer.flushBlocks_of_empty hempty]
    exact Writer.appended_of_sink_eq rfl
  · rw [Writer.flushed_of_pos hpending, Writer.flushBlocks_of_pos hpending]
    exact ⟨_, blockBytes_length _, rfl, rfl⟩

theorem Writer.placeholderPut_appended (w : Writer) : Writer.appended w (Writer.placeholderPut w) bs :=
  ⟨_, List.length_replicate, rfl, rfl⟩

theorem Writer.raise_code (c : Code) (v : Word64) (w : Writer) : (Writer.raise c v w).regs.code = c := by
  rw [Writer.raise_regs, HostRegs.finish_code]

/-- A faulting code is not OK. -/
theorem Code.ne_ok_of_setsFault {c : Code} (h : Code.setsFault c = true) : c ≠ .ok := by
  rintro rfl
  cases h

section
variable {w : Writer} (hfill : w.fill < bs)
include hfill

/-- A write that finishes OK took its bytes. -/
theorem Writer.write_of_ok {s : List Byte} (h : (Writer.write s w).regs.code = .ok) :
    Writer.write s w = Writer.finish .ok (BitVec.ofNat 64 s.length) (Writer.advance w s) := by
  by_cases hrefused : w.closed = true ∨ w.ofs.toNat + s.length > maxOfs
  · rw [Writer.write_undefined hrefused, Writer.raise_code] at h
    cases h
  · obtain ⟨hopen, hrange⟩ := not_or.1 hrefused
    rw [Bool.not_eq_true] at hopen
    rw [not_lt] at hrange
    by_cases hobey : obeysNext w.sink.plan ((w.fill + s.length) / bs)
    · exact Writer.write_obey hfill hopen hrange hobey
    · obtain ⟨v, -, w', -, hraise⟩ := Writer.write_fail hfill hopen hrange hobey
      rw [hraise, Writer.raise_code] at h
      cases h

/-- A flush that finishes OK emitted what was pending. -/
theorem Writer.flushCommand_of_ok (h : (Writer.flushCommand w).regs.code = .ok) :
    Writer.flushCommand w = Writer.finish .ok 0 (Writer.flushed w) := by
  rcases Writer.flush_go_or_faults hfill.le with ⟨hgo, -⟩ | ⟨c, w', hstop, hc⟩
  · exact Writer.flushCommand_of_go hgo
  · rw [Writer.flushCommand_of_stop hstop, Writer.raise_code] at h
    exact absurd h (Code.ne_ok_of_setsFault hc)

/-- A close that finishes OK emitted what was pending. -/
theorem Writer.close_of_ok (h : (Writer.close w).regs.code = .ok) :
    Writer.close w = Writer.finish .ok 0 { Writer.flushed w with closed := true } := by
  rcases Writer.flush_go_or_faults hfill.le with ⟨hgo, -⟩ | ⟨c, w', hstop, hc⟩
  · exact Writer.close_of_go hgo
  · rw [Writer.close_of_stop hstop, Writer.raise_code] at h
    exact absurd h (Code.ne_ok_of_setsFault hc)

/-- A reserve that finishes OK flushed and put its placeholder. -/
theorem Writer.reserve_of_ok (h : (Writer.reserve w).regs.code = .ok) :
    Writer.reserve w = Writer.finish .ok (Writer.flushed w).ofs (Writer.placeholderPut (Writer.flushed w)) := by
  by_cases hrefused : w.closed = true ∨ w.ofs.toNat + Writer.pad w + bs > maxOfs
  · rw [Writer.reserve_undefined hrefused, Writer.raise_code] at h
    cases h
  · obtain ⟨hopen, hroom⟩ := not_or.1 hrefused
    rw [Bool.not_eq_true] at hopen
    rw [not_lt] at hroom
    by_cases hobey : obeysNext w.sink.plan (Writer.flushBlocks w + 1)
    · exact Writer.reserve_obey hopen hroom hfill.le hobey
    · obtain ⟨w', hraise, -⟩ := Writer.reserve_fail hopen hroom hfill.le hobey
      rw [hraise, Writer.raise_code] at h
      cases h

theorem Writer.write_appended {s : List Byte} {k : Nat} (hk : s.length = k)
    (h : (Writer.write s w).regs.code = .ok) :
    Writer.appended w (Writer.write s w) (bs * ((w.fill + k) / bs)) := by
  rw [Writer.write_of_ok hfill h, ← hk]
  exact Writer.advance_appended hfill.le s

/-- Every rule but a patch appends what the statement computes, where it finishes OK. -/
theorem writerRule_appended {i : Instr} (he : Instr.engine i = .writer) (hb : isBind i = false)
    (hpatch : i ∉ ([.wPatchBlock, .wPatchU8, .wPatchU16, .wPatchU32, .wPatchU64] : List Instr))
    (hdin : w.regs.din.length = Instr.dinBytes i) (h : (writerRule i w).regs.code = .ok) :
    Writer.appended w (writerRule i w) (Writer.appends w i) := by
  cases i
  case wBind => cases hb
  case wWrite len => exact Writer.write_appended hfill hdin h
  case wWriteU8 | wWriteI8 | wWriteU16 | wWriteI16 | wWriteU32 | wWriteI32 | wWriteU64 | wWriteI64 =>
    exact Writer.write_appended hfill (valueBytes_length _ _) h
  case wFlush =>
    simp only [writerRule] at h ⊢
    rw [Writer.flushCommand_of_ok hfill h]
    exact Writer.flushed_appended w
  case wClose =>
    simp only [writerRule] at h ⊢
    rw [Writer.close_of_ok hfill h]
    exact Writer.flushed_appended w
  case wReserve =>
    simp only [writerRule] at h ⊢
    rw [Writer.reserve_of_ok hfill h]
    exact (Writer.flushed_appended w).trans (Writer.placeholderPut_appended _)
  case wPatchBlock | wPatchU8 | wPatchU16 | wPatchU32 | wPatchU64 => exact absurd (by simp) hpatch
  case wChecksum | wResetChecksum | wBytesWritten => exact Writer.appended_of_sink_eq rfl
  all_goals cases he

end

theorem Writer.bind_sink (c : Bool) (w : Writer) : (Writer.bind c w).sink = w.sink := by
  cases hkey : keyValid w.regs.arg0 with
  | true => rw [Writer.bind_of_valid hkey]; rfl
  | false => rw [Writer.bind_of_rejected hkey]; rfl

/-! ### The settled statements -/

/-- Settles O33: the three outcomes of `Writer.write` of the value's bytes. -/
theorem valueWritesTakeTheirBytes : Obligations.ValueWritesTakeTheirBytes := by
  intro p hp s n hcur hready hfill
  obtain ⟨he, hb, hdin, hrule⟩ := writerRule_of_valueWrite p hp
  have hexec := exec_writer_of_ready he hb hcur (by rwa [hdin])
  rw [hrule] at hexec
  have hlen := leBytes_length (Width.bytes p.2) n.w.regs.arg0
  generalize leBytes (Width.bytes p.2) n.w.regs.arg0 = bytes at *
  rw [← hlen]
  refine ⟨fun hopen hrange hobey => ?_, fun hrefused => ?_, fun hopen hrange hfail => ?_⟩
  · rw [hexec, Writer.write_obey hfill hopen hrange hobey]
  · rw [Writer.write_undefined hrefused] at hexec
    exact ⟨_, hexec, Writer.raise_faultsWith rfl 0 (.refl n.w), Writer.raise_sink _ _ _⟩
  · obtain ⟨v, hv, w', hcontrol, hwrite⟩ := Writer.write_fail hfill hopen hrange hfail
    rw [hwrite] at hexec
    exact ⟨v, _, hv, hexec, Writer.raise_faultsWith rfl _ hcontrol⟩

/-- Settles O35: the flush goes through and the writer closes, or its code is raised. -/
theorem closeFlushesAndCloses : Obligations.CloseFlushesAndCloses := by
  refine ⟨by decide, fun s n hcur hready hfill => ?_⟩
  have hexec : exec .wClose s = .next (State.setW s n (Writer.close n.w)) :=
    exec_writer_of_ready rfl rfl hcur hready
  refine ⟨fun hrange hobey => ?_, fun hpending hpast => ?_, fun _ hrange hfail => ?_⟩
  · rw [hexec, Writer.close_of_go (Writer.flush_eq_flushed hfill.le hrange hobey)]
  · rw [Writer.close_of_stop (Writer.flush_undefined hpending hpast)] at hexec
    exact ⟨_, hexec, Writer.raise_faultsWith rfl 0 (.refl n.w), Writer.raise_sink _ _ _⟩
  · obtain ⟨w', hstop, hcontrol⟩ := Writer.flush_fail hfill.le hrange hfail
    rw [Writer.close_of_stop hstop] at hexec
    exact ⟨_, hexec, Writer.raise_faultsWith rfl 0 hcontrol⟩

/-- Settles O37: a bind leaves the sink, and every rule but a patch appends. -/
theorem streamCommandsAppendToTheSink : Obligations.StreamCommandsAppendToTheSink := by
  intro i s t n n' he hpatch hcur hready hfill hexec hcur' hok
  suffices happended : Writer.appended n.w n'.w (Writer.appends n.w i) from happended.reads
  obtain ⟨w', rfl, hw'⟩ := exec_writer_next he hcur hexec
  obtain rfl : { n with w := w' } = n' := Option.some.inj ((cur?_setW hcur n w').symm.trans hcur')
  obtain ⟨hbound, hfault, hdin⟩ := hready
  rcases hw' with ⟨c, rfl, rfl⟩ | ⟨-, hunbound, -⟩ | ⟨-, -, hfaulted, -⟩ | ⟨hb, -, rfl⟩
  · exact Writer.appended_of_sink_eq (Writer.bind_sink c n.w)
  · rw [hbound] at hunbound; cases hunbound
  · rw [hfault] at hfaulted; cases hfaulted
  · exact writerRule_appended hfill he hb hpatch hdin hok

/-- Settles O38: `DIN` is the payload. -/
theorem patchBlockOverwritesTheReservedBlock : Obligations.PatchBlockOverwritesTheReservedBlock :=
  ⟨by decide, fun _ _ hcur hready => exec_patch_outcomes (exec_writer_of_ready (i := .wPatchBlock) rfl rfl hcur hready)⟩

/-- Settles O39: the padded bytes of `ARG1` are the payload. -/
theorem valuePatchesOverwriteTheReservedBlock : Obligations.ValuePatchesOverwriteTheReservedBlock := by
  intro p hp s n hcur hready
  obtain ⟨he, hb, hdin, hrule⟩ := writerRule_of_valuePatch p hp
  have hexec := exec_writer_of_ready he hb hcur (by rwa [hdin])
  rw [hrule] at hexec
  exact exec_patch_outcomes hexec

/-- Settles O40: what the sink's call leaves of the byte space, obeyed or failed. -/
theorem patchesOverwriteOneBlock : Obligations.PatchesOverwriteOneBlock := by
  intro i hi s t n n' hcur hready hexec hcur' off
  obtain ⟨he, hb, hrule⟩ := writerRule_patchBytes i hi
  rw [exec_writer_of_ready he hb hcur hready, hrule] at hexec
  obtain rfl := Host.Outcome.next.inj hexec
  obtain rfl := Option.some.inj ((cur?_setW hcur n _).symm.trans hcur')
  dsimp only
  rcases Writer.patch_cases (Writer.patchBytes n.w i) n.w with
    ⟨c, hc, hraise⟩ | ⟨o, harg, hok⟩ | ⟨o, harg, w', hraise, hpos, cells, hmem⟩
  · rw [hraise, Writer.raise_code]
    rcases hc with rfl | rfl <;> exact ⟨nofun, nofun⟩
  · obtain rfl : off = o := by rw [← Int.toNat_natCast o, ← harg]
    rw [hok]
    refine ⟨fun _ => ⟨rfl, fun j hj => ?_, fun a ha hlen => ?_, fun a ha hlen => ?_, fun a ha => ?_⟩,
      nofun⟩
    · exact Memory.read_writeAt_inside _ _ _ (by rwa [blockBytes_length])
    · exact Memory.read_writeAt_outside _ _ _ (.inl ⟨ha, hlen⟩)
    · exact Memory.read_writeAt_padding _ _ _ hlen ha
    · exact Memory.read_writeAt_outside _ _ _ (.inr (by rwa [blockBytes_length]))
  · obtain rfl : off = o := by rw [← Int.toNat_natCast o, ← harg]
    rw [hraise, Writer.raise_code, Writer.raise_sink]
    exact ⟨nofun, fun _ => ⟨hpos, fun a ha => by rw [hmem, Memory.read_scramble_outside _ _ ha]⟩⟩

end Sys2Proof.Machine
end

section
/-! Sequences of writer commands and the writer's state machine (41_writer.md section 7): a command with its `DIN` given,
what two writes leave, a block reserved and patched, and the settled statements. -/

namespace Sys2Proof.Machine

open Sys2Proof.Config

/-! ### The registers are no part of the data path -/

/-- The writer with other registers. -/
def Writer.withRegs (w : Writer) (g : HostRegs) : Writer := { w with regs := g }

/-- The writer with its `DIN` given (20_memory.md R58). -/
def Writer.withDin (w : Writer) (din : List Byte) : Writer := { w with regs := { w.regs with din := din } }

@[simp] theorem Writer.withRegs_withRegs (w : Writer) (g g' : HostRegs) :
    Writer.withRegs (Writer.withRegs w g) g' = Writer.withRegs w g' := rfl

theorem Writer.withDin_eq_withRegs (w : Writer) (din : List Byte) :
    Writer.withDin w din = Writer.withRegs w { w.regs with din := din } := rfl

theorem Writer.finish_eq_withRegs (c : Code) (v : Word64) (w : Writer) :
    Writer.finish c v w = Writer.withRegs w (HostRegs.finish c v [] w.regs) := rfl

theorem Writer.advance_withRegs (w : Writer) (g : HostRegs) (s : List Byte) :
    Writer.advance (Writer.withRegs w g) s = Writer.withRegs (Writer.advance w s) g := rfl

/-! ### A run on the addressed writer, command by command -/

/-- The writer in the addressed place, put there again, changes nothing. -/
theorem State.setW_self {s : State} {n : Instance} (hcur : State.cur? s = some n) : State.setW s n n.w = s := by
  obtain ⟨hlt, hn⟩ := List.getElem?_eq_some_iff.1 hcur
  have hset : s.insts.set s.sel n = s.insts := by rw [← hn, List.set_getElem_self]
  show { s with insts := s.insts.set s.sel n } = s
  rw [hset]

section
variable {s : State} {n : Instance} (hcur : State.cur? s = some n)
include hcur

theorem State.withDin_setW (w : Writer) (din : List Byte) :
    State.withDin (State.setW s n w) din = State.setW s n (Writer.withDin w din) := by
  rw [State.withDin, cur?_setW hcur]
  exact State.setW_setW s n w _

/-- With its `DIN` given, an admitted command puts what its rule leaves in the writer's place. -/
theorem exec_withDin {i : Instr} {w : Writer} {din : List Byte} (he : Instr.engine i = .writer)
    (hb : isBind i = false) (hbound : w.bound = true) (hfault : w.fault = false)
    (hdin : din.length = Instr.dinBytes i) :
    exec i (State.withDin (State.setW s n w) din) = .next (State.setW s n (writerRule i (Writer.withDin w din))) := by
  have hready : Writer.ready (Writer.withDin w din) (Instr.dinBytes i) := ⟨hbound, hfault, hdin⟩
  rw [State.withDin_setW hcur, exec_writer_of_ready he hb (cur?_setW hcur n (Writer.withDin w din)) hready,
    State.setW_setW]

/-- A write over a sink that obeys, from a writer `w` in the addressed place. -/
theorem exec_wWrite_withDin {w : Writer} (d : List Byte) (hbound : w.bound = true) (hfault : w.fault = false)
    (hfill : w.fill < bs) (hopen : w.closed = false) (hrange : w.ofs.toNat + d.length ≤ maxOfs)
    (hobey : obeysNext w.sink.plan ((w.fill + d.length) / bs)) :
    exec (.wWrite d.length) (State.withDin (State.setW s n w) d) =
      .next (State.setW s n (Writer.finish .ok (BitVec.ofNat 64 d.length) (Writer.advance (Writer.withDin w d) d))) := by
  rw [exec_withDin hcur (i := .wWrite d.length) rfl rfl hbound hfault rfl]
  exact congrArg (fun w' => Host.Outcome.next (State.setW s n w'))
    (Writer.write_obey (w := Writer.withDin w d) hfill hopen hrange hobey)

end

/-! ### Two writes (41_writer.md R147) -/

section
variable {w : Writer} (hfill : w.fill ≤ bs) (s : List Byte)
include hfill

theorem Writer.advance_fill : (Writer.advance w s).fill = (w.fill + s.length) % bs := by
  have hlen : (Writer.pending w ++ s).length = w.fill + s.length := by
    rw [List.length_append, Writer.pending_length hfill]
  rw [← hlen]
  rfl

theorem Writer.advance_plan :
    (Writer.advance w s).sink.plan = w.sink.plan.drop ((w.fill + s.length) / bs) := by
  have hlen : (Writer.pending w ++ s).length = w.fill + s.length := by
    rw [List.length_append, Writer.pending_length hfill]
  rw [← hlen]
  rfl

end

/-- The blocks that two byte strings fill are those the first fills and those the second fills behind it. -/
theorem blocks_add (f a b : Nat) : (f + (a + b)) / bs = (f + a) / bs + ((f + a) % bs + b) / bs := by
  simp only [bs]
  omega

/-- Settles O42: both runs take the bytes, and taking them in two parts is taking them at once. -/
theorem writesMayBeSplit : Obligations.WritesMayBeSplit := by
  intro s n a b hcur hbound hfault hopen hfill hrange hobey
  rw [← List.length_append] at hrange hobey
  have hboth := exec_wWrite_withDin hcur (a ++ b) hbound hfault hfill hopen hrange hobey
  rw [List.length_append] at hrange
  rw [List.length_append, blocks_add, obeysNext_add] at hobey
  obtain ⟨hobeyA, hobeyB⟩ := hobey
  have hfirst := exec_wWrite_withDin hcur a hbound hfault hfill hopen (by omega) hobeyA
  have hofs : (Writer.advance n.w a).ofs.toNat = n.w.ofs.toNat + a.length := toNat_add_ofNat (by omega)
  rw [← Writer.advance_plan hfill.le, ← Writer.advance_fill hfill.le] at hobeyB
  have hsecond := exec_wWrite_withDin hcur b
    (w := Writer.finish .ok (BitVec.ofNat 64 a.length) (Writer.advance (Writer.withDin n.w a) a)) hbound hfault
    (by
      show (Writer.advance n.w a).fill < bs
      rw [Writer.advance_fill hfill.le]
      exact Nat.mod_lt _ (by decide))
    hopen (by show (Writer.advance n.w a).ofs.toNat + _ ≤ _; omega) hobeyB
  rw [State.setW_self hcur] at hboth hfirst
  refine ⟨_, _, _, _, _, hboth, cur?_setW hcur n _, hfirst, hsecond, cur?_setW hcur n _, rfl, rfl, ?_⟩
  refine (Writer.withRegs_withRegs _ _ _).trans ?_
  simp only [Writer.finish_eq_withRegs, Writer.withDin_eq_withRegs, Writer.advance_withRegs, Writer.withRegs_withRegs,
    Writer.advance_append hfill]
  rfl

end Sys2Proof.Machine
end

section
/-! A block reserved and patched at last (41_writer.md R149), and the writer's state machine (R146). -/

namespace Sys2Proof.Machine

open Sys2Proof.Config

/-! ### Patching over a placeholder (20_memory.md R52, R53) -/

/-- Bytes put over as many placeholder bytes leave what they leave when written in their place. -/
theorem Memory.writeAt_placeholder {m : Memory} (hwf : Memory.wf m = true) (p : Nat) {zeros bytes : List Byte}
    (hlen : zeros.length = bytes.length) (hpos : 0 < bytes.length) (more : List Byte) :
    Memory.writeAt (Memory.write m p (zeros ++ more)) p bytes = Memory.write m p (bytes ++ more) := by
  have hwf' := Memory.wf_write p (zeros ++ more) hwf
  have hreach : p < Memory.length (Memory.write m p (zeros ++ more)) := by
    by_contra hshort
    have hnone := Memory.read_eq_none_of_length_le hwf' (not_lt.1 hshort)
    have hread := Memory.read_write_inside (zeros ++ more) m p 0 (by rw [List.length_append]; omega)
    rw [Nat.add_zero, hnone, eq_comm, List.getElem?_eq_none_iff, List.length_append] at hread
    omega
  refine Memory.ext_of_read (Memory.wf_writeAt _ _ hwf') (Memory.wf_write _ _ hwf) fun c => ?_
  rcases Nat.lt_or_ge c p with hbelow | hge
  · rw [Memory.read_writeAt_outside _ _ _ (.inl ⟨hbelow, hbelow.trans hreach⟩),
      Memory.read_write_outside _ _ (.inl hbelow), Memory.read_write_outside _ _ (.inl hbelow)]
  obtain ⟨j, rfl⟩ := Nat.exists_eq_add_of_le hge
  rcases Nat.lt_or_ge j bytes.length with hin | hbehind
  · rw [Memory.read_writeAt_inside _ _ _ hin,
      Memory.read_write_inside _ _ _ _ (by rw [List.length_append]; omega), List.getElem?_append_left hin]
  rw [Memory.read_writeAt_outside _ _ _ (.inr (by omega))]
  rcases Nat.lt_or_ge j (bytes.length + more.length) with hmore | hend
  · rw [Memory.read_write_inside _ _ _ _ (by rw [List.length_append]; omega),
      Memory.read_write_inside _ _ _ _ (by rw [List.length_append]; omega),
      List.getElem?_append_right (by omega), List.getElem?_append_right hbehind, hlen]
  · rw [Memory.read_write_outside _ _ (.inr (by rw [List.length_append]; omega)),
      Memory.read_write_outside _ _ (.inr (by rw [List.length_append]; omega))]

/-! ### What a flush and a write leave, field by field -/

theorem obeysNext_nil (m : Nat) : obeysNext [] m := by simp [obeysNext]

theorem Writer.sameControl.bound {w w' : Writer} (h : Writer.sameControl w w') : w'.bound = w.bound := by
  obtain ⟨-, hbound, -⟩ := h
  exact hbound

theorem Writer.sameControl.ra {w w' : Writer} (h : Writer.sameControl w w') : w'.ra = w.ra := by
  obtain ⟨-, -, -, hra, -⟩ := h
  exact hra

theorem Writer.flushed_withRegs (w : Writer) (g : HostRegs) :
    Writer.flushed (Writer.withRegs w g) = Writer.withRegs (Writer.flushed w) g := by
  rcases Nat.eq_zero_or_pos w.fill with hempty | hpending
  · rw [Writer.flushed_of_empty hempty, Writer.flushed_of_empty (w := Writer.withRegs w g) hempty]
  · rw [Writer.flushed_of_pos hpending, Writer.flushed_of_pos (w := Writer.withRegs w g) hpending]
    rfl

theorem Writer.flushed_fill (w : Writer) : (Writer.flushed w).fill = 0 := by
  rcases Nat.eq_zero_or_pos w.fill with hempty | hpending
  · rw [Writer.flushed_of_empty hempty, hempty]
  · rw [Writer.flushed_of_pos hpending]
    rfl

theorem Writer.flushed_ofs (w : Writer) :
    (Writer.flushed w).ofs = w.ofs + BitVec.ofNat 64 (Writer.pad w) := by
  rcases Nat.eq_zero_or_pos w.fill with hempty | hpending
  · rw [Writer.flushed_of_empty hempty, Writer.pad, if_pos hempty]
    exact (BitVec.add_zero _).symm
  · rw [Writer.flushed_of_pos hpending]

/-- The bytes a flush emits are the pending ones and the padding. -/
theorem Writer.flushBlocks_eq {w : Writer} (hfill : w.fill ≤ bs) :
    bs * Writer.flushBlocks w = w.fill + Writer.pad w := by
  rcases Nat.eq_zero_or_pos w.fill with hempty | hpending
  · rw [Writer.flushBlocks_of_empty hempty, Writer.pad, if_pos hempty, hempty, Nat.mul_zero]
  · rw [Writer.flushBlocks_of_pos hpending, Writer.pad_of_pos hpending]
    omega

theorem Writer.flushed_mem_wf {w : Writer} (h : Memory.wf w.sink.mem = true) :
    Memory.wf (Writer.flushed w).sink.mem = true := by
  obtain ⟨bytes, -, -, hmem⟩ := Writer.flushed_appended w
  rw [hmem]
  exact Memory.wf_write _ _ h

/-- From an empty buffer a write appends the whole blocks of its bytes. -/
theorem Writer.advance_sink_of_empty {w : Writer} (h : w.fill = 0) (s : List Byte) :
    (Writer.advance w s).sink = { w.sink with
      mem := Memory.write w.sink.mem w.sink.pos (encBlocks w.key (s.length / bs) s)
      pos := w.sink.pos + bs * (s.length / bs)
      plan := w.sink.plan.drop (s.length / bs) } := by
  have hpending : Writer.pending w = [] :=
    List.eq_nil_of_length_eq_zero (by rw [Writer.pending_length (by omega), h])
  unfold Writer.advance
  rw [hpending]
  rfl

theorem mem_addOffset_self (offs : List Nat) (off : Nat) : off ∈ addOffset offs off := by
  unfold addOffset
  split_ifs with h
  · exact h
  · simp

/-- A placeholder, the blocks behind it and the patch of it leave the sink that the block and those blocks leave. -/
theorem Writer.patched_placeholder_sink {w : Writer} {x rest : List Byte} (hfill : w.fill = 0)
    (hwf : Memory.wf w.sink.mem = true) (hplan : w.sink.plan = []) (hx : x.length = bs) :
    (Writer.patched (Writer.advance (Writer.placeholderPut w) rest) w.sink.pos x).sink =
      (Writer.advance w (x ++ rest)).sink := by
  have hblocks : (x ++ rest).length / bs = rest.length / bs + 1 := by
    rw [List.length_append, hx]
    exact Nat.add_div_left _ (by decide)
  have henc : encBlocks w.key (rest.length / bs + 1) (x ++ rest) =
      blockBytes (enc w.key (blockOfBytes x)) ++ encBlocks w.key (rest.length / bs) rest := by
    rw [encBlocks, List.take_left' hx, List.drop_left' hx]
  have hmem := Memory.writeAt_placeholder hwf w.sink.pos (zeros := List.replicate bs 0)
    (bytes := blockBytes (enc w.key (blockOfBytes x))) (by rw [List.length_replicate, blockBytes_length])
    (by rw [blockBytes_length]; decide) (encBlocks w.key (rest.length / bs) rest)
  rw [Memory.write_append, List.length_replicate] at hmem
  unfold Writer.patched
  rw [Writer.advance_sink_of_empty hfill, hblocks, henc, ← hmem]
  simp only [Writer.advance_sink_of_empty (w := Writer.placeholderPut w) hfill]
  simp only [Writer.placeholderPut, hplan, List.drop_nil]
  congr 1
  rw [Nat.mul_add]
  omega

/-- A patch at the placeholder finds its offset reserved and the sink obeying. -/
theorem Writer.patch_placeholder {w : Writer} {g : HostRegs} (hra : w.ra = true) (hopen : w.closed = false)
    (hfill : w.fill = 0) (hplan : w.sink.plan = []) (hpos : w.sink.pos = w.ofs.toNat) (hrange : w.ofs.toNat ≤ maxOfs)
    (harg : g.arg0 = w.ofs) (x rest : List Byte) :
    Writer.patch x (Writer.withRegs (Writer.advance (Writer.placeholderPut w) rest) g) =
      Writer.finish .ok 0 (Writer.withRegs
        (Writer.patched (Writer.advance (Writer.placeholderPut w) rest) w.sink.pos x) g) := by
  have hrestPlan : (Writer.advance (Writer.placeholderPut w) rest).sink.plan = [] := by
    rw [Writer.advance_sink_of_empty (w := Writer.placeholderPut w) hfill]
    show List.drop _ (w.sink.plan.drop 1) = []
    rw [hplan, List.drop_nil, List.drop_nil]
  have hint : g.arg0.toInt = (w.sink.pos : Nat) := by
    rw [harg, hpos]
    exact BitVec.toInt_eq_toNat_of_lt (by simp only [maxOfs] at hrange; omega)
  exact Writer.patch_obey (w := Writer.withRegs (Writer.advance (Writer.placeholderPut w) rest) g)
    hra hopen (by rw [hpos]; exact mem_addOffset_self _ _) hint (congrArg nextAnswer hrestPlan) x

section
variable {s : State} {n : Instance} (hcur : State.cur? s = some n) (hbound : n.w.bound = true)
  (hfault : n.w.fault = false) (hfill : n.w.fill < bs) (hplan : n.w.sink.plan = [])
include hcur hbound hfault hfill hplan

/-- A flush within the range over a sink that obeys, with no `DIN`. -/
theorem exec_wFlush_withDin (hrange : n.w.ofs.toNat + Writer.pad n.w ≤ maxOfs) :
    exec .wFlush (State.withDin s []) = .next (State.setW s n (Writer.withRegs (Writer.flushed n.w)
      (HostRegs.finish .ok 0 [] { n.w.regs with din := [] }))) := by
  have hexec := exec_withDin hcur (i := .wFlush) (din := []) rfl rfl hbound hfault rfl
  have hflush := Writer.flush_eq_flushed (w := Writer.withDin n.w []) hfill.le (.inl hrange)
    (by rw [show (Writer.withDin n.w []).sink.plan = [] from hplan]; exact obeysNext_nil _)
  rw [Writer.withDin_eq_withRegs, Writer.flushed_withRegs] at hflush
  rw [State.setW_self hcur] at hexec
  exact hexec.trans (congrArg (fun w => Host.Outcome.next (State.setW s n w)) (Writer.flushCommand_of_go hflush))

/-- A reserve within the range over a sink that obeys, with no `DIN`. -/
theorem exec_wReserve_withDin (hopen : n.w.closed = false)
    (hrange : n.w.ofs.toNat + Writer.pad n.w + bs ≤ maxOfs) :
    exec .wReserve (State.withDin s []) = .next (State.setW s n (Writer.withRegs
      (Writer.placeholderPut (Writer.flushed n.w))
      (HostRegs.finish .ok (Writer.flushed n.w).ofs [] { n.w.regs with din := [] }))) := by
  have hexec := exec_withDin hcur (i := .wReserve) (din := []) rfl rfl hbound hfault rfl
  have hreserve := Writer.reserve_obey (w := Writer.withDin n.w []) hopen hrange hfill.le
    (by rw [show (Writer.withDin n.w []).sink.plan = [] from hplan]; exact obeysNext_nil _)
  rw [Writer.withDin_eq_withRegs, Writer.flushed_withRegs] at hreserve
  rw [State.setW_self hcur] at hexec
  exact hexec.trans (congrArg (fun w => Host.Outcome.next (State.setW s n w)) hreserve)

end

/-- Settles O43: both runs go through, and the patch puts the block where the placeholder stood. -/
theorem patchedBlockEqualsWrittenBlock : Obligations.PatchedBlockEqualsWrittenBlock := by
  intro s n x rest hcur hbound hfault hopen hra hfill hplan hwf hpos harg hx hrest hrange
  have hreserve := exec_wReserve_withDin hcur hbound hfault hfill hplan hopen (by omega)
  have hflush := exec_wFlush_withDin hcur hbound hfault hfill hplan (by omega)
  -- the writer once it has flushed
  have hfControl := Writer.flushed_sameControl n.w
  have hfBound : (Writer.flushed n.w).bound = true := by rw [hfControl.bound, hbound]
  have hfFault : (Writer.flushed n.w).fault = false := by rw [hfControl.fault, hfault]
  have hfOpen : (Writer.flushed n.w).closed = false := by rw [hfControl.closed, hopen]
  have hfRa : (Writer.flushed n.w).ra = true := by rw [hfControl.ra, hra]
  have hfPlan : (Writer.flushed n.w).sink.plan = [] := by rw [Writer.flushed_plan, hplan, List.drop_nil]
  have hfFill := Writer.flushed_fill n.w
  have hfMem := Writer.flushed_mem_wf hwf
  have hfOfs : (Writer.flushed n.w).ofs = n.w.regs.arg0 := by rw [Writer.flushed_ofs, harg]
  have hofs : n.w.regs.arg0.toNat = n.w.ofs.toNat + Writer.pad n.w := by rw [harg, toNat_add_ofNat (by omega)]
  have hfPos : (Writer.flushed n.w).sink.pos = n.w.regs.arg0.toNat := by
    obtain ⟨-, -, happended, -⟩ := Writer.flushed_appended n.w
    rw [happended, Writer.flushBlocks_eq hfill.le]
    omega
  generalize Writer.flushed n.w = f at *
  -- the blocks behind the placeholder, and the patch
  have hofsPut : (Writer.placeholderPut f).ofs.toNat = n.w.regs.arg0.toNat + bs := by
    rw [← hfOfs]
    exact toNat_add_ofNat (k := bs) (by rw [hfOfs]; omega)
  have hwrite := exec_wWrite_withDin hcur rest
    (w := Writer.withRegs (Writer.placeholderPut f) (HostRegs.finish .ok f.ofs [] { n.w.regs with din := [] }))
    hfBound hfFault (by show f.fill < bs; omega) hfOpen
    (by show (Writer.placeholderPut f).ofs.toNat + _ ≤ _; omega)
    (by show obeysNext (f.sink.plan.drop 1) _; rw [hfPlan]; exact obeysNext_nil _)
  have hpatch := exec_withDin hcur (i := .wPatchBlock) (din := x)
    (w := Writer.finish .ok (BitVec.ofNat 64 rest.length) (Writer.advance (Writer.withDin (Writer.withRegs
      (Writer.placeholderPut f) (HostRegs.finish .ok f.ofs [] { n.w.regs with din := [] })) rest) rest))
    rfl rfl hfBound hfFault hx
  have hrule := Writer.patch_placeholder hfRa hfOpen hfFill hfPlan (hfPos.trans (congrArg _ hfOfs.symm))
    (by rw [hfOfs]; omega) (g := { HostRegs.finish .ok (BitVec.ofNat 64 rest.length) []
      { HostRegs.finish .ok f.ofs [] { n.w.regs with din := [] } with din := rest } with din := x }) hfOfs.symm x rest
  have hpatch' := hpatch.trans (congrArg (fun w => Host.Outcome.next (State.setW s n w)) hrule)
  -- the block and the rest in one command
  have hboth := exec_wWrite_withDin hcur (x ++ rest)
    (w := Writer.withRegs f (HostRegs.finish .ok 0 [] { n.w.regs with din := [] }))
    hfBound hfFault (by show f.fill < bs; omega) hfOpen
    (by
      show f.ofs.toNat + _ ≤ _
      rw [hfOfs, List.length_append]
      omega)
    (by show obeysNext f.sink.plan _; rw [hfPlan]; exact obeysNext_nil _)
  refine ⟨_, _, _, _, _, _, _, hreserve, hwrite, hpatch', cur?_setW hcur n _, hflush, hboth, cur?_setW hcur n _,
    rfl, rfl, ?_, ?_⟩
  · exact Writer.patched_placeholder_sink hfFill hfMem hfPlan hx
  · show f.ofs + 8 + BitVec.ofNat 64 rest.length = f.ofs + BitVec.ofNat 64 (x ++ rest).length
    rw [List.length_append, hx, BitVec.ofNat_add, BitVec.add_assoc]
    rfl

end Sys2Proof.Machine
end

section
/-! The writer's state machine (41_writer.md R146). -/

namespace Sys2Proof.Machine

open Sys2Proof.Config

theorem Writer.mode_of_unbound {w : Writer} (h : w.bound = false) : Writer.mode w = .unbound := if_pos h

theorem Writer.mode_of_bound {w : Writer} (h : w.bound = true) : Writer.mode w =
    if w.fault = true then .faulted else if w.closed = true then .closed else .opened := if_neg (by simp [h])

theorem Writer.bind_mode (c : Bool) (w : Writer) :
    Writer.mode (Writer.bind c w) = if (Writer.bind c w).regs.code = .ok then .opened else .unbound := by
  cases hkey : keyValid w.regs.arg0 with
  | true => rw [Writer.bind_of_valid hkey]; rfl
  | false => rw [Writer.bind_of_rejected hkey]; rfl

theorem Writer.flush_of_empty {w : Writer} (h : w.fill = 0) : Writer.flush w = .go w := if_pos h

/-- A close stops only with the codes of its flush (41_writer.md R133, R135). -/
theorem Writer.close_code_ne_unsupported (w : Writer) : (Writer.close w).regs.code ≠ .unsupported := by
  obtain ⟨w', -, -, hgo | ⟨c, hc, hstop⟩⟩ := Writer.flush_ends w
  · rw [Writer.close_of_go hgo]
    exact fun h => by cases h
  · rw [Writer.close_of_stop hstop, Writer.raise_regs]
    rcases hc with rfl | rfl <;> exact fun h => by cases h

/-- On a closed writer the offset check of a patch is not reached (41_writer.md R137). -/
theorem Writer.patch_of_closed {w : Writer} (hclosed : w.closed = true) (payload : List Byte) :
    Writer.patch payload w = Writer.raise (if w.ra = true then .undefined else .unsupported) 0 w := by
  cases hra : w.ra with
  | true => rw [Writer.patch_undefined hra (.inl hclosed), if_pos rfl]
  | false => rw [Writer.patch_unsupported hra, ← Writer.raise_of_not_setsFault rfl]; rfl

/-- On a closed writer, whose buffer is empty, a stream write faults but for a patch without the capability, and every
other command finishes without a fault (41_writer.md R120, R146). -/
theorem writerRule_setsFault_of_closed {i : Instr} (he : Instr.engine i = .writer) (hb : isBind i = false) {w : Writer}
    (hclosed : w.closed = true) (hfill : w.fill = 0) :
    Code.setsFault (writerRule i w).regs.code = (isStreamWrite i && !(isPatch i && !w.ra)) := by
  have hwrite : ∀ s, Code.setsFault (Writer.write s w).regs.code = true := fun s => by
    rw [Writer.write_undefined (.inl hclosed), Writer.raise_regs]
    rfl
  have hpatch : ∀ s, Code.setsFault (Writer.patch s w).regs.code = !!w.ra := fun s => by
    rw [Writer.patch_of_closed hclosed, Writer.raise_regs]
    cases w.ra <;> rfl
  cases i
  case wBind => cases hb
  case wWrite | wWriteU8 | wWriteI8 | wWriteU16 | wWriteI16 | wWriteU32 | wWriteI32 | wWriteU64 | wWriteI64 =>
    exact hwrite _
  case wFlush =>
    show Code.setsFault (Writer.flushCommand w).regs.code = false
    rw [Writer.flushCommand_of_go (Writer.flush_of_empty hfill)]
    rfl
  case wClose =>
    show Code.setsFault (Writer.close w).regs.code = false
    rw [Writer.close_of_go (Writer.flush_of_empty hfill)]
    rfl
  case wReserve =>
    show Code.setsFault (Writer.reserve w).regs.code = true
    rw [Writer.reserve_undefined (.inl hclosed), Writer.raise_regs]
    rfl
  case wPatchBlock | wPatchU8 | wPatchU16 | wPatchU32 | wPatchU64 => exact hpatch _
  case wChecksum | wResetChecksum | wBytesWritten => rfl
  all_goals cases he

/-- The writer's state behind a rule, from the state before it and the code (41_writer.md R146). -/
theorem writerRule_mode {i : Instr} (he : Instr.engine i = .writer) (hb : isBind i = false) {w : Writer}
    (hbound : w.bound = true) (hfault : w.fault = false) :
    Writer.mode (writerRule i w) =
      if Code.setsFault (writerRule i w).regs.code = true then .faulted
      else if w.closed = true ∨ (i = .wClose ∧ (writerRule i w).regs.code = .ok) then .closed
      else .opened := by
  obtain ⟨c, v, w1, hends, ⟨-, hbound', -, -, -, hfault', -⟩, -, hclosed⟩ := writerRule_endsFrom he hb w
  rw [hends, Writer.mode_of_bound (by rw [Writer.raise_bound, hbound', hbound])]
  simp [hfault', hfault, hclosed, HostRegs.finish]

/-- Settles O44: the bind, the two failed admissions, and the rules of an open and of a closed writer. -/
theorem writerFollowsItsStateMachine : Obligations.WriterFollowsItsStateMachine := by
  intro i s t n n' he hcur hinv hexec hcur'
  obtain ⟨w', rfl, hw'⟩ := exec_writer_next he hcur hexec
  obtain rfl : { n with w := w' } = n' := Option.some.inj ((cur?_setW hcur n w').symm.trans hcur')
  rcases hw' with ⟨c, rfl, rfl⟩ | ⟨hb, hbound, rfl⟩ | ⟨hb, hbound, hfault, rfl⟩ | ⟨hb, ⟨hbound, hfault, -⟩, rfl⟩
  · exact Writer.bind_mode c n.w
  · simp only [hb, Writer.mode_of_unbound hbound]
    exact Writer.mode_of_unbound hbound
  · have hmode : Writer.mode n.w = .faulted := by rw [Writer.mode_of_bound hbound, if_pos hfault]
    simp only [hb, hmode]
    exact hmode
  · simp only [hb]
    obtain ⟨-, -, hdata⟩ := (Writer.inv_iff n.w).1 hinv
    obtain ⟨-, -, -, -, -, hempty⟩ := hdata hbound hfault
    have hmode := Writer.mode_of_bound hbound
    rw [writerRule_mode he hb hbound hfault]
    cases hclosed : n.w.closed with
    | true =>
      rw [hfault, hclosed] at hmode
      rw [writerRule_setsFault_of_closed he hb hclosed (hempty hclosed)]
      simp [hmode]
    | false =>
      rw [hfault, hclosed] at hmode
      obtain ⟨c, v, w1, hends, -, hc, -⟩ := writerRule_endsFrom he hb n.w
      have hcode : (writerRule i n.w).regs.code = c := by rw [hends, Writer.raise_regs]; rfl
      have hclose : i = .wClose → c ≠ .unsupported := by
        rintro rfl rfl
        exact Writer.close_code_ne_unsupported n.w hcode
      simp only [hmode, hcode]
      simp only [List.mem_cons, List.not_mem_nil, or_false] at hc
      rcases hc with rfl | rfl | rfl | rfl
      · simp [Code.setsFault_iff]
      · simp [Code.setsFault_iff]
      · simp [Code.setsFault_iff]
      · have hne : i ≠ .wClose := fun h => hclose h rfl
        simp [Code.setsFault_iff, hne]

end Sys2Proof.Machine
end

section
/-! The value reads (42_reader.md R175 to R183): the worth of the bytes delivered, with and without sign. -/

namespace Sys2Proof.Machine

open Sys2Proof.Config

/-! ### A value of the bytes read (00_scope.md R16; 30_encoding.md R88) -/

/-- Byte strings of one length that are worth the same are the same. -/
theorem eq_of_leValue_eq {s t : List Byte} (hlen : s.length = t.length) (h : leValue s = leValue t) : s = t := by
  induction s generalizing t with
  | nil => exact (List.length_eq_zero_iff.1 hlen.symm).symm
  | cons b s ih =>
    cases t with
    | nil => cases hlen
    | cons c t =>
      have hb := b.isLt
      have hc := c.isLt
      simp only [leValue] at h
      rw [BitVec.eq_of_toNat_eq (x := b) (y := c) (by omega), ih (Nat.succ.inj hlen) (by omega)]

/-- A value holds the bytes that it is worth. -/
theorem leBytes_of_worth {k : Nat} {v : Word64} {s : List Byte} (hlen : s.length = k)
    (h : v.toNat % 256 ^ k = leValue s) : leBytes k v = s :=
  eq_of_leValue_eq (by rw [leBytes_length, hlen]) (by rw [leValue_leBytes, h])

/-- Sign extension keeps the bits it extends. -/
theorem toNat_signExtend_mod {w v : Nat} (x : BitVec w) (h : w ≤ v) : (x.signExtend v).toNat % 2 ^ w = x.toNat := by
  rw [← BitVec.toNat_setWidth]
  congr 1
  refine BitVec.eq_of_getLsbD_eq fun j hj => ?_
  rw [BitVec.getLsbD_setWidth, BitVec.getLsbD_signExtend, if_pos hj]
  simp [hj, hj.trans_le h]

theorem two_pow_eight_mul (k : Nat) : 2 ^ (8 * k) = 256 ^ k := pow_mul 2 8 k

section
variable {k : Width} {s : List Byte} (hlen : s.length = Width.bytes k)
include hlen

theorem leValue_lt_width : leValue s < 256 ^ Width.bytes k := hlen ▸ leValue_lt s

theorem unsignedResult_toNat : (unsignedResult s).toNat = leValue s := by
  refine (BitVec.toNat_ofNat _ _).trans (Nat.mod_eq_of_lt ((leValue_lt_width hlen).trans_le ?_))
  cases k <;> decide

theorem leBytes_unsignedResult : leBytes (Width.bytes k) (unsignedResult s) = s :=
  leBytes_of_worth hlen (by rw [unsignedResult_toNat hlen, Nat.mod_eq_of_lt (leValue_lt_width hlen)])

theorem leBytes_signedResult : leBytes (Width.bytes k) (signedResult k s) = s := by
  have hwidth : 8 * Width.bytes k ≤ 64 := Nat.mul_le_mul_left 8 (Width.bytes_le_bs k)
  refine leBytes_of_worth hlen ?_
  rw [← two_pow_eight_mul, signedResult, toNat_signExtend_mod _ hwidth, BitVec.toNat_ofNat, two_pow_eight_mul,
    Nat.mod_eq_of_lt (leValue_lt_width hlen)]

end

theorem signedResult_range (k : Width) (s : List Byte) :
    -(256 ^ Width.bytes k : Int) ≤ 2 * (signedResult k s).toInt ∧
      2 * (signedResult k s).toInt < 256 ^ Width.bytes k := by
  have hwidth : 8 * Width.bytes k ≤ 64 := Nat.mul_le_mul_left 8 (Width.bytes_le_bs k)
  have hpow : (2 : Int) ^ (8 * Width.bytes k) = 256 ^ Width.bytes k := by rw [pow_mul]; rfl
  rw [signedResult, BitVec.toInt_signExtend_of_le hwidth, ← hpow]
  exact ⟨BitVec.le_two_mul_toInt, BitVec.two_mul_toInt_lt⟩

/-- The value a `R.READ_xx` makes of the bytes (42_reader.md R175). -/
def readResult (k : Width) (signed : Bool) (s : List Byte) : Word64 :=
  if signed then signedResult k s else unsignedResult s

theorem leBytes_readResult {k : Width} {s : List Byte} (hlen : s.length = Width.bytes k) (signed : Bool) :
    leBytes (Width.bytes k) (readResult k signed s) = s := by
  cases signed with
  | false => exact leBytes_unsignedResult hlen
  | true => exact leBytes_signedResult hlen

/-- Each `R.READ_xx` is `Reader.readValue` of its width, with sign or without. -/
theorem readerRule_of_valueRead : ∀ p ∈ unsignedReads ++ signedReads,
    Instr.engine p.1 = .reader ∧ isBind p.1 = false ∧
      ∃ signed, readerRule p.1 = Reader.readValue p.2 signed ∧ (p ∈ unsignedReads → signed = false) ∧
        (p ∈ signedReads → signed = true) := by
  intro p hp
  rcases List.mem_append.1 hp with hp | hp
  · have hother : p ∉ signedReads := by revert p; decide
    simp only [unsignedReads, List.mem_cons, List.not_mem_nil, or_false] at hp
    rcases hp with rfl | rfl | rfl | rfl <;>
      exact ⟨rfl, rfl, false, rfl, fun _ => rfl, fun h => absurd h hother⟩
  · have hother : p ∉ unsignedReads := by revert p; decide
    simp only [signedReads, List.mem_cons, List.not_mem_nil, or_false] at hp
    rcases hp with rfl | rfl | rfl | rfl <;>
      exact ⟨rfl, rfl, true, rfl, fun h => absurd h hother, fun _ => rfl⟩

/-- The blocks a delivery of `n` bytes fetches hold them. -/
theorem Reader.plaintext_take_length (r : Reader) (n : Nat) :
    ((Reader.plaintext r (Reader.blocksFor r n)).take n).length = n := by
  obtain ⟨hle, -⟩ := Reader.le_blocksFor r n
  rw [List.length_take, Reader.plaintext_length, min_eq_left hle]

/-- Settles O47: the three outcomes of the read loop, and the value of the bytes delivered. -/
theorem valueReadsDeliverTheValue : Obligations.ValueReadsDeliverTheValue := by
  intro p hp s n hcur hready
  obtain ⟨he, hb, signed, hrule, hunsigned, hsigned⟩ := readerRule_of_valueRead p hp
  have hexec : exec p.1 s = .next (State.setR s n (Reader.readValue p.2 signed n.r)) := by
    rw [exec_reader_of_ready he hb hcur hready, hrule]
  obtain ⟨-, hfault, -⟩ := hready
  refine ⟨fun hobey hheld => ?_, fun hheld hobey => ?_, fun j hj hobey hfail hheld => ?_⟩
  · have hlen := Reader.plaintext_take_length n.r (Width.bytes p.2)
    refine ⟨readResult p.2 signed ((Reader.plaintext n.r (Reader.blocksFor n.r (Width.bytes p.2))).take
      (Width.bytes p.2)), ?_, leBytes_readResult hlen signed, fun hmem => ?_, fun hmem => ?_⟩
    · rw [hexec, Reader.readValue_of_go (Reader.readLoop_ok le_rfl hobey hheld), List.nil_append]
      rfl
    · rw [hunsigned hmem]
      exact (unsignedResult_toNat hlen).trans_lt (leValue_lt_width hlen)
    · rw [hsigned hmem]
      exact signedResult_range _ _
  · obtain ⟨r', hstop, hcontrol, hcur', hpos⟩ := Reader.readLoop_dry [] le_rfl hheld hobey
    rw [Reader.readValue_of_stop hstop] at hexec
    refine ⟨_, _, hexec, Reader.raise_runsDry _ _ _ (hcontrol.trans (Reader.sameControl_setDraw r' _)) hfault hcur',
      fun hend => ?_⟩
    rw [hend, Nat.mul_div_cancel' (Nat.dvd_of_mod_eq_zero hend)] at hpos
    exact Reader.sourceMoves_of_posAfter ((congrArg Source.pos (Reader.raise_source _ _ _ _)).trans hpos)
  · obtain ⟨r', hstop, hcontrol⟩ := Reader.readLoop_fail [] le_rfl hj hobey hfail hheld
    rw [Reader.readValue_of_stop hstop] at hexec
    exact ⟨_, _, hexec, Reader.raise_faultsWith rfl _ _ (hcontrol.trans (Reader.sameControl_setDraw r' _))⟩

end Sys2Proof.Machine
end

section
/-! The seeks (42_reader.md R187 to R190, R192): what the underlying seek and the re-alignment come to, and the machine of
micro-states. -/

namespace Sys2Proof.Machine

open Sys2Proof.Config

/-- Each seek is `Reader.seekTo` of its origin (42_reader.md R188 to R190). -/
theorem readerRule_of_seekOrigin : ∀ p ∈ seeks,
    Instr.engine p.1 = .reader ∧ isBind p.1 = false ∧ readerRule p.1 = Reader.seekTo p.2 := by
  simp only [seeks, List.forall_mem_cons, List.not_mem_nil, false_implies, implies_true, and_true]
  exact ⟨⟨rfl, rfl, rfl⟩, ⟨rfl, rfl, rfl⟩, ⟨rfl, rfl, rfl⟩⟩

theorem exec_seek {p : Instr × Origin} (hp : p ∈ seeks) {s : State} {n : Instance} (hcur : State.cur? s = some n)
    (hready : Reader.ready n.r) : exec p.1 s = .next (State.setR s n (Reader.seekTo p.2 n.r)) := by
  obtain ⟨he, hb, hrule⟩ := readerRule_of_seekOrigin p hp
  rw [exec_reader_of_ready he hb hcur hready, hrule]

/-! ### The underlying seek (20_memory.md R56) -/

/-- The offset passed to the source: relative to its own position where it is relative to the logical one. -/
def Reader.seekOffset (r : Reader) (wh : Origin) : Int :=
  if wh = .current then offsetOperand r.regs.arg0 - Reader.buffered r else offsetOperand r.regs.arg0

theorem Reader.base_add_seekOffset (r : Reader) (wh : Origin) :
    (Source.base r.source wh : Int) + Reader.seekOffset r wh = Reader.seekTarget r wh := by
  cases wh with
  | start => exact Int.zero_add _
  | current => simp only [Source.base, Reader.seekOffset, Reader.seekTarget, if_true]; omega
  | fromEnd => rfl

theorem Source.moved_moved (c : Source) (p p' k k' : Nat) :
    Source.moved (Source.moved c p k) p' k' = Source.moved c p' (k + k') := by
  simp [Source.moved, List.drop_drop]

theorem Reader.srcSeek_moved {r : Reader} {off : Int} {wh : Origin} {target : Nat}
    (ha : nextAnswer r.source.plan = .obey) (h : (Source.base r.source wh : Int) + off = target) :
    Reader.srcSeek r off wh = (some target, { r with source := Source.moved r.source target 1 }) := by
  rw [Reader.srcSeek_ok ha (by omega), h]
  rfl

/-- What `Reader.srcSeek_fail` leaves untouched. -/
theorem Reader.srcSeek_fail_sameControl {r : Reader} {off : Int} {wh : Origin}
    (h : nextAnswer r.source.plan = .fail ∨ (Source.base r.source wh : Int) + off < 0) :
    ∃ r', Reader.srcSeek r off wh = (none, r') ∧ Reader.sameControl r r' :=
  ⟨_, Reader.srcSeek_fail h, rfl, rfl, rfl, rfl, rfl, rfl, rfl, rfl, rfl⟩

/-! ### The end of a seek (42_reader.md R187) -/

theorem Reader.realign_of_boundary {target : Nat} (h : target % bs = 0) (r : Reader) :
    Reader.realign target r = Reader.finish .ok (seekResult target) [] { r with cur := -1 } := if_pos h

section
variable {target : Nat} (hrem : target % bs ≠ 0) {r : Reader}
include hrem

/-- The reader taken back to the boundary of the target's block. -/
def Reader.backAt (target : Nat) (r : Reader) : Reader :=
  { r with cur := -1, source := Source.moved r.source (target - target % bs) 1 }

omit hrem in
theorem Reader.backAt_sameControl (target : Nat) (r : Reader) : Reader.sameControl r (Reader.backAt target r) :=
  ⟨rfl, rfl, rfl, rfl, rfl, rfl, rfl, rfl, rfl⟩

omit hrem in
theorem Reader.srcSeek_back (ha : nextAnswer r.source.plan = .obey) :
    Reader.srcSeek { r with cur := -1 } ((target : Int) - (target % bs : Nat)) .start =
      (some (target - target % bs), Reader.backAt target r) :=
  Reader.srcSeek_moved (r := { r with cur := -1 }) ha (by
    have := Nat.mod_le target bs
    simp only [Source.base]
    omega)

theorem Reader.realign_of_fetch_go {r' : Reader} (ha : nextAnswer r.source.plan = .obey)
    (hfetch : Reader.fetch (Reader.backAt target r) = .go r') :
    Reader.realign target r = Reader.finish .ok (seekResult target) [] { r' with cur := (target % bs : Nat) } := by
  unfold Reader.realign
  simp only [if_neg hrem, Reader.srcSeek_back ha, hfetch]

theorem Reader.realign_of_fetch_stop {r' : Reader} {c : Code} (ha : nextAnswer r.source.plan = .obey)
    (hfetch : Reader.fetch (Reader.backAt target r) = .stop c r') :
    Reader.realign target r = Reader.raise c 0 [] (Reader.atBoundary (target - target % bs) c r') := by
  unfold Reader.realign
  simp only [if_neg hrem, Reader.srcSeek_back ha, hfetch]

theorem Reader.realign_of_back_stop {r' : Reader}
    (hseek : Reader.srcSeek { r with cur := -1 } ((target : Int) - (target % bs : Nat)) .start = (none, r')) :
    Reader.realign target r = Reader.raise .ioError 0 [] r' := by
  unfold Reader.realign
  simp only [if_neg hrem, hseek]

/-- A source that fails the way back or the fetch. -/
theorem Reader.realign_fail (h : ¬ obeysNext r.source.plan 2) :
    ∃ r', Reader.realign target r = Reader.raise .ioError 0 [] r' ∧ Reader.sameControl r r' := by
  rcases nextAnswer_cases r.source.plan with ha | ha
  · have hfail : nextAnswer (Reader.backAt target r).source.plan = .fail := by
      rcases nextAnswer_cases (r.source.plan.drop 1) with ha' | ha'
      · exact absurd ((obeysNext_add _ 1 1).2 ⟨obeysNext_one.2 ha, obeysNext_one.2 ha'⟩) h
      · exact ha'
    obtain ⟨r', hfetch, hcontrol⟩ := Reader.fetch_fail_sameControl hfail
    exact ⟨r', Reader.realign_of_fetch_stop hrem ha hfetch, (Reader.backAt_sameControl target r).trans hcontrol⟩
  · obtain ⟨r', hseek, hcontrol⟩ := Reader.srcSeek_fail_sameControl (r := { r with cur := -1 })
      (off := (target : Int) - (target % bs : Nat)) (wh := .start) (.inl ha)
    exact ⟨r', Reader.realign_of_back_stop hrem hseek, (Reader.sameControl_setCur r (-1)).trans hcontrol⟩

end

/-! ### The seek, from the reader's side (42_reader.md R187) -/

section
variable {wh : Origin} {r : Reader} (hcap : r.seek = true)
include hcap

theorem Reader.seekTo_underflow (h : Reader.seekUnderflows r wh) :
    Reader.seekTo wh r = Reader.raise .undefined 0 [] r := by
  unfold Reader.seekTo
  dsimp only
  rw [if_neg (by rw [hcap]; decide)]
  exact if_pos h

variable (hrange : ¬ Reader.seekUnderflows r wh)
include hrange

theorem Reader.seekTo_of_go {target : Nat} {r' : Reader}
    (h : Reader.srcSeek r (Reader.seekOffset r wh) wh = (some target, r')) :
    Reader.seekTo wh r = Reader.realign target r' := by
  unfold Reader.seekTo
  dsimp only
  rw [if_neg (by rw [hcap]; decide)]
  refine (if_neg hrange).trans ?_
  rw [Reader.seekOffset] at h
  rw [h]

theorem Reader.seekTo_of_stop {r' : Reader} (h : Reader.srcSeek r (Reader.seekOffset r wh) wh = (none, r')) :
    Reader.seekTo wh r = Reader.raise .ioError 0 [] r' := by
  unfold Reader.seekTo
  dsimp only
  rw [if_neg (by rw [hcap]; decide)]
  refine (if_neg hrange).trans ?_
  rw [Reader.seekOffset] at h
  rw [h]

/-- Over a source that obeys, a target that is not negative is reached. -/
theorem Reader.seekTo_obey {target : Nat} (htarget : Reader.seekTarget r wh = target)
    (ha : nextAnswer r.source.plan = .obey) :
    Reader.seekTo wh r = Reader.realign target { r with source := Source.moved r.source target 1 } :=
  Reader.seekTo_of_go hcap hrange (Reader.srcSeek_moved ha (by rw [Reader.base_add_seekOffset, htarget]))

theorem Reader.seekTo_fail (h : Reader.seekTarget r wh < 0 ∨ nextAnswer r.source.plan = .fail) :
    ∃ r', Reader.seekTo wh r = Reader.raise .ioError 0 [] r' ∧ Reader.sameControl r r' := by
  obtain ⟨r', hseek, hcontrol⟩ := Reader.srcSeek_fail_sameControl (r := r) (off := Reader.seekOffset r wh) (wh := wh)
    (by rw [Reader.base_add_seekOffset]; exact h.symm)
  exact ⟨r', Reader.seekTo_of_stop hcap hrange hseek, hcontrol⟩

end

/-- The two seeks that end at the boundary use two of the source's answers. -/
theorem Reader.backAt_moved (target : Nat) (r : Reader) :
    Reader.backAt target { r with source := Source.moved r.source target 1 } =
      { r with cur := -1, source := Source.moved r.source (target - target % bs) 2 } := by
  rw [Reader.backAt, Source.moved_moved]

theorem obeysNext_three {plan : List PortAnswer} (h : obeysNext plan 3) :
    nextAnswer plan = .obey ∧ nextAnswer (plan.drop 1) = .obey ∧ nextAnswer (plan.drop 2) = .obey := by
  obtain ⟨htwo, hthird⟩ := (obeysNext_add plan 2 1).1 h
  obtain ⟨hfirst, hsecond⟩ := (obeysNext_add plan 1 1).1 htwo
  exact ⟨obeysNext_one.1 hfirst, obeysNext_one.1 hsecond, obeysNext_one.1 hthird⟩

/-- Settles O51: the underlying seek reaches the target, and the re-alignment fetches its block. -/
theorem seeksReachTheTarget : Obligations.SeeksReachTheTarget := by
  intro p hp s n hcur hready hcap hrange target htarget
  have hexec := exec_seek hp hcur hready
  refine ⟨seekResult target, seekResult_of_le, fun hrem ha => ?_, fun hrem hobey => ?_⟩
  · rw [hexec, Reader.seekTo_obey hcap hrange htarget ha, Reader.realign_of_boundary hrem]
  · intro boundary hheld
    obtain ⟨hfirst, hsecond, hthird⟩ := obeysNext_three hobey
    rw [hexec, Reader.seekTo_obey hcap hrange htarget hfirst,
      Reader.realign_of_fetch_go hrem (r := { n.r with source := Source.moved n.r.source target 1 }) hsecond]
    rw [Reader.backAt_moved]
    exact Reader.fetch_ok hthird hheld

/-- Settles O52: the checks in their order, then the ways the source can fail the re-alignment. -/
theorem seeksFailAsTheirRuleSays : Obligations.SeeksFailAsTheirRuleSays := by
  intro p hp s n hcur hready hcap
  have hexec := exec_seek hp hcur hready
  obtain ⟨-, hfault, -⟩ := hready
  refine ⟨fun hunder => ?_, fun hrange hfail => ?_, fun hrange target htarget hrem => ?_⟩
  · rw [Reader.seekTo_underflow hcap hunder] at hexec
    exact ⟨_, hexec, Reader.raise_faultsWith rfl 0 [] (.refl n.r), Reader.raise_source _ _ _ _⟩
  · obtain ⟨r', hraise, hcontrol⟩ := Reader.seekTo_fail hcap hrange hfail
    rw [hraise] at hexec
    exact ⟨_, hexec, Reader.raise_faultsWith rfl 0 [] hcontrol⟩
  · intro boundary held
    have hmoved : Reader.sameControl n.r { n.r with source := Source.moved n.r.source target 1 } :=
      ⟨rfl, rfl, rfl, rfl, rfl, rfl, rfl, rfl, rfl⟩
    refine ⟨fun hobey hheld => ?_, fun hfirst hfail => ?_⟩
    · obtain ⟨hfirst, hsecond, hthird⟩ := obeysNext_three hobey
      obtain ⟨r', hfetch, hcontrol, hempty, -⟩ :=
        Reader.fetch_dry (r := { n.r with cur := -1, source := boundary }) hthird hheld
      rw [Reader.seekTo_obey hcap hrange htarget hfirst,
        Reader.realign_of_fetch_stop hrem (r := { n.r with source := Source.moved n.r.source target 1 }) hsecond
          ((congrArg Reader.fetch (Reader.backAt_moved target n.r)).trans hfetch)] at hexec
      have hcontrol' : Reader.sameControl n.r { n.r with cur := -1, source := boundary } :=
        ⟨rfl, rfl, rfl, rfl, rfl, rfl, rfl, rfl, rfl⟩
      refine ⟨_, hexec, Reader.raise_runsDry _ _ _ ((hcontrol'.trans hcontrol).trans
        (Reader.atBoundary_sameControl _ _ _)) hfault ((Reader.atBoundary_cur _ _ _).trans hempty), fun hnone => ?_⟩
      rw [Reader.raise_source]
      show (Reader.atBoundary _ (dryCode held) r').source.pos = _
      rw [hnone, dryCode_zero, Reader.atBoundary_endOfData_pos]
      rfl
    · obtain ⟨r', hraise, hcontrol⟩ := Reader.realign_fail hrem
        (r := { n.r with source := Source.moved n.r.source target 1 })
        fun htwo => hfail ((obeysNext_add _ 1 2).2 ⟨hfirst, htwo⟩)
      rw [Reader.seekTo_obey hcap hrange htarget (obeysNext_one.1 hfirst), hraise] at hexec
      exact ⟨_, hexec, Reader.raise_faultsWith rfl 0 [] (hmoved.trans hcontrol)⟩

/-! ### The machine of micro-states (42_reader.md R192) -/

/-- From `x` the machine finishes within `k` micro-steps, with the reader `r`. -/
def SeekRun.endsWith (k : Nat) (x : SeekRun) (r : Reader) : Prop :=
  (SeekRun.run k x).st = .finished ∧ (SeekRun.run k x).reader = r

theorem SeekRun.run_finish (k : Nat) (x : SeekRun) (r : Reader) :
    SeekRun.run k (SeekRun.finish x r) = SeekRun.finish x r := by
  induction k with
  | zero => rfl
  | succ k ih => exact ih

theorem SeekRun.endsWith_finish (k : Nat) (x : SeekRun) (r : Reader) :
    SeekRun.endsWith k (SeekRun.finish x r) r := by
  rw [SeekRun.endsWith, SeekRun.run_finish]
  exact ⟨rfl, rfl⟩

theorem SeekRun.endsWith_step {k : Nat} {x y : SeekRun} {r : Reader} (hmicro : SeekRun.micro x = y)
    (h : SeekRun.endsWith k y r) : SeekRun.endsWith (k + 1) x r := by
  subst hmicro
  exact h

section
variable (r : Reader) (off : Int) (wh : Origin) (target rem : Nat)

/-- From the invalidation on, the machine is the re-alignment. -/
theorem SeekRun.endsWith_inval :
    SeekRun.endsWith 5 ⟨.skInval, r, off, wh, target, rem⟩ (Reader.realign target r) := by
  by_cases hrem : target % bs = 0
  · rw [Reader.realign_of_boundary hrem]
    refine SeekRun.endsWith_step (y := ⟨.skDone, { r with cur := -1 }, off, wh, target, target % bs⟩) ?_
      (SeekRun.endsWith_step rfl (SeekRun.endsWith_finish 3 _ _))
    simp only [SeekRun.micro, if_pos hrem]
  refine SeekRun.endsWith_step (y := ⟨.skBack, { r with cur := -1 }, off, wh, target, target % bs⟩)
    (by simp only [SeekRun.micro, if_neg hrem]) ?_
  rcases nextAnswer_cases r.source.plan with ha | ha
  · refine SeekRun.endsWith_step
      (y := ⟨.skFetch, Reader.backAt target r, off, wh, target, target % bs⟩)
      (by simp only [SeekRun.micro, Reader.srcSeek_back ha]) ?_
    cases hfetch : Reader.fetch (Reader.backAt target r) with
    | go r' =>
      rw [Reader.realign_of_fetch_go hrem ha hfetch]
      refine SeekRun.endsWith_step (y := ⟨.skCursor, r', off, wh, target, target % bs⟩)
        (by simp only [SeekRun.micro, hfetch]) ?_
      exact SeekRun.endsWith_step rfl (SeekRun.endsWith_step rfl (SeekRun.endsWith_finish 0 _ _))
    | stop c r' =>
      rw [Reader.realign_of_fetch_stop hrem ha hfetch]
      refine SeekRun.endsWith_step ?_ (SeekRun.endsWith_finish 2
        ⟨.skFetch, Reader.backAt target r, off, wh, target, target % bs⟩ _)
      simp only [SeekRun.micro, hfetch]
  · obtain ⟨r', hseek, -⟩ := Reader.srcSeek_fail_sameControl (r := { r with cur := -1 })
      (off := (target : Int) - (target % bs : Nat)) (wh := .start) (.inl ha)
    rw [Reader.realign_of_back_stop hrem hseek]
    refine SeekRun.endsWith_step ?_ (SeekRun.endsWith_finish 3
      ⟨.skBack, { r with cur := -1 }, off, wh, target, target % bs⟩ _)
    simp only [SeekRun.micro, hseek]

/-- From the compensation on, the machine is the seek of a reader with the capability and without underflow. -/
theorem SeekRun.endsWith_seek (hcap : r.seek = true) (hrange : ¬ Reader.seekUnderflows r wh) :
    SeekRun.endsWith 6 ⟨.skSeek, r, Reader.seekOffset r wh, wh, target, rem⟩ (Reader.seekTo wh r) := by
  cases hseek : Reader.srcSeek r (Reader.seekOffset r wh) wh with
  | mk reached r' =>
    cases reached with
    | none =>
      rw [Reader.seekTo_of_stop hcap hrange hseek]
      refine SeekRun.endsWith_step ?_ (SeekRun.endsWith_finish 5
        ⟨.skSeek, r, Reader.seekOffset r wh, wh, target, rem⟩ _)
      simp only [SeekRun.micro, hseek]
    | some pos =>
      rw [Reader.seekTo_of_go hcap hrange hseek]
      refine SeekRun.endsWith_step ?_ (SeekRun.endsWith_inval r' (Reader.seekOffset r wh) wh pos rem)
      simp only [SeekRun.micro, hseek]

end

/-- The whole machine (42_reader.md R192): capability, compensation, and the seek. -/
theorem SeekRun.endsWith_start (wh : Origin) (r : Reader) :
    SeekRun.endsWith 8 (SeekRun.start wh r) (Reader.seekTo wh r) := by
  cases hcap : r.seek with
  | false =>
    have hmicro : SeekRun.micro (SeekRun.start wh r) =
        SeekRun.finish (SeekRun.start wh r) (Reader.raise .unsupported 0 [] r) := if_neg (by simp [SeekRun.start, hcap])
    have hseek : Reader.seekTo wh r = Reader.raise .unsupported 0 [] r := if_pos hcap
    rw [hseek]
    exact SeekRun.endsWith_step hmicro (SeekRun.endsWith_finish 7 _ _)
  | true =>
    refine SeekRun.endsWith_step (y := ⟨.skComp, r, offsetOperand r.regs.arg0, wh, 0, 0⟩) (if_pos hcap) ?_
    by_cases hunder : Reader.seekUnderflows r wh
    · obtain ⟨hwh, hlt⟩ := id hunder
      rw [Reader.seekTo_underflow hcap hunder]
      refine SeekRun.endsWith_step ?_ (SeekRun.endsWith_finish 6
        ⟨.skComp, r, offsetOperand r.regs.arg0, wh, 0, 0⟩ _)
      exact (if_pos hwh).trans (if_pos hlt)
    · refine SeekRun.endsWith_step ?_ (SeekRun.endsWith_seek r wh 0 0 hcap hunder)
      simp only [SeekRun.micro, Reader.seekOffset]
      by_cases hwh : wh = .current
      · have hle : ¬ offsetOperand r.regs.arg0 - Reader.buffered r < minOffset := fun hlt => hunder ⟨hwh, hlt⟩
        simp only [if_pos hwh, if_neg hle]
      · simp only [if_neg hwh]

/-- Settles O53: the machine's branches are the procedure's. -/
theorem seekRunsItsMicroStates : Obligations.SeekRunsItsMicroStates := by
  intro p hp s n hcur hready
  obtain ⟨hfinished, hreader⟩ := SeekRun.endsWith_start p.2 n.r
  exact ⟨hfinished, by rw [exec_seek hp hcur hready, hreader]⟩

end Sys2Proof.Machine
end

section
/-! Sequences of reader commands (42_reader.md R193, R194): reads split, seeks against reads, and the settled
statements. -/

namespace Sys2Proof.Machine

open Sys2Proof.Config

/-- A read over a source that obeys and holds the blocks (42_reader.md R174). -/
theorem exec_rRead_obey {s : State} {n : Instance} {len : Nat} (hcur : State.cur? s = some n)
    (hready : Reader.ready n.r) (hobey : obeysNext n.r.source.plan (Reader.blocksFor n.r len))
    (hheld : (Source.nextBlocks n.r.source (Reader.blocksFor n.r len)).length = bs * Reader.blocksFor n.r len) :
    exec (.rRead len) s = .next (State.setR s n (Reader.finish .ok (BitVec.ofNat 64 len)
      ((Reader.plaintext n.r (Reader.blocksFor n.r len)).take len) (Reader.advance n.r len))) := by
  rw [exec_reader_of_ready rfl rfl hcur hready]
  refine congrArg (fun r => Host.Outcome.next (State.setR s n r)) ?_
  exact (Reader.read_of_go (Reader.readLoop_ok le_rfl hobey hheld)).trans (by rw [List.nil_append])

/-! ### Two reads (42_reader.md R193) -/

/-- The reader with other registers and another run of delivered bytes. -/
def Reader.withOutput (r : Reader) (g : HostRegs) (stream : List Byte) : Reader :=
  { r with regs := g, stream := stream }

section
variable {r : Reader} {a b : Nat}
  (hheld : (Source.nextBlocks r.source (Reader.blocksFor r (a + b))).length = bs * Reader.blocksFor r (a + b))
include hheld

theorem Reader.held_first :
    (Source.nextBlocks r.source (Reader.blocksFor r a)).length = bs * Reader.blocksFor r a :=
  Source.nextBlocks_length_of_le hheld (Nat.div_le_div_right (by omega))

/-- Behind the blocks of the first part the source holds those of the second. -/
theorem Reader.held_second :
    (Source.nextBlocks (Reader.advance r a).source (Reader.blocksFor (Reader.advance r a) b)).length =
      bs * Reader.blocksFor (Reader.advance r a) b := by
  have hfirst := Reader.held_first hheld
  have hsplit := congrArg List.length (Source.nextBlocks_add hfirst (Reader.blocksFor (Reader.advance r a) b)
    (Reader.blocksFor r a))
  rw [← Reader.blocksFor_add b hfirst, hheld, List.length_append, hfirst, Reader.blocksFor_add b hfirst,
    Nat.mul_add] at hsplit
  exact (Nat.add_left_cancel hsplit).symm

/-- The bytes of a delivery are those of its parts. -/
theorem Reader.delivered_add :
    (Reader.plaintext r (Reader.blocksFor r (a + b))).take (a + b) =
      (Reader.plaintext r (Reader.blocksFor r a)).take a ++
        (Reader.plaintext (Reader.advance r a) (Reader.blocksFor (Reader.advance r a) b)).take b := by
  have hlen := Reader.plaintext_take_length r a
  rw [Reader.plaintext_add b hheld, List.take_append, hlen, List.take_of_length_le (by omega), Nat.add_sub_cancel_left]

end

/-- Settles O54: both runs deliver, and delivering in two parts is delivering at once. -/
theorem readsMayBeSplit : Obligations.ReadsMayBeSplit := by
  intro s n a b hcur hready hobey hheld
  have hfirst := Reader.held_first hheld
  obtain ⟨hobeyA, hobeyB⟩ := (obeysNext_add _ _ _).1 (Reader.blocksFor_add b hfirst ▸ hobey)
  have hboth := exec_rRead_obey hcur hready hobey hheld
  have hreadA := exec_rRead_obey hcur hready hobeyA hfirst
  generalize hout : (Reader.plaintext n.r (Reader.blocksFor n.r a)).take a = out at hreadA
  have hreadB := exec_rRead_obey (len := b)
    (cur?_setR hcur n (Reader.finish .ok (BitVec.ofNat 64 a) out (Reader.advance n.r a))) hready hobeyB
    (Reader.held_second hheld)
  refine ⟨_, _, _, _, _, _, hboth, cur?_setR hcur n _, hreadA, cur?_setR hcur n _, hreadB,
    cur?_setR (cur?_setR hcur n _) _ _, rfl, rfl, ?_, ?_⟩
  · show List.take _ _ = out ++ _
    rw [Reader.delivered_add hheld, hout]
    rfl
  · show Reader.withOutput (Reader.advance (Reader.advance n.r a) b) _ ((n.r.stream ++ out) ++ _) =
      Reader.withOutput (Reader.advance n.r (a + b)) _ (n.r.stream ++ _)
    rw [Reader.advance_add b hheld, Reader.delivered_add hheld, hout, List.append_assoc]
    rfl

/-! ### Seeking and discarding (42_reader.md R194) -/

/-- Both readers have the same bytes before them. -/
def Reader.readsLike (r r' : Reader) : Prop :=
  Reader.unread r = Reader.unread r' ∧ r.key = r'.key ∧ r.source.mem = r'.source.mem ∧ r.source.pos = r'.source.pos

section
variable {r r' : Reader} (h : Reader.readsLike r r')
include h

theorem Reader.readsLike.blocksFor (c : Nat) : Reader.blocksFor r c = Reader.blocksFor r' c := by
  obtain ⟨hunread, -⟩ := h
  rw [Reader.blocksFor, Reader.blocksFor, hunread]

theorem Reader.readsLike.nextBlocks (m : Nat) : Source.nextBlocks r.source m = Source.nextBlocks r'.source m := by
  obtain ⟨-, -, hmem, hpos⟩ := h
  rw [Source.nextBlocks, Source.nextBlocks, hmem, hpos]

theorem Reader.readsLike.plaintext (m : Nat) : Reader.plaintext r m = Reader.plaintext r' m := by
  obtain ⟨hunread, hkey, -⟩ := id h
  rw [Reader.plaintext, Reader.plaintext, hunread, hkey, h.nextBlocks]

end

/-- A read from a reader with the bytes of `r` before it delivers what one from `r` does. -/
theorem exec_rRead_readsLike {u : State} {k : Instance} {r : Reader} {count : Nat} (hcur : State.cur? u = some k)
    (hready : Reader.ready k.r) (hplan : k.r.source.plan = []) (hlike : Reader.readsLike k.r r)
    (hheld : (Source.nextBlocks r.source (Reader.blocksFor r count)).length = bs * Reader.blocksFor r count) :
    ∃ v k', exec (.rRead count) u = .next v ∧ State.cur? v = some k' ∧ k'.r.regs.code = .ok ∧
      k'.r.regs.dout = (Reader.plaintext r (Reader.blocksFor r count)).take count := by
  have hread := exec_rRead_obey (len := count) hcur hready (by rw [hplan]; exact obeysNext_nil _)
    (by rw [hlike.nextBlocks, hlike.blocksFor]; exact hheld)
  rw [hlike.plaintext, hlike.blocksFor] at hread
  exact ⟨_, _, hread, cur?_setR hcur k _, rfl, rfl⟩

/-- Where the block of an offset begins. -/
theorem blockStart_eq (offset : Nat) : offset - offset % bs = bs * (offset / bs) := by
  have := Nat.div_add_mod offset bs
  omega

/-- The last of the blocks a source holds next. -/
theorem Source.nextBlocks_block {c : Source} {m : Nat} (h : (Source.nextBlocks c (m + 1)).length = bs * (m + 1))
    (calls : Nat) :
    Source.nextBlocks (Source.moved c (c.pos + bs * m) calls) 1 = (Source.nextBlocks c (m + 1)).drop (bs * m) := by
  have hwhole := Source.nextBlocks_length_of_le h (Nat.le_succ m)
  rw [Source.nextBlocks_add hwhole 1 calls, List.drop_left' hwhole]

section
variable {r : Reader} {offset : Nat} (hempty : r.cur = -1) (hpos : r.source.pos = 0)
  (hheld : (Source.nextBlocks r.source (Reader.blocksFor r offset)).length = bs * Reader.blocksFor r offset)
include hempty hpos hheld

/-- At a block boundary nothing is left of the blocks read. -/
theorem Reader.readsLike_boundary (hrem : offset % bs = 0) :
    Reader.readsLike { r with cur := -1, source := Source.moved r.source offset 1 } (Reader.advance r offset) := by
  have hunread : Reader.unread r = [] := Reader.unread_eq_nil (.inl (by omega))
  have hm : bs * Reader.blocksFor r offset = offset := by
    rw [Reader.blocksFor, hunread]
    show 8 * ((offset - 0 + 7) / 8) = offset
    change offset % 8 = 0 at hrem
    omega
  refine ⟨?_, rfl, rfl, ?_⟩
  · rw [Reader.unread_advance hheld, List.drop_eq_nil_of_le (by rw [Reader.plaintext_length, hunread, hm]; simp)]
    exact Reader.unread_eq_nil (.inl (by decide : (-1 : Int) < 0))
  · show offset = r.source.pos + bs * Reader.blocksFor r offset
    rw [hm, hpos, Nat.zero_add]

/-- Inside a block the rest of that block is left. -/
theorem Reader.readsLike_inside (hrem : offset % bs ≠ 0) :
    Reader.readsLike
      { Reader.loaded { r with source := Source.moved r.source (offset - offset % bs) 2 } with cur := (offset % bs : Nat) }
      (Reader.advance r offset) := by
  have hunread : Reader.unread r = [] := Reader.unread_eq_nil (.inl (by omega))
  have hm : Reader.blocksFor r offset = offset / bs + 1 := by
    rw [Reader.blocksFor, hunread]
    show (offset - 0 + 7) / 8 = offset / 8 + 1
    change offset % 8 ≠ 0 at hrem
    omega
  have hback : offset - offset % bs = r.source.pos + bs * (offset / bs) := by rw [hpos, Nat.zero_add, blockStart_eq]
  refine ⟨?_, rfl, rfl, ?_⟩
  · rw [hm] at hheld
    have hblock := Source.nextBlocks_block hheld 2
    rw [← hback] at hblock
    have hlast : (Reader.plaintext r (offset / bs + 1)).drop offset =
        (blockBytes (dec r.key (blockOfBytes
          (Source.nextBlocks (Source.moved r.source (offset - offset % bs) 2) 1)))).drop (offset % bs) := by
      rw [hblock, ← decBlocks_drop_last r.key _ _ hheld, List.drop_drop, Nat.div_add_mod, Reader.plaintext, hunread,
        List.nil_append]
    rw [Reader.unread_advance (by rw [hm]; exact hheld), hm, hlast, Reader.unread_of_loaded (Int.natCast_nonneg _),
      blockSlice, List.take_of_length_le (by rw [List.length_drop, blockBytes_length]; omega)]
    rfl
  · show offset - offset % bs + bs = r.source.pos + bs * Reader.blocksFor r offset
    rw [hm, hback, Nat.mul_add]
    rfl

end

/-- Settles O57: the seek leaves a reader with the bytes before it that are before one that read up to the offset. -/
theorem seekingEqualsReadingAndDiscarding : Obligations.SeekingEqualsReadingAndDiscarding := by
  intro s n blocks offset count hcur hready hcap hempty hpos hplan hblocks hoffset hcount harg
  have hunread : Reader.unread n.r = [] := Reader.unread_eq_nil (.inl (by omega))
  have hneed : Reader.blocksFor n.r (offset + count) ≤ blocks := by
    rw [Reader.blocksFor, hunread]
    show (offset + count - 0 + 7) / 8 ≤ blocks
    change offset + count ≤ 8 * blocks at hcount
    omega
  have hheld := Source.nextBlocks_length_of_le hblocks hneed
  have hfirst := Reader.held_first hheld
  have hobeys : ∀ m, obeysNext n.r.source.plan m := fun m => by rw [hplan]; exact obeysNext_nil m
  have hread := exec_rRead_obey hcur hready (hobeys _) hheld
  obtain ⟨result, -, hboundary, hinside⟩ := seeksReachTheTarget (.rSeekSet, .start) (by decide) s n hcur hready hcap
    (fun hunder => absurd hunder.1 (by decide)) offset harg
  obtain ⟨u, k, hseek, hcurU, hreadyU, hplanU, hlike⟩ : ∃ u k, exec .rSeekSet s = .next u ∧ State.cur? u = some k ∧
      Reader.ready k.r ∧ k.r.source.plan = [] ∧ Reader.readsLike k.r (Reader.advance n.r offset) := by
    by_cases hrem : offset % bs = 0
    · exact ⟨_, _, hboundary hrem (by rw [hplan]; rfl), cur?_setR hcur n _, hready,
        (congrArg (List.drop 1) hplan), Reader.readsLike_boundary hempty hpos hfirst hrem⟩
    · refine ⟨_, _, hinside hrem (hobeys 3) ?_, cur?_setR hcur n _, hready, ?_,
        Reader.readsLike_inside hempty hpos hfirst hrem⟩
      · have hback : offset - offset % bs = n.r.source.pos + bs * (offset / bs) := by
          rw [hpos, Nat.zero_add, blockStart_eq]
        have hblock := Source.nextBlocks_length_of_le hblocks (Nat.div_lt_of_lt_mul hoffset)
        show (Source.nextBlocks (Source.moved n.r.source (offset - offset % bs) 2) 1).length = bs
        rw [hback, Source.nextBlocks_block hblock, List.length_drop, hblock, Nat.mul_succ]
        exact Nat.add_sub_cancel_left _ _
      · show (n.r.source.plan.drop 2).drop 1 = []
        rw [hplan]
        rfl
  obtain ⟨v, k', hreadU, hcurV, hcode, hdout⟩ := exec_rRead_readsLike (count := count) hcurU hreadyU hplanU hlike
    (Reader.held_second hheld)
  refine ⟨_, u, v, _, k', hread, cur?_setR hcur n _, hseek, hreadU, hcurV, rfl, hcode, ?_⟩
  show _ = List.drop offset (List.take _ _)
  rw [hdout, Reader.delivered_add hheld, List.drop_left' (Reader.plaintext_take_length n.r offset)]

end Sys2Proof.Machine
end

section
/-! The reader's logical position and its state machine (42_reader.md R191, R193): what each rule that finishes OK did to
the cursor and to the source's position. -/

namespace Sys2Proof.Machine

open Sys2Proof.Config

/-! ### The position and the cursor, step by step (42_reader.md R172, R193) -/

theorem Reader.position_of_unloaded {r : Reader} (h : r.cur < 0 ∨ r.cur ≥ bs) :
    Reader.position r = r.source.pos := by
  rw [Reader.position, Reader.buffered, if_neg (by omega)]
  exact Int.sub_zero _

theorem Reader.position_of_loaded {r : Reader} (h0 : 0 ≤ r.cur) (h8 : r.cur ≤ bs) :
    Reader.position r = r.source.pos - (bs - r.cur) := by
  rw [Reader.position, Reader.buffered]
  split_ifs <;> omega

theorem Reader.position_loaded (r : Reader) : Reader.position (Reader.loaded r) = r.source.pos := by
  rw [Reader.position_of_loaded le_rfl (by decide : (0 : Int) ≤ bs)]
  show ((r.source.pos + bs : Nat) : Int) - (bs - 0) = r.source.pos
  omega

theorem Reader.loaded_of_fetch_go {r r' : Reader} (h : Reader.fetch r = .go r') : r' = Reader.loaded r := by
  rcases Reader.fetch_cases r with ⟨-, -, hgo⟩ | ⟨c, r'', hstop, -⟩
  · rw [hgo] at h
    exact (Flow.go.inj h).symm
  · rw [hstop] at h
    cases h

/-- The reader `r'` is left by `r` once it delivered `n` bytes. -/
def Reader.movedBy (r : Reader) (n : Nat) (r' : Reader) : Prop :=
  Reader.position r' = Reader.position r + n ∧ (0 < n → 0 < r'.cur ∧ r'.cur ≤ bs)

theorem Reader.readLoop_zero (turns : Nat) (out : List Byte) (r : Reader) :
    Reader.readLoop turns 0 out r = .go (out, r) := by cases turns <;> rfl

/-- The bytes of one turn move the position by their number. -/
theorem Reader.movedBy_take {r : Reader} {k : Nat} (h0 : 0 ≤ r.cur) (hk : k ≤ bs - r.cur.toNat) (h8 : r.cur < bs) :
    Reader.movedBy r k { r with cur := r.cur + k } := by
  refine ⟨?_, fun hpos => ⟨?_, ?_⟩⟩
  · rw [Reader.position_of_loaded h0 h8.le, Reader.position_of_loaded (by simp only; omega) (by simp only; omega)]
    simp only
    omega
  · simp only
    omega
  · simp only
    omega

/-- A read loop that goes through, over any source. -/
theorem Reader.readLoop_movedBy {turns n : Nat} {out out' : List Byte} {r r' : Reader} (ht : n ≤ turns)
    (h : Reader.readLoop turns n out r = .go (out', r')) : Reader.movedBy r n r' := by
  induction turns generalizing n out r with
  | zero =>
    obtain rfl : n = 0 := by omega
    cases h
    exact ⟨(Int.add_zero _).symm, nofun⟩
  | succ turns ih =>
    cases n with
    | zero =>
      cases h
      exact ⟨(Int.add_zero _).symm, nofun⟩
    | succ owed =>
      -- one turn from a loaded block, then the rest
      have turn : ∀ r1 : Reader, 0 ≤ r1.cur → r1.cur < bs →
          Reader.readLoop turns (owed + 1 - min (bs - r1.cur.toNat) (owed + 1))
            (out ++ blockSlice r1.buf r1.cur.toNat (min (bs - r1.cur.toNat) (owed + 1)))
            { r1 with cur := r1.cur + (min (bs - r1.cur.toNat) (owed + 1) : Nat) } = .go (out', r') →
          Reader.movedBy r1 (owed + 1) r' := by
        intro r1 h0 h8 hloop
        generalize hk : min (bs - r1.cur.toNat) (owed + 1) = k at hloop
        obtain ⟨hpos, hcur⟩ := Reader.movedBy_take (k := k) h0 (by omega) h8
        obtain ⟨hpos', hcur'⟩ := ih (by omega) hloop
        refine ⟨by rw [hpos', hpos]; omega, fun _ => ?_⟩
        rcases Nat.eq_zero_or_pos (owed + 1 - k) with hdone | hmore
        · rw [hdone, Reader.readLoop_zero] at hloop
          cases hloop
          exact hcur (by omega)
        · exact hcur' hmore
      rw [Reader.readLoop] at h
      by_cases hex : r.cur < 0 ∨ r.cur ≥ bs
      · rw [if_pos hex] at h
        cases hfetch : Reader.fetch r with
        | stop c r1 => rw [hfetch] at h; cases h
        | go r1 =>
          rw [hfetch] at h
          obtain rfl := Reader.loaded_of_fetch_go hfetch
          obtain ⟨hpos, hcur⟩ := turn (Reader.loaded r) le_rfl (by decide : (0 : Int) < bs) h
          exact ⟨by rw [hpos, Reader.position_loaded, Reader.position_of_unloaded hex], hcur⟩
      · rw [if_neg hex] at h
        exact turn r (by omega) (by omega) h

/-! ### What a rule did that finished OK -/

theorem Reader.raise_code (c : Code) (v : Word64) (dout : List Byte) (r : Reader) :
    (Reader.raise c v dout r).regs.code = c := by rw [Reader.raise_regs]; rfl

/-- None of the codes of a source that ends or fails is OK. -/
theorem not_ok_of_stop {c : Code} (h : c = .endOfData ∨ c = .shortRead ∨ c = .ioError) : c ≠ .ok := by
  rcases h with rfl | rfl | rfl <;> decide

/-- The rule finished OK with the reader `r'` behind it. -/
def Reader.finishedOk (r' r : Reader) : Prop := ∃ v dout, r = Reader.finish .ok v dout r'

theorem Reader.read_ok {n : Nat} {r : Reader} (h : (Reader.read n r).regs.code = .ok) :
    ∃ r', Reader.movedBy r n r' ∧ Reader.finishedOk r' (Reader.read n r) := by
  obtain ⟨out, r', -, -, hgo | ⟨c, hstop, -, hc⟩⟩ := Reader.readLoop_frame n n [] r
  · exact ⟨r', Reader.readLoop_movedBy le_rfl hgo, _, _, Reader.read_of_go hgo⟩
  · rw [Reader.read_of_stop hstop, Reader.raise_code] at h
    exact absurd h (not_ok_of_stop hc)

theorem Reader.readValue_ok {k : Width} {signed : Bool} {r : Reader}
    (h : (Reader.readValue k signed r).regs.code = .ok) :
    ∃ r', Reader.movedBy r (Width.bytes k) r' ∧ Reader.finishedOk r' (Reader.readValue k signed r) := by
  obtain ⟨out, r', -, -, hgo | ⟨c, hstop, -, hc⟩⟩ := Reader.readLoop_frame (Width.bytes k) (Width.bytes k) [] r
  · exact ⟨r', Reader.readLoop_movedBy le_rfl hgo, _, _, Reader.readValue_of_go hgo⟩
  · rw [Reader.readValue_of_stop hstop, Reader.raise_code] at h
    exact absurd h (not_ok_of_stop hc)

theorem Reader.align_ok {r : Reader} (h : (Reader.align r).regs.code = .ok) :
    Reader.finishedOk (if 0 < r.cur ∧ r.cur < bs then Reader.loaded r else r) (Reader.align r) := by
  split_ifs with hpart
  · obtain ⟨hpos, hlt⟩ := hpart
    have hbody := Reader.alignBody_of_partial hpos hlt
    cases hfetch : Reader.fetch { r with cur := -1 } with
    | go r' =>
      obtain rfl := Reader.loaded_of_fetch_go hfetch
      exact ⟨_, _, Reader.align_of_go (hbody.trans hfetch)⟩
    | stop c r' =>
      rcases Reader.fetch_cases { r with cur := -1 } with ⟨-, -, hgo⟩ | ⟨c', r'', hstop, -, -, hc⟩
      · rw [hgo] at hfetch; cases hfetch
      · rw [Reader.align_of_stop (hbody.trans hstop), Reader.raise_code] at h
        exact absurd h (not_ok_of_stop hc)
  · exact ⟨_, _, Reader.align_of_go (Reader.alignBody_of_aligned (by omega))⟩

theorem Reader.readAligned_ok {r : Reader} (h : (Reader.readAligned r).regs.code = .ok) :
    ∃ r' : Reader, (0 < r'.cur ∧ r'.cur ≤ bs) ∧ Reader.finishedOk r' (Reader.readAligned r) := by
  rcases Reader.alignBody_cases r with ⟨r1, hgo, -⟩ | ⟨c, r1, hstop, -, -, hc⟩
  · obtain ⟨out, r', -, -, hread | ⟨c, hread, -, hc⟩⟩ := Reader.readLoop_frame bs bs [] r1
    · obtain ⟨-, hcur⟩ := Reader.readLoop_movedBy le_rfl hread
      exact ⟨r', hcur (by decide), _, _, Reader.readAligned_of_go hgo hread⟩
    · rw [Reader.readAligned_of_read_stop hgo hread, Reader.raise_code] at h
      exact absurd h (not_ok_of_stop (.inr (shortfallCode_cases hc)))
  · rw [Reader.readAligned_of_align_stop hstop, Reader.raise_code] at h
    exact absurd h (not_ok_of_stop hc)

/-- A re-alignment that finished OK: at the boundary no block is loaded, inside a block that block is. -/
theorem Reader.realign_ok {target : Nat} {r : Reader} (h : (Reader.realign target r).regs.code = .ok) :
    Reader.finishedOk (if target % bs = 0 then { r with cur := -1 }
      else { Reader.loaded (Reader.backAt target r) with cur := (target % bs : Nat) }) (Reader.realign target r) := by
  by_cases hrem : target % bs = 0
  · rw [if_pos hrem]
    exact ⟨_, _, Reader.realign_of_boundary hrem r⟩
  rw [if_neg hrem]
  rcases nextAnswer_cases r.source.plan with ha | ha
  · rcases Reader.fetch_cases (Reader.backAt target r) with ⟨-, -, hgo⟩ | ⟨c, r', hstop, -, -, hc⟩
    · exact ⟨_, _, Reader.realign_of_fetch_go hrem ha hgo⟩
    · rw [Reader.realign_of_fetch_stop hrem ha hstop, Reader.raise_code] at h
      exact absurd h (not_ok_of_stop hc)
  · obtain ⟨r', hraise, -⟩ := Reader.realign_fail hrem (target := target) (r := r) fun htwo => by
      have hfirst := obeysNext_one.1 ((obeysNext_add _ 1 1).1 htwo).1
      rw [ha] at hfirst
      cases hfirst
    rw [hraise, Reader.raise_code] at h
    cases h

/-- Inside the fetched block the cursor at the remainder stands at the target. -/
theorem Reader.position_realigned {target : Nat} (r : Reader) :
    Reader.position { Reader.loaded (Reader.backAt target r) with cur := (target % bs : Nat) } = target := by
  have hlt := Nat.mod_lt target (show 0 < bs by decide)
  have hle := Nat.mod_le target bs
  rw [Reader.position_of_loaded (Int.natCast_nonneg _) (Int.ofNat_le.2 hlt.le)]
  show ((target - target % bs + bs : Nat) : Int) - (bs - (target % bs : Nat)) = target
  omega

/-- Where a seek that finished OK leaves the reader (42_reader.md R187): at its target, with no block loaded or inside the
target's block. -/
theorem Reader.seekTo_ok {wh : Origin} {r : Reader} (h : (Reader.seekTo wh r).regs.code = .ok) :
    ∃ r' : Reader, Reader.position r' = Reader.seekTarget r wh ∧ Reader.finishedOk r' (Reader.seekTo wh r) ∧
      (Reader.seekTarget r wh % bs = 0 → r'.cur < 0) ∧
      (Reader.seekTarget r wh % bs ≠ 0 → 0 ≤ r'.cur ∧ r'.cur < bs) := by
  cases hcap : r.seek with
  | false => rw [Reader.seekTo_unsupported hcap] at h; cases h
  | true =>
    by_cases hunder : Reader.seekUnderflows r wh
    · rw [Reader.seekTo_underflow hcap hunder, Reader.raise_code] at h
      cases h
    by_cases hfail : Reader.seekTarget r wh < 0 ∨ nextAnswer r.source.plan = .fail
    · obtain ⟨r', hraise, -⟩ := Reader.seekTo_fail hcap hunder hfail
      rw [hraise, Reader.raise_code] at h
      cases h
    obtain ⟨hpos, hobey⟩ := not_or.1 hfail
    obtain ⟨target, htarget⟩ := Int.eq_ofNat_of_zero_le (not_lt.1 hpos)
    rw [Reader.seekTo_obey hcap hunder htarget ((nextAnswer_cases _).resolve_right hobey)] at h ⊢
    have hfinished := Reader.realign_ok h
    rw [htarget]
    by_cases hrem : target % bs = 0
    · rw [if_pos hrem] at hfinished
      exact ⟨_, Reader.position_of_unloaded (.inl (by decide : (-1 : Int) < 0)), hfinished,
        fun _ => (by decide : (-1 : Int) < 0), fun hne => absurd hrem (by omega)⟩
    · rw [if_neg hrem] at hfinished
      exact ⟨_, Reader.position_realigned _, hfinished, fun h0 => absurd h0 (by omega),
        fun _ => ⟨Int.natCast_nonneg _, Int.ofNat_lt.2 (Nat.mod_lt _ (by decide))⟩⟩

/-! ### The settled statements -/

/-- An admitted reader command leaves what its rule does. -/
theorem reader_after {i : Instr} {s t : State} {n n' : Instance} (he : Instr.engine i = .reader)
    (hb : isBind i = false) (hcur : State.cur? s = some n) (hready : Reader.ready n.r) (hexec : exec i s = .next t)
    (hcur' : State.cur? t = some n') : n'.r = readerRule i n.r := by
  rw [exec_reader_of_ready he hb hcur hready] at hexec
  cases hexec
  rw [cur?_setR hcur] at hcur'
  cases hcur'
  rfl

theorem Reader.finishedOk.position {r r' : Reader} (h : Reader.finishedOk r' r) :
    Reader.position r = Reader.position r' := by
  obtain ⟨v, dout, rfl⟩ := h
  rfl

/-- Settles O55: the position of the reader that each rule finished OK with. -/
theorem commandsMoveTheLogicalPosition : Obligations.CommandsMoveTheLogicalPosition := by
  intro i s t n n' hcur hready hexec hcur' hok
  have hafter : Instr.engine i = .reader → isBind i = false → n'.r = readerRule i n.r := fun he hb =>
    reader_after he hb hcur hready hexec hcur'
  refine ⟨?_, ?_, ?_, ?_, ?_⟩
  · rintro len rfl
    rw [hafter rfl rfl] at hok ⊢
    obtain ⟨r', ⟨hpos, -⟩, hfinished⟩ := Reader.read_ok hok
    exact hfinished.position.trans hpos
  · rintro p hp rfl
    obtain ⟨he, hb, signed, hrule, -⟩ := readerRule_of_valueRead p hp
    rw [hafter he hb, hrule] at hok ⊢
    obtain ⟨r', ⟨hpos, -⟩, hfinished⟩ := Reader.readValue_ok hok
    exact hfinished.position.trans hpos
  · rintro p hp rfl
    obtain ⟨he, hb, hrule⟩ := readerRule_of_seekOrigin p hp
    rw [hafter he hb, hrule] at hok ⊢
    obtain ⟨r', hpos, hfinished, -⟩ := Reader.seekTo_ok hok
    exact hfinished.position.trans hpos
  · rintro rfl
    rw [hafter rfl rfl]
    rfl
  · rintro rfl
    rw [hafter rfl rfl] at hok ⊢
    refine (Reader.align_ok hok).position.trans ?_
    split_ifs
    · exact Reader.position_loaded n.r
    · rfl

end Sys2Proof.Machine
end

section
/-! The reader's state machine (42_reader.md R191). -/

namespace Sys2Proof.Machine

open Sys2Proof.Config

/-! ### The observable state of a reader (10_state.md R34, R43) -/

theorem Reader.mode_of_unbound {r : Reader} (h : r.bound = false) : Reader.mode r = .unbound := if_pos h

theorem Reader.mode_of_fault {r : Reader} (hbound : r.bound = true) (h : r.fault = true) :
    Reader.mode r = .faulted := (if_neg (by simp [hbound])).trans (if_pos h)

section
variable {r : Reader} (hbound : r.bound = true) (hfault : r.fault = false)
include hbound hfault

theorem Reader.mode_of_admitted :
    Reader.mode r = if r.cur < 0 then .empty else if r.cur < bs then .loaded else .exhausted := by
  unfold Reader.mode
  rw [if_neg (by simp [hbound]), if_neg (by simp [hfault])]

theorem Reader.mode_of_empty (h : r.cur < 0) : Reader.mode r = .empty := by
  rw [Reader.mode_of_admitted hbound hfault, if_pos h]

theorem Reader.mode_of_loaded (h0 : 0 ≤ r.cur) (h8 : r.cur < bs) : Reader.mode r = .loaded := by
  rw [Reader.mode_of_admitted hbound hfault, if_neg (by omega), if_pos h8]

/-- Behind a byte delivered the block is loaded while bytes are left of it. -/
theorem Reader.mode_of_delivered (hpos : 0 < r.cur) (hle : r.cur ≤ bs) :
    Reader.mode r = if Reader.buffered r = 0 then .exhausted else .loaded := by
  by_cases h8 : r.cur < bs
  · have hleft : Reader.buffered r ≠ 0 := by
      rw [Reader.buffered, if_pos ⟨hpos.le, h8⟩]
      omega
    rw [Reader.mode_of_loaded hbound hfault hpos.le h8, if_neg hleft]
  · have hnone : Reader.buffered r = 0 := if_neg fun h => h8 h.2
    rw [Reader.mode_of_admitted hbound hfault, if_neg (by omega), if_neg h8, hnone, if_pos rfl]

end

theorem Reader.bind_mode (r : Reader) :
    Reader.mode (Reader.bind r) = if (Reader.bind r).regs.code = .ok then .empty else .unbound := by
  cases hkey : keyValid r.regs.arg0 with
  | true => rw [Reader.bind_of_valid hkey]; rfl
  | false => rw [Reader.bind_of_rejected hkey]; rfl

/-! ### The state behind a rule that finished OK -/

/-- What the state machine says of a rule that finishes OK: the seeks, the align, the commands that move nothing, the
transfers. -/
def Reader.okMode (i : Instr) (r r' : Reader) : Prop :=
  (∀ p ∈ seeks, i = p.1 →
    Reader.mode r' = if Reader.seekTarget r p.2 % bs = 0 then .empty else .loaded) ∧
  (i = .rAlign → Reader.mode r' = if 0 < r.cur ∧ r.cur < bs then .loaded else Reader.mode r) ∧
  (i = .rBuffered ∨ i = .rRead 0 → Reader.mode r' = Reader.mode r) ∧
  (transfers i = true → Reader.mode r' = if Reader.buffered r' = 0 then .exhausted else .loaded)

theorem Reader.finishedOk.mode {r r' : Reader} (h : Reader.finishedOk r' r) : Reader.mode r = Reader.mode r' := by
  obtain ⟨v, dout, rfl⟩ := h
  rfl

theorem Reader.finishedOk.cur {r r' : Reader} (h : Reader.finishedOk r' r) : r.cur = r'.cur := by
  obtain ⟨v, dout, rfl⟩ := h
  rfl

/-- A transfer that finished OK left the cursor behind a byte of the loaded block. -/
theorem readerRule_cur_of_transfers {i : Instr} {r : Reader} (hi : transfers i = true)
    (hok : (readerRule i r).regs.code = .ok) : 0 < (readerRule i r).cur ∧ (readerRule i r).cur ≤ bs := by
  have value : ∀ (k : Width) (signed : Bool), (Reader.readValue k signed r).regs.code = .ok →
      0 < (Reader.readValue k signed r).cur ∧ (Reader.readValue k signed r).cur ≤ bs := fun k signed h => by
    obtain ⟨r', ⟨-, hcur⟩, hfinished⟩ := Reader.readValue_ok h
    rw [hfinished.cur]
    exact hcur (Width.bytes_pos k)
  cases i
  case rRead n =>
    obtain ⟨r', ⟨-, hcur⟩, hfinished⟩ := Reader.read_ok hok
    have hn : n ≠ 0 := of_decide_eq_true hi
    show 0 < (Reader.read n r).cur ∧ (Reader.read n r).cur ≤ bs
    rw [hfinished.cur]
    exact hcur (by omega)
  case rReadU8 | rReadI8 | rReadU16 | rReadI16 | rReadU32 | rReadI32 | rReadU64 | rReadI64 => exact value _ _ hok
  case rReadAligned =>
    obtain ⟨r', hcur, hfinished⟩ := Reader.readAligned_ok hok
    show 0 < (Reader.readAligned r).cur ∧ (Reader.readAligned r).cur ≤ bs
    rwa [hfinished.cur]
  all_goals cases hi

theorem readerRule_okMode {i : Instr} {r : Reader} (hbound : r.bound = true) (hfault : r.fault = false)
    (hbound' : (readerRule i r).bound = true) (hfault' : (readerRule i r).fault = false)
    (hok : (readerRule i r).regs.code = .ok) : Reader.okMode i r (readerRule i r) := by
  refine ⟨?_, ?_, ?_, fun hi => ?_⟩
  · rintro p hp rfl
    obtain ⟨-, -, hrule⟩ := readerRule_of_seekOrigin p hp
    rw [hrule] at hok hbound' hfault' ⊢
    obtain ⟨r', -, hfinished, hboundary, hinside⟩ := Reader.seekTo_ok hok
    rw [← hfinished.cur] at hboundary hinside
    split_ifs with hrem
    · exact Reader.mode_of_empty hbound' hfault' (hboundary hrem)
    · obtain ⟨h0, h8⟩ := hinside hrem
      exact Reader.mode_of_loaded hbound' hfault' h0 h8
  · rintro rfl
    refine (Reader.align_ok hok).mode.trans ?_
    split_ifs
    · exact Reader.mode_of_loaded (r := Reader.loaded r) hbound hfault le_rfl (by decide : (0 : Int) < bs)
    · rfl
  · rintro (rfl | rfl) <;> rfl
  · obtain ⟨hpos, hle⟩ := readerRule_cur_of_transfers hi hok
    exact Reader.mode_of_delivered hbound' hfault' hpos hle

theorem ne_rBind_of_not_bind {i : Instr} (h : isBind i = false) : i ≠ .rBind := by
  rintro rfl
  cases h

/-- Settles O56: the bind, the two failed admissions, and the codes a rule can raise. -/
theorem readerFollowsItsStateMachine : Obligations.ReaderFollowsItsStateMachine := by
  intro i s t n n' he hcur _ hexec hcur'
  obtain ⟨r', rfl, hr'⟩ := exec_reader_next he hcur hexec
  obtain rfl : { n with r := r' } = n' := Option.some.inj ((cur?_setR hcur n r').symm.trans hcur')
  rcases hr' with ⟨rfl, rfl⟩ | ⟨hb, hbound, rfl⟩ | ⟨hb, hbound, hfault, rfl⟩ | ⟨hb, ⟨hbound, hfault, -⟩, rfl⟩
  · exact ⟨fun _ => Reader.bind_mode n.r, fun h => absurd rfl h, fun h => absurd rfl h, fun h => absurd rfl h⟩
  · have hmode := Reader.mode_of_unbound hbound
    exact ⟨fun h => absurd h (ne_rBind_of_not_bind hb), fun _ _ => hmode,
      fun _ h => absurd (hmode.symm.trans h) (by decide), fun _ h => absurd hmode h⟩
  · have hmode := Reader.mode_of_fault hbound hfault
    exact ⟨fun h => absurd h (ne_rBind_of_not_bind hb), fun _ h => absurd (hmode.symm.trans h) (by decide),
      fun _ _ => hmode, fun _ _ h => absurd hmode h⟩
  · have hmode := Reader.mode_of_admitted hbound hfault
    refine ⟨fun h => absurd h (ne_rBind_of_not_bind hb), fun _ h => absurd (hmode.symm.trans h) ?_,
      fun _ h => absurd (hmode.symm.trans h) ?_, fun _ _ _ => ?_⟩
    · split_ifs <;> decide
    · split_ifs <;> decide
    obtain ⟨c, v, dout, r1, hends, ⟨-, hbound1, -, -, hfault1, -⟩, -, hc, hempty, hunsupported⟩ :=
      readerRule_endsFrom he hb n.r
    have hbound' : (readerRule i n.r).bound = true := by rw [hends, Reader.raise_bound, hbound1, hbound]
    have hfault' : (readerRule i n.r).fault = Code.setsFault c := by
      rw [hends, Reader.raise_fault, hfault1, hfault, Bool.or_false]
    have hcode : (readerRule i n.r).regs.code = c := by rw [hends, Reader.raise_code]
    simp only [List.mem_cons, List.not_mem_nil, or_false] at hc
    rcases hc with rfl | rfl | rfl | rfl | rfl | rfl <;> simp only [hcode]
    · exact readerRule_okMode hbound hfault hbound' hfault' hcode
    · exact Reader.mode_of_fault hbound' hfault'
    · refine Reader.mode_of_empty hbound' hfault' ?_
      rw [hends, Reader.raise_cur (by decide), hempty rfl]
      decide
    · exact Reader.mode_of_fault hbound' hfault'
    · rw [hends, hunsupported rfl, Reader.raise_of_not_setsFault rfl]
      rfl
    · exact Reader.mode_of_fault hbound' hfault'

end Sys2Proof.Machine
end

section
/-! The round trip (42_reader.md R195): the ciphertext that a write and a flush leave in the sink, and the read of it. -/

namespace Sys2Proof.Machine

open Sys2Proof.Config

/-! ### The bytes pending behind a write (10_state.md R25) -/

/-- The last block that the bytes `p` fill, as far as they fill one, behind a block that holds `old`. -/
theorem lastBlock_length {p old : List Byte} (hold : old.length = bs) :
    (if p.length / bs = 0 then old else (p.drop (bs * (p.length / bs - 1))).take bs).length = bs := by
  split_ifs with h
  · exact hold
  · rw [List.length_take, List.length_drop]
    change p.length / 8 ≠ 0 at h
    show min 8 (p.length - 8 * (p.length / 8 - 1)) = 8
    omega

/-- Pending are the bytes behind the whole blocks. -/
theorem Writer.pending_advance (w : Writer) (s : List Byte) :
    Writer.pending (Writer.advance w s) =
      (Writer.pending w ++ s).drop (bs * ((Writer.pending w ++ s).length / bs)) := by
  unfold Writer.advance
  rw [Writer.pending, blockSlice]
  dsimp only
  generalize Writer.pending w ++ s = p
  have hlast := lastBlock_length (p := p) (blockBytes_length w.buf)
  generalize (if p.length / bs = 0 then blockBytes w.buf else (p.drop (bs * (p.length / bs - 1))).take bs) = last at hlast
  have hdiv := Nat.div_add_mod p.length bs
  have hmod := Nat.mod_lt p.length (show 0 < bs by decide)
  have hrest : (p.drop (bs * (p.length / bs))).length = p.length % bs := by rw [List.length_drop]; omega
  rw [List.drop_zero, blockBytes_blockOfBytes (by rw [List.length_append, hrest, List.length_drop, hlast]; omega),
    List.take_left' hrest]

/-! ### A write and a flush from a block boundary -/

/-- The bytes with zeros up to a whole number of blocks. -/
def paddedBytes (bytes : List Byte) : List Byte :=
  bytes ++ List.replicate (if bytes.length % bs = 0 then 0 else bs - bytes.length % bs) 0

theorem paddedBytes_length (bytes : List Byte) :
    (paddedBytes bytes).length = bs * ((paddedBytes bytes).length / bs) := by
  rw [paddedBytes, List.length_append, List.length_replicate]
  split_ifs with h
  · show bytes.length + 0 = 8 * ((bytes.length + 0) / 8)
    change bytes.length % 8 = 0 at h
    omega
  · show bytes.length + (8 - bytes.length % 8) = 8 * ((bytes.length + (8 - bytes.length % 8)) / 8)
    omega

/-- The ciphertext of the padded bytes is that of their whole blocks and of the padded rest. -/
theorem encBlocks_paddedBytes {bytes : List Byte} (hpart : 0 < bytes.length % bs) (key : Word64) :
    (paddedBytes bytes).length = bs * (bytes.length / bs) + bs ∧
    encBlocks key ((paddedBytes bytes).length / bs) (paddedBytes bytes) =
      encBlocks key (bytes.length / bs) bytes ++ blockBytes (enc key (blockOfBytes
        (bytes.drop (bs * (bytes.length / bs)) ++ List.replicate (bs - bytes.length % bs) 0))) := by
  have hdiv := Nat.div_add_mod bytes.length bs
  have hmod := Nat.mod_lt bytes.length (show 0 < bs by decide)
  have hpadded : paddedBytes bytes = bytes ++ List.replicate (bs - bytes.length % bs) 0 := by
    rw [paddedBytes, if_neg (by omega)]
  have hlen : (paddedBytes bytes).length = bs * (bytes.length / bs) + bs := by
    rw [hpadded, List.length_append, List.length_replicate]
    omega
  have hcount : (bs * (bytes.length / bs) + bs) / bs = bytes.length / bs + 1 := by
    rw [Nat.add_div_right _ (by decide), Nat.mul_div_cancel_left _ (by decide)]
  have hwhole : encBlocks key (bytes.length / bs) (paddedBytes bytes) = encBlocks key (bytes.length / bs) bytes := by
    rw [← encBlocks_take key _ bytes.length _ (by omega), hpadded, List.take_left' rfl]
  have hrest : (paddedBytes bytes).drop (bs * (bytes.length / bs)) =
      bytes.drop (bs * (bytes.length / bs)) ++ List.replicate (bs - bytes.length % bs) 0 := by
    rw [hpadded, List.drop_append_of_le_length (by omega)]
  refine ⟨hlen, ?_⟩
  rw [hlen, hcount, encBlocks_add, hwhole, encBlocks, encBlocks, List.append_nil, hrest,
    List.take_of_length_le (by rw [List.length_append, List.length_drop, List.length_replicate]; omega)]

/-- From a block boundary with zero padding, a write and a flush append the ciphertext of the padded bytes. -/
theorem Writer.flushed_advance_sink {w : Writer} (bytes : List Byte) (hfill : w.fill = 0) (hcompat : w.compat = false) :
    (Writer.flushed (Writer.advance w bytes)).sink.mem = Memory.write w.sink.mem w.sink.pos
        (encBlocks w.key ((paddedBytes bytes).length / bs) (paddedBytes bytes)) ∧
    (Writer.flushed (Writer.advance w bytes)).sink.pos = w.sink.pos + (paddedBytes bytes).length := by
  have hsink := Writer.advance_sink_of_empty hfill bytes
  have hfill' : (Writer.advance w bytes).fill = bytes.length % bs := by
    rw [Writer.advance_fill (by omega), hfill, Nat.zero_add]
  have hdiv := Nat.div_add_mod bytes.length bs
  rcases Nat.eq_zero_or_pos (bytes.length % bs) with hwhole | hpart
  · have hpad : paddedBytes bytes = bytes := by rw [paddedBytes, if_pos hwhole]; exact List.append_nil _
    rw [Writer.flushed_of_empty (hfill'.trans hwhole), hsink, hpad]
    exact ⟨rfl, congrArg (w.sink.pos + ·) (by omega)⟩
  · obtain ⟨hlen, henc⟩ := encBlocks_paddedBytes hpart w.key
    have hempty : Writer.pending w = [] :=
      List.eq_nil_of_length_eq_zero (by rw [Writer.pending_length (by omega), hfill])
    have hblock : Writer.padded (Writer.advance w bytes) = blockOfBytes
        (bytes.drop (bs * (bytes.length / bs)) ++ List.replicate (bs - bytes.length % bs) 0) := by
      rw [Writer.padded, Writer.pending_advance, hempty, List.nil_append, hfill']
      exact congrArg blockOfBytes (congrArg _ (if_neg (by rw [show (Writer.advance w bytes).compat = false from hcompat]; decide)))
    rw [Writer.flushed_of_pos (by rw [hfill']; exact hpart), hblock, henc, hlen, Memory.write_append, encBlocks_length]
    simp only [Writer.emitted, hsink]
    exact ⟨rfl, Nat.add_assoc _ _ _⟩

theorem Writer.flushed_withRegs_sink (w : Writer) (g : HostRegs) :
    (Writer.flushed (Writer.withRegs w g)).sink = (Writer.flushed w).sink := by
  rw [Writer.flushed_withRegs]
  rfl

/-- A reader before the ciphertext of whole blocks reads them; with a key the cipher accepts, it reads the plaintext. -/
theorem exec_rRead_ciphertext {u : State} {k : Instance} {p : List Byte} {m : Memory} (hcur : State.cur? u = some k)
    (hready : Reader.ready k.r) (hempty : k.r.cur = -1) (hplan : k.r.source.plan = [])
    (hwhole : p.length = bs * (p.length / bs))
    (hmem : k.r.source.mem = Memory.write m k.r.source.pos (encBlocks k.r.key (p.length / bs) p)) :
    ∃ v l, exec (.rRead p.length) u = .next v ∧ State.cur? v = some l ∧ l.r.regs.code = .ok ∧
      (keyValid k.r.key = true → l.r.regs.dout = p) := by
  have hunread : Reader.unread k.r = [] := Reader.unread_eq_nil (.inl (by omega))
  have hblocks : Reader.blocksFor k.r p.length = p.length / bs := by
    rw [Reader.blocksFor, hunread]
    change p.length = 8 * (p.length / 8) at hwhole
    show (p.length - 0 + 7) / 8 = p.length / 8
    omega
  have hnext : Source.nextBlocks k.r.source (p.length / bs) = encBlocks k.r.key (p.length / bs) p := by
    have hread := Memory.readUpTo_write (encBlocks k.r.key (p.length / bs) p) m k.r.source.pos
    rwa [encBlocks_length, ← hmem] at hread
  have hread := exec_rRead_obey (len := p.length) hcur hready (by rw [hplan]; exact obeysNext_nil _)
    (by rw [hblocks, hnext, encBlocks_length])
  refine ⟨_, _, hread, cur?_setR hcur k _, rfl, fun hvalid => ?_⟩
  show (Reader.plaintext k.r (Reader.blocksFor k.r p.length)).take p.length = p
  rw [hblocks, Reader.plaintext, hunread, List.nil_append, hnext, decBlocks_encBlocks hvalid _ _ hwhole.ge, ← hwhole,
    List.take_length, List.take_length]

/-- Settles O58: the padded bytes are enciphered block by block, and read back block by block. -/
theorem writtenBytesAreReadBack : Obligations.WrittenBytesAreReadBack := by
  intro s n bytes hcur hbound hfault hopen hcompat hfill hplan hrange
  have hfillLt : n.w.fill < bs := by rw [hfill]; decide
  have hwrite := exec_wWrite_withDin hcur bytes hbound hfault hfillLt hopen (by omega)
    (by rw [hplan]; exact obeysNext_nil _)
  rw [State.setW_self hcur] at hwrite
  -- the writer once it took the bytes
  have hfillA := Writer.advance_fill hfillLt.le bytes
  have hmod : (n.w.fill + bytes.length) % bs < bs := Nat.mod_lt _ (by decide)
  have hpad : Writer.pad (Writer.advance n.w bytes) ≤ bs := by
    rw [Writer.pad]
    split_ifs <;> omega
  have hofs : (Writer.advance n.w bytes).ofs.toNat = n.w.ofs.toNat + bytes.length := toNat_add_ofNat (by omega)
  have hplanA : (Writer.advance n.w bytes).sink.plan = [] := by
    rw [Writer.advance_plan hfillLt.le, hplan, List.drop_nil]
  obtain ⟨hmem, hpos⟩ := Writer.flushed_advance_sink bytes hfill hcompat
  have hflush := exec_wFlush_withDin (cur?_setW hcur n (Writer.finish .ok (BitVec.ofNat 64 bytes.length)
    (Writer.advance (Writer.withDin n.w bytes) bytes))) hbound hfault (hfillA.trans_lt hmod) hplanA
    (by show (Writer.advance n.w bytes).ofs.toNat + Writer.pad (Writer.advance n.w bytes) ≤ maxOfs; omega)
  refine ⟨_, _, _, hwrite, hflush, cur?_setW (cur?_setW hcur n _) _ _, rfl, ?_⟩
  intro u k hcurU hready hkey hempty hplanU hmemU hposU
  have hsink : (Writer.flushed (Writer.finish .ok (BitVec.ofNat 64 bytes.length)
      (Writer.advance (Writer.withDin n.w bytes) bytes))).sink = (Writer.flushed (Writer.advance n.w bytes)).sink :=
    Writer.flushed_withRegs_sink (Writer.advance n.w bytes) _
  replace hmemU := hmemU.trans ((congrArg Sink.mem hsink).trans hmem)
  rw [← hkey, ← hposU] at hmemU
  obtain ⟨v, l, hread, hcurV, hcode, hdout⟩ := exec_rRead_ciphertext hcurU hready hempty hplanU
    (paddedBytes_length bytes) hmemU
  refine ⟨v, l, ?_, hcurV, hcode, fun hvalid => ⟨_, ?_, hdout (hkey ▸ hvalid)⟩⟩
  · show exec (.rRead ((Writer.flushed (Writer.finish .ok (BitVec.ofNat 64 bytes.length)
      (Writer.advance (Writer.withDin n.w bytes) bytes))).sink.pos - n.w.sink.pos)) u = .next v
    rw [hsink, hpos, Nat.add_sub_cancel_left]
    exact hread
  · split_ifs <;> omega

end Sys2Proof.Machine
end
